-- ==== Sys2Proof/Word.lean ====
section
/-! DEFINITION. The word types of the block and the small closed sets of names that operands are made of. -/

namespace Sys2Proof

/-- One byte of a buffer (20_memory.md R60: every byte space is addressed by byte offset). -/
abbrev Byte := BitVec 8

/-- One 32-bit word of a packet, of a frame header or of a slot (30_encoding.md R90). -/
abbrev Word := BitVec 32

/-- The seven operation kinds of header bits 7..4 (30_encoding.md R92).
The op kind the table calls IDLE_TXN is `idle` here. -/
inductive OpKind where
  | read
  | write
  | niRead
  | niWrite
  | rmwBits
  | rmwSum
  | idle
  deriving DecidableEq, Repr, Inhabited

/-- The five fields of a transaction header word (30_encoding.md R91). -/
structure HeaderFields where
  version : BitVec 4
  wordCount : BitVec 12
  txnId : BitVec 8
  opKind : BitVec 4
  infoCode : BitVec 4
  deriving DecidableEq, Repr, Inhabited

/-- The word types of the chip payload (30_encoding.md R112). -/
inductive WordType where
  | idle
  | busyOn
  | busyOff
  | chipHeader
  | chipTrailer
  | emptyFrame
  | regionHeader
  | dataShort
  | dataLong
  | unknown
  deriving DecidableEq, Repr, Inhabited

/-- The board family of an event, with the operands that only the USB family has
(30_encoding.md R121: `fam` is NET or USB, `fw` and `ht` are given for USB only, 43_bitstream_decoder.md R245). -/
inductive BoardFamily where
  | net
  | usb (fw ht : Nat)
  deriving DecidableEq, Repr, Inhabited

/-- A byte order (20_memory.md R64). -/
inductive ByteOrder where
  | little
  | big
  deriving DecidableEq, Repr, Inhabited

/-- The two encoding spaces of the block (30_encoding.md, introduction): the transaction header word, and the
chip-payload word whose first byte selects its type. -/
inductive CodeSpace where
  | header
  | chip
  deriving DecidableEq, Repr, Inhabited

end Sys2Proof
end

