-- ==== Sys2Proof/Config.lean ====
section
/-! DEFINITION. The parameters of 00_scope.md R8: the constants the spec fixes, the shape of the parameters that
are arguments of the model (they stand in State as `params`, log entry 3), and the free values. -/

namespace Sys2Proof

/-- A USB header length, in words: every value of USB_HDR_WORDS is 3, 5 or 9 (42_board_frame_parser.md R188, conflict C3). -/
inductive UsbHdrLen where
  | three
  | five
  | nine
  deriving DecidableEq, Repr, Inhabited

/-- The fields USB_LEGACY3_DECODE gives for a 3-word USB header (42_board_frame_parser.md R193, 10_state.md R36).
The width of `triggerBusyCount` is OPEN in the spec. -/
structure Legacy3 where
  eventId : BitVec 48
  timestamp : BitVec 48
  triggerBusyCount : Nat
  strobeCount : Word
  deriving DecidableEq, Repr, Inhabited

/-- What DGRAM_RX delivers to one receive: a whole datagram, or TIMEOUT (00_scope.md R7, 41_transport_engine.md R150). -/
inductive Delivery where
  | datagram (bytes : List Byte)
  | timeout
  deriving DecidableEq, Repr, Inhabited

/-- One row of the USB_HDR_WORDS table: firmware version, header type, header length (00_scope.md R8). -/
structure UsbHdrRow where
  fw : Nat
  ht : Nat
  len : UsbHdrLen
  deriving DecidableEq, Repr, Inhabited

/-- The parameters of one model run: PACKET_BUDGET, NET_WORD_ORDER, RESET_TXID, N_HOSTS, the table USB_HDR_WORDS and the
firmware versions for which USB_LEGACY3_DECODE is defined (00_scope.md R8, 10_state.md R51, 70_reset_and_hazards.md R324).
No command writes them.  Log entries 3, 4, 5 and 16 say how they are held. -/
structure Params where
  packetBudget : Nat
  netWordOrder : ByteOrder
  resetTxid : Byte
  nHosts : Nat
  usbHdrWords : List UsbHdrRow
  legacy3Fw : List Nat
  deriving DecidableEq, Repr, Inhabited

/-- The parameters with the values 00_scope.md R8 gives as defaults; those it gives none for, N_HOSTS and the two OPEN
tables, are arguments. -/
def Params.given (nHosts : Nat) (usbHdrWords : List UsbHdrRow) (legacy3Fw : List Nat) : Params where
  packetBudget := 1400
  netWordOrder := .little
  resetTxid := 0#8
  nHosts := nHosts
  usbHdrWords := usbHdrWords
  legacy3Fw := legacy3Fw

namespace Config

/-- PROTO_VERSION (R8, R96). -/
def protoVersion : BitVec 4 := 2#4
/-- MAX_WORD_COUNT (R8). -/
def maxWordCount : Nat := 0xFFF
/-- PKT_HDR_WORDS (R8, R103). -/
def pktHdrWords : Nat := 0
/-- NET_HDR_BYTES (R8, R181). -/
def netHdrBytes : Nat := 64
/-- NET_TRL_BYTES (R8, R181). -/
def netTrlBytes : Nat := 1
/-- USB_TRL_WORDS (R8, R190). -/
def usbTrlWords : Nat := 2
/-- USB_TRAILER_SENTINEL (R8, R197). -/
def usbTrailerSentinel : Word := 0xBFBFBFBF#32
/-- USB_W0_CHECK_MASK (R8, R192). -/
def usbW0CheckMask : Word := 0xFFFE03BF#32
/-- USB_W0_CHECK_VALUE (R8, R192). -/
def usbW0CheckValue : Word := 0x00000008#32
/-- ILLEGAL_CHIP_ID (R8, R262). -/
def illegalChipId : BitVec 4 := 15#4
/-- MAX_REGION (R8, R263). -/
def maxRegion : Nat := 31
/-- MAX_DCOL (R8, R264). -/
def maxDcol : Nat := 511
/-- MAX_ADDRESS (R8, R265). -/
def maxAddress : Nat := 1023
/-- The info code REQUEST, written into every request header (R94, R130). -/
def infoRequest : BitVec 4 := 0xF#4

/-- UNINTERPRETED PARAMETER (log entry 4): the table USB_HDR_WORDS of the run (R8, R188: OPEN, no default). -/
opaque usbHdrWords : List UsbHdrRow

/-- UNINTERPRETED PARAMETER (log entry 5): the firmware versions for which USB_LEGACY3_DECODE is defined (R8, R193: OPEN, no
default). -/
opaque legacy3Fw : List Nat

/-- UNINTERPRETED PARAMETER (log entry 16): how many callers there are beside the first (R8, R304: N_HOSTS is any n ≥ 1). -/
opaque otherHosts : Nat

/-- N_HOSTS of the run. -/
def nHosts : Nat := otherHosts + 1

/-- FREE VALUE (log entry 6): the field decode of a 3-word USB header, which the spec leaves OPEN
(R110, R193). Only its being defined for a firmware version is a parameter (`Params.legacy3Fw`). -/
opaque usbLegacy3Decode : Nat → Word → Word → Word → Legacy3

/-- FREE VALUE (log entry 7): what DGRAM_RX delivers when the environment has placed nothing on it
(R150: "any byte string or TIMEOUT"). The argument is the draw counter of State. -/
opaque freeDelivery : Nat → Delivery

/-- FREE VALUE (log entry 8): LAST_ID after a RESET command (R53, R321: unspecified, 93_implementation_defined.md A5).
The argument is the draw counter of State. -/
opaque freeLastId : Nat → Byte

end Config

end Sys2Proof
end

