-- ==== Sys2Proof/Syntax.lean ====
section
/-! DEFINITION. The instructions: one constructor for each row of spec/opcode_table.json. -/

namespace Sys2Proof

/-- Every row of the opcode table: seven transaction header words (30_encoding.md R91, R92), fifteen rows of
chip-payload words (30_encoding.md R112, R116) and nine host commands (30_encoding.md R121). A header word
carries version 2, as every row of the table fixes it. -/
inductive Instr where
  -- transaction header words, R92
  | read (wordCount : BitVec 12) (txnId : BitVec 8) (infoCode : BitVec 4)
  | write (wordCount : BitVec 12) (txnId : BitVec 8) (infoCode : BitVec 4)
  | niRead (wordCount : BitVec 12) (txnId : BitVec 8) (infoCode : BitVec 4)
  | niWrite (wordCount : BitVec 12) (txnId : BitVec 8) (infoCode : BitVec 4)
  | rmwBits (wordCount : BitVec 12) (txnId : BitVec 8) (infoCode : BitVec 4)
  | rmwSum (wordCount : BitVec 12) (txnId : BitVec 8) (infoCode : BitVec 4)
  | idleTxn (wordCount : BitVec 12) (txnId : BitVec 8) (infoCode : BitVec 4)
  -- chip-payload words, R112 and R113
  | idle
  | busyOn
  | busyOff
  | chipHeader (chipId : BitVec 4) (bunchCounter : BitVec 8)
  | chipTrailer (flags : BitVec 4)
  | emptyFrame (chipId : BitVec 4) (bunchCounter : BitVec 8)
  | regionHeader (region : BitVec 5)
  | dataShort (localDcol : BitVec 4) (address : BitVec 10)
  | dataLong (localDcol : BitVec 4) (address : BitVec 10) (hitmap : BitVec 7)
  -- the 45 unknown first bytes in six rows, R116 and R121
  | unknown80_9F (b0 : Byte)
  | unknownF2_F3 (b0 : Byte)
  | unknownF4_F7 (b0 : Byte)
  | unknownF8_FB (b0 : Byte)
  | unknownFC_FD (b0 : Byte)
  | unknownFE (b0 : Byte)
  -- host commands, R121
  | queue (op : BitVec 4) (n : Nat) (addr : Word) (wdata : List Word) (slot : Option Nat)
  | execute
  | encodeHeader (wordCount : Nat) (op : BitVec 4) (txnId : Nat)
  | decodeHeader (w : Word)
  | decodeFrameNet (buf : List Byte)
  | decodeFrameUsb (buf : List Byte) (fw ht : Nat)
  | decodeChipStream (buf : List Byte) (bi ri : Nat)
  | decodeEvent (fam : BoardFamily) (buf : List Byte) (bi ri : Nat)
  | reset
  deriving DecidableEq, Repr

end Sys2Proof
end

