-- ==== Sys2Proof/WellFormed.lean ====
section
/-! DEFINITION. Which instructions are well formed, and which of them are host commands. -/

namespace Sys2Proof

/-- The byte `b` has the bits `pat` under `mask` (a match and mask pair of spec/opcode_table.json). -/
def Byte.fits (b mask pat : Byte) : Bool := b &&& mask == pat

/-- Every operand is inside its range. Field widths are in the types; what is left is the first byte of an UNKNOWN
word, which must lie in its row's range (30_encoding.md R116; the six match and mask pairs of the opcode table). A host
command's operands have no range here: the rules of the command itself check them (R130, R141). -/
def Instr.wf : Instr → Bool
  | .read _ _ _ => true
  | .write _ _ _ => true
  | .niRead _ _ _ => true
  | .niWrite _ _ _ => true
  | .rmwBits _ _ _ => true
  | .rmwSum _ _ _ => true
  | .idleTxn _ _ _ => true
  | .idle => true
  | .busyOn => true
  | .busyOff => true
  | .chipHeader _ _ => true
  | .chipTrailer _ => true
  | .emptyFrame _ _ => true
  | .regionHeader _ => true
  | .dataShort _ _ => true
  | .dataLong _ _ _ => true
  | .unknown80_9F b0 => Byte.fits b0 0xE0#8 0x80#8
  | .unknownF2_F3 b0 => Byte.fits b0 0xFE#8 0xF2#8
  | .unknownF4_F7 b0 => Byte.fits b0 0xFC#8 0xF4#8
  | .unknownF8_FB b0 => Byte.fits b0 0xFC#8 0xF8#8
  | .unknownFC_FD b0 => Byte.fits b0 0xFE#8 0xFC#8
  | .unknownFE b0 => Byte.fits b0 0xFF#8 0xFE#8
  | .queue _ _ _ _ _ => true
  | .execute => true
  | .encodeHeader _ _ _ => true
  | .decodeHeader _ => true
  | .decodeFrameNet _ => true
  | .decodeFrameUsb _ _ _ => true
  | .decodeChipStream _ _ _ => true
  | .decodeEvent _ _ _ _ => true
  | .reset => true

/-- The nine host commands: what the CMD port carries (00_scope.md R7). -/
def Instr.isCommand : Instr → Bool
  | .read _ _ _ => false
  | .write _ _ _ => false
  | .niRead _ _ _ => false
  | .niWrite _ _ _ => false
  | .rmwBits _ _ _ => false
  | .rmwSum _ _ _ => false
  | .idleTxn _ _ _ => false
  | .idle => false
  | .busyOn => false
  | .busyOff => false
  | .chipHeader _ _ => false
  | .chipTrailer _ => false
  | .emptyFrame _ _ => false
  | .regionHeader _ => false
  | .dataShort _ _ => false
  | .dataLong _ _ _ => false
  | .unknown80_9F _ => false
  | .unknownF2_F3 _ => false
  | .unknownF4_F7 _ => false
  | .unknownF8_FB _ => false
  | .unknownFC_FD _ => false
  | .unknownFE _ => false
  | .queue _ _ _ _ _ => true
  | .execute => true
  | .encodeHeader _ _ _ => true
  | .decodeHeader _ => true
  | .decodeFrameNet _ => true
  | .decodeFrameUsb _ _ _ => true
  | .decodeChipStream _ _ _ => true
  | .decodeEvent _ _ _ _ => true
  | .reset => true

end Sys2Proof
end

