-- ==== Sys2Proof/Decode.lean ====
section
/-! DEFINITION. Byte order, the header's packing, the chip-word classifier, the decoder of both encoding spaces, and
after it the encoder, written from the same tables of 30_encoding.md. -/

namespace Sys2Proof

/-! ## Bytes and words -/

/-- `LE32` on four bytes given in buffer order (00_scope.md R11). -/
def le32 (b0 b1 b2 b3 : Byte) : Word :=
  b0.setWidth 32 ||| (b1.setWidth 32 <<< 8) ||| (b2.setWidth 32 <<< 16) ||| (b3.setWidth 32 <<< 24)

/-- `BE32` on four bytes given in buffer order (00_scope.md R11). -/
def be32 (b0 b1 b2 b3 : Byte) : Word :=
  (b0.setWidth 32 <<< 24) ||| (b1.setWidth 32 <<< 16) ||| (b2.setWidth 32 <<< 8) ||| b3.setWidth 32

/-- The four bytes of a transport word on the wire, most significant first (20_memory.md R62). -/
def beBytes (w : Word) : List Byte :=
  [w.extractLsb' 24 8, w.extractLsb' 16 8, w.extractLsb' 8 8, w.extractLsb' 0 8]

/-! ## The header word -/

/-- `PACK` (40_transport_codec.md R129). -/
def packHeader (h : HeaderFields) : Word :=
  (h.version.setWidth 32 <<< 28) ||| (h.wordCount.setWidth 32 <<< 16) ||| (h.txnId.setWidth 32 <<< 8)
    ||| (h.opKind.setWidth 32 <<< 4) ||| h.infoCode.setWidth 32

/-- `UNPACK` (40_transport_codec.md R129). -/
def unpackHeader (w : Word) : HeaderFields where
  version := w.extractLsb' 28 4
  wordCount := w.extractLsb' 16 12
  txnId := w.extractLsb' 8 8
  opKind := w.extractLsb' 4 4
  infoCode := w.extractLsb' 0 4

/-- The value of an op kind in header bits 7..4 (30_encoding.md R92). -/
def OpKind.code : OpKind → BitVec 4
  | .read => 0x0#4
  | .write => 0x1#4
  | .niRead => 0x2#4
  | .niWrite => 0x3#4
  | .rmwBits => 0x4#4
  | .rmwSum => 0x5#4
  | .idle => 0xF#4

/-- The op kind of a 4-bit value; none for the reserved values 0x6 to 0xE (30_encoding.md R92, R93). -/
def OpKind.ofCode (k : BitVec 4) : Option OpKind :=
  if k = 0x0#4 then some .read
  else if k = 0x1#4 then some .write
  else if k = 0x2#4 then some .niRead
  else if k = 0x3#4 then some .niWrite
  else if k = 0x4#4 then some .rmwBits
  else if k = 0x5#4 then some .rmwSum
  else if k = 0xF#4 then some .idle
  else none

/-- The header word of an op kind as an instruction. -/
def OpKind.instr (k : OpKind) (wordCount : BitVec 12) (txnId : BitVec 8) (infoCode : BitVec 4) : Instr :=
  match k with
  | .read => .read wordCount txnId infoCode
  | .write => .write wordCount txnId infoCode
  | .niRead => .niRead wordCount txnId infoCode
  | .niWrite => .niWrite wordCount txnId infoCode
  | .rmwBits => .rmwBits wordCount txnId infoCode
  | .rmwSum => .rmwSum wordCount txnId infoCode
  | .idle => .idleTxn wordCount txnId infoCode

/-- The header word with PROTO_VERSION and the given fields (30_encoding.md R96). -/
def headerWord (k : OpKind) (wordCount : BitVec 12) (txnId : BitVec 8) (infoCode : BitVec 4) : Word :=
  packHeader ⟨Config.protoVersion, wordCount, txnId, k.code, infoCode⟩

/-- Why four bytes are no header word of the table. -/
inductive HeaderReject where
  /-- Fewer than four bytes. -/
  | shortWord (n : Nat)
  /-- The version field is not PROTO_VERSION (R96). -/
  | badVersion (version : BitVec 4)
  /-- The op kind is one of the reserved values (R93). -/
  | reservedOpKind (opKind : BitVec 4)
  deriving DecidableEq, Repr

/-- The instruction a 32-bit header word stands for. -/
def decodeHeaderWord (w : Word) : Except HeaderReject Instr :=
  let h := unpackHeader w
  if h.version ≠ Config.protoVersion then .error (.badVersion h.version)
  else match OpKind.ofCode h.opKind with
    | none => .error (.reservedOpKind h.opKind)
    | some k => .ok (k.instr h.wordCount h.txnId h.infoCode)

/-- A header word from bytes in wire order (20_memory.md R62), with the bytes after it. -/
def decodeHeaderBytes : List Byte → Except HeaderReject (Instr × List Byte)
  | b0 :: b1 :: b2 :: b3 :: rest =>
    match decodeHeaderWord (be32 b0 b1 b2 b3) with
    | .error e => .error e
    | .ok i => .ok (i, rest)
  | bs => .error (.shortWord bs.length)

/-! ## Chip-payload words -/

/-- `CLASSIFY` (43_bitstream_decoder.md R220): the tests of the table of 30_encoding.md R112, in its order. -/
def classify (b0 : Byte) : WordType :=
  if b0 = 0xFF#8 then .idle
  else if b0 = 0xF1#8 then .busyOn
  else if b0 = 0xF0#8 then .busyOff
  else if b0.extractLsb' 4 4 = 0b1010#4 then .chipHeader
  else if b0.extractLsb' 4 4 = 0b1011#4 then .chipTrailer
  else if b0.extractLsb' 4 4 = 0b1110#4 then .emptyFrame
  else if b0.extractLsb' 5 3 = 0b110#3 then .regionHeader
  else if b0.extractLsb' 6 2 = 0b01#2 then .dataShort
  else if b0.extractLsb' 6 2 = 0b00#2 then .dataLong
  else .unknown

/-- The length in bytes of a word type (30_encoding.md R112). The table gives UNKNOWN none: it ends the decode before its
length is asked for; as an instruction it is its one byte. -/
def WordType.length : WordType → Nat
  | .idle => 1
  | .busyOn => 1
  | .busyOff => 1
  | .chipHeader => 2
  | .chipTrailer => 1
  | .emptyFrame => 2
  | .regionHeader => 1
  | .dataShort => 2
  | .dataLong => 3
  | .unknown => 1

/-- Chip id of a chip header or an empty frame: b0[3:0] (30_encoding.md R113, conflict C1). -/
def chipIdField (b0 : Byte) : BitVec 4 := b0.extractLsb' 0 4
/-- Flag nibble of a chip trailer: b0[3:0] (R113). -/
def trailerFlagsField (b0 : Byte) : BitVec 4 := b0.extractLsb' 0 4
/-- Region of a region header: b0[4:0] (R113). -/
def regionField (b0 : Byte) : BitVec 5 := b0.extractLsb' 0 5
/-- The 16-bit data field `D` with the first byte high (20_memory.md R65, 43_bitstream_decoder.md R231). -/
def dataField (b0 b1 : Byte) : BitVec 16 := (b0.setWidth 16 <<< 8) ||| b1.setWidth 16
/-- Local double column: D[13:10] (R231). -/
def localDcolField (b0 b1 : Byte) : BitVec 4 := (dataField b0 b1).extractLsb' 10 4
/-- Base address: D[9:0] (R231). -/
def addressField (b0 b1 : Byte) : BitVec 10 := (dataField b0 b1).extractLsb' 0 10
/-- Hit map: b2[6:0]; bit 7 is ignored (R113, R117). -/
def hitmapField (b2 : Byte) : BitVec 7 := b2.extractLsb' 0 7

/-- The row of the opcode table an UNKNOWN first byte belongs to (30_encoding.md R121: six rows cover the 45 bytes). -/
def unknownInstr (b0 : Byte) : Instr :=
  if Byte.fits b0 0xE0#8 0x80#8 then .unknown80_9F b0
  else if Byte.fits b0 0xFE#8 0xF2#8 then .unknownF2_F3 b0
  else if Byte.fits b0 0xFC#8 0xF4#8 then .unknownF4_F7 b0
  else if Byte.fits b0 0xFC#8 0xF8#8 then .unknownF8_FB b0
  else if Byte.fits b0 0xFE#8 0xFC#8 then .unknownFC_FD b0
  else .unknownFE b0

/-- The instruction of a whole chip word of type `t` with bytes b0, b1, b2 (bytes past the word's length are not
looked at). -/
def chipInstr (t : WordType) (b0 b1 b2 : Byte) : Instr :=
  match t with
  | .idle => .idle
  | .busyOn => .busyOn
  | .busyOff => .busyOff
  | .chipHeader => .chipHeader (chipIdField b0) b1
  | .chipTrailer => .chipTrailer (trailerFlagsField b0)
  | .emptyFrame => .emptyFrame (chipIdField b0) b1
  | .regionHeader => .regionHeader (regionField b0)
  | .dataShort => .dataShort (localDcolField b0 b1) (addressField b0 b1)
  | .dataLong => .dataLong (localDcolField b0 b1) (addressField b0 b1) (hitmapField b2)
  | .unknown => unknownInstr b0

/-- Why bytes hold no whole chip word. -/
inductive ChipReject where
  /-- No byte is left: the payload is at its end (R221). -/
  | endOfPayload
  /-- The word's length runs past the last byte (R222). -/
  | outOfData (b0 : Byte)
  deriving DecidableEq, Repr

/-- The next chip word of a byte list and the bytes after it: the type from b0 alone (R114), then the length
check (R222), then the fields. -/
def decodeChipBytes : List Byte → Except ChipReject (Instr × List Byte)
  | [] => .error .endOfPayload
  | b0 :: rest =>
    let t := classify b0
    if rest.length + 1 < t.length then .error (.outOfData b0)
    else .ok (chipInstr t b0 (rest.getD 0 0) (rest.getD 1 0), rest.drop (t.length - 1))

/-- Why bytes decode to no instruction. -/
inductive Reject where
  | header (why : HeaderReject)
  | chip (why : ChipReject)
  deriving DecidableEq, Repr

/-- The decoder, total on any bytes of either encoding space, rejecting by name. -/
def decode (space : CodeSpace) (bytes : List Byte) : Except Reject (Instr × List Byte) :=
  match space with
  | .header => match decodeHeaderBytes bytes with
    | .ok r => .ok r
    | .error e => .error (.header e)
  | .chip => match decodeChipBytes bytes with
    | .ok r => .ok r
    | .error e => .error (.chip e)

/-! ## The encoder -/

/-- First byte and second byte of a data word: `ld<<2 | a>>8` under the two type bits, then `a & 0xFF`
(30_encoding.md R120). -/
def dataBytes (typeBits : Byte) (ld : BitVec 4) (a : BitVec 10) : List Byte :=
  [typeBits ||| (ld.setWidth 8 <<< 2) ||| (a >>> 8).setWidth 8, a.setWidth 8]

/-- The bytes of an instruction in buffer order: a header word is four bytes, most significant first (R62, R91),
a chip word is the bytes of 30_encoding.md R120. A host command has no encoding (R121): none. -/
def encode : Instr → Option (List Byte)
  | .read n t c => some (beBytes (headerWord .read n t c))
  | .write n t c => some (beBytes (headerWord .write n t c))
  | .niRead n t c => some (beBytes (headerWord .niRead n t c))
  | .niWrite n t c => some (beBytes (headerWord .niWrite n t c))
  | .rmwBits n t c => some (beBytes (headerWord .rmwBits n t c))
  | .rmwSum n t c => some (beBytes (headerWord .rmwSum n t c))
  | .idleTxn n t c => some (beBytes (headerWord .idle n t c))
  | .idle => some [0xFF#8]
  | .busyOn => some [0xF1#8]
  | .busyOff => some [0xF0#8]
  | .chipHeader c bc => some [0xA0#8 ||| c.setWidth 8, bc]
  | .chipTrailer f => some [0xB0#8 ||| f.setWidth 8]
  | .emptyFrame c bc => some [0xE0#8 ||| c.setWidth 8, bc]
  | .regionHeader r => some [0xC0#8 ||| r.setWidth 8]
  | .dataShort ld a => some (dataBytes 0x40#8 ld a)
  | .dataLong ld a hm => some (dataBytes 0x00#8 ld a ++ [hm.setWidth 8])
  | .unknown80_9F b0 => some [b0]
  | .unknownF2_F3 b0 => some [b0]
  | .unknownF4_F7 b0 => some [b0]
  | .unknownF8_FB b0 => some [b0]
  | .unknownFC_FD b0 => some [b0]
  | .unknownFE b0 => some [b0]
  | .queue _ _ _ _ _ => none
  | .execute => none
  | .encodeHeader _ _ _ => none
  | .decodeHeader _ => none
  | .decodeFrameNet _ => none
  | .decodeFrameUsb _ _ _ => none
  | .decodeChipStream _ _ _ => none
  | .decodeEvent _ _ _ _ => none
  | .reset => none

/-- The encoding space of an instruction that has an encoding; none for a host command. -/
def Instr.space : Instr → Option CodeSpace
  | .read _ _ _ => some .header
  | .write _ _ _ => some .header
  | .niRead _ _ _ => some .header
  | .niWrite _ _ _ => some .header
  | .rmwBits _ _ _ => some .header
  | .rmwSum _ _ _ => some .header
  | .idleTxn _ _ _ => some .header
  | .idle => some .chip
  | .busyOn => some .chip
  | .busyOff => some .chip
  | .chipHeader _ _ => some .chip
  | .chipTrailer _ => some .chip
  | .emptyFrame _ _ => some .chip
  | .regionHeader _ => some .chip
  | .dataShort _ _ => some .chip
  | .dataLong _ _ _ => some .chip
  | .unknown80_9F _ => some .chip
  | .unknownF2_F3 _ => some .chip
  | .unknownF4_F7 _ => some .chip
  | .unknownF8_FB _ => some .chip
  | .unknownFC_FD _ => some .chip
  | .unknownFE _ => some .chip
  | .queue _ _ _ _ _ => none
  | .execute => none
  | .encodeHeader _ _ _ => none
  | .decodeHeader _ => none
  | .decodeFrameNet _ => none
  | .decodeFrameUsb _ _ _ => none
  | .decodeChipStream _ _ _ => none
  | .decodeEvent _ _ _ _ => none
  | .reset => none

/-! ## Words as the opcode table numbers them -/

/-- The table writes a header word in 32 bits and a chip word in 8: more than three bytes mean the header space. -/
def tableSpace (nbits : Nat) : CodeSpace := if 24 < nbits then .header else .chip

/-- The bytes of a table word in buffer order: the header's one word big-endian (R62); a chip word's first byte
from bits 7..0, the next from bits 15..8, then 23..16, zeros above `nbits`. -/
def tableBytes (nbits w : Nat) : List Byte :=
  match tableSpace nbits with
  | .header => beBytes (BitVec.ofNat 32 w)
  | .chip => [BitVec.ofNat 8 w, BitVec.ofNat 8 (w >>> 8), BitVec.ofNat 8 (w >>> 16)]

/-- The instruction the decoder reads from a word numbered as spec/opcode_table.json numbers it. -/
def decodeTableWord (nbits w : Nat) : Option Instr :=
  match decode (tableSpace nbits) (tableBytes nbits w) with
  | .ok (i, _) => some i
  | .error _ => none

end Sys2Proof
end

