-- ==== Sys2Proof/Machine/State.lean ====
section
/-! DEFINITION. The state of the block, its result records, faults and refusals, and the state after reset. -/

namespace Sys2Proof.Machine

/-! ## Engine -/

/-- The state of a TransactionRecord (10_state.md R32). -/
inductive TxnState where
  | pending
  | resolved
  | failed
  deriving DecidableEq, Repr, Inhabited

/-- A TransactionRecord (10_state.md R32). -/
structure TxnRecord where
  wordCount : BitVec 12
  opKind : OpKind
  txnId : Byte
  addr : Word
  wdata : List Word
  slot : Option Nat
  infoCode : Option (BitVec 4)
  state : TxnState
  deriving DecidableEq, Repr, Inhabited

/-- A checked operation that has no transaction id yet (41_transport_engine.md R148: after the operand check, before R146). -/
structure QueueOp where
  opKind : OpKind
  wordCount : BitVec 12
  addr : Word
  wdata : List Word
  slot : Option Nat
  deriving DecidableEq, Repr, Inhabited

/-! ## Hits and the decoder -/

/-- QualityFlag, numbered 0..6 in this order (10_state.md R50). -/
inductive QualityFlag where
  | ok
  | badChipId
  | badRegionId
  | badDcolId
  | badAddress
  | stuck
  | unknown
  deriving DecidableEq, Repr, Inhabited

/-- A PixelHit (10_state.md R49). -/
structure PixelHit where
  boardIndex : Nat
  rcvIndex : Nat
  chipId : BitVec 4
  region : Option (BitVec 5)
  dcol : Option (BitVec 9)
  address : BitVec 11
  flag : QualityFlag
  deriving DecidableEq, Repr, Inhabited

/-- What PREV holds of the last hit emitted (10_state.md R45). -/
structure PrevHit where
  region : Option (BitVec 5)
  dcol : Option (BitVec 9)
  address : BitVec 11
  deriving DecidableEq, Repr, Inhabited

/-- The DecoderState (10_state.md R37 to R48). -/
structure DecoderState where
  cursor : Nat
  started : Bool
  finished : Bool
  corrupt : Bool
  chip : Option (BitVec 4)
  region : Option (BitVec 5)
  newEvent : Bool
  prev : Option PrevHit
  prioErrors : Nat
  bunch : Option (BitVec 8)
  trlFlags : Option (BitVec 4)
  deriving DecidableEq, Repr, Inhabited

/-- The DecoderState every decode starts from (10_state.md R54). -/
def DecoderState.initial : DecoderState where
  cursor := 0
  started := false
  finished := false
  corrupt := false
  chip := none
  region := none
  newEvent := false
  prev := none
  prioErrors := 0
  bunch := none
  trlFlags := none

/-- The verdict of one decode (43_bitstream_decoder.md R240 to R242). `c` is the offset of the offending word. -/
inductive Verdict where
  | success
  | unknownWord (c : Nat) (b0 : Byte)
  | outOfData (c : Nat) (b0 : Byte)
  | trailerBeforeHeader (c : Nat)
  | trailerAfterFinished (c : Nat)
  | regionBeforeHeader (c : Nat)
  | dataBeforeHeader (c : Nat)
  | unfinished
  | notStarted
  | corrupt
  deriving DecidableEq, Repr, Inhabited

/-- The record DECODE_CHIP_STREAM returns (43_bitstream_decoder.md R243). -/
structure StreamRecord where
  success : Bool
  verdict : Verdict
  cursor : Nat
  started : Bool
  finished : Bool
  corrupt : Bool
  prioErrors : Nat
  chip : Option (BitVec 4)
  bunch : Option (BitVec 8)
  trlFlags : Option (BitVec 4)
  deriving DecidableEq, Repr, Inhabited

/-! ## Frames -/

/-- BoardFrameInfo of the network family (10_state.md R35). -/
structure NetInfo where
  headerBytes : Nat
  trailerBytes : Nat
  blockFlags : Word
  overflow : Bool
  timeout : Bool
  endOfRun : Bool
  channel : Word
  trailerByte : Byte
  headerError : Bool
  linkDecoderError : Bool
  deriving DecidableEq, Repr, Inhabited

/-- BoardFrameInfo of the USB family (10_state.md R36). -/
structure UsbInfo where
  headerWords : Nat
  headerBytes : Nat
  trailerBytes : Nat
  almostFull : Option Bool
  trigType : Option (BitVec 3)
  bufferDepth : Option (BitVec 4)
  eventId : BitVec 48
  timestamp : BitVec 48
  strobeCount : Option Word
  chipBusyCount : Option Word
  daqBusyCount : Option Word
  extTriggerCount : Option Word
  triggerBusyCount : Option Nat
  eventSize : Word
  trailerMarker : Word
  deriving DecidableEq, Repr, Inhabited

/-- BoardFrameInfo of either family. -/
inductive FrameInfo where
  | net (info : NetInfo)
  | usb (info : UsbInfo)
  deriving DecidableEq, Repr, Inhabited

/-! ## Results -/

/-- The typed errors of 60_exceptions.md R291 (codes 1 to 38) with the info the table records. -/
inductive Error where
  | invalidOperation (operand : Nat)
  | capacityExceeded (requestBytes replyBytes : Nat)
  | transportTimeout
  | shortReply (at_ : Nat)
  | versionMismatch (w : Word)
  | idMismatch (w : Word)
  | opKindMismatch (w : Word)
  | badHeader (w : Word)
  | busErrorRead (w : Word)
  | busErrorWrite (w : Word)
  | busTimeoutRead (w : Word)
  | busTimeoutWrite (w : Word)
  | txBufferOverflow (w : Word)
  | rxBufferUnderflow (w : Word)
  | unexpectedInfoCode (w : Word)
  | wordCountMismatch (w : Word)
  | truncated (len : Nat)
  | netTrailerError (t : Byte) (info : NetInfo)
  | usbHeaderWord0 (h0 : Word) (info : UsbInfo)
  | usbHeaderTopByte (k : Nat) (hk : Word) (info : UsbInfo)
  | usbTriggerType (h0 : Word) (info : UsbInfo)
  | usbTrailerMarker (t1 : Word) (info : UsbInfo)
  /-- A chip-stream verdict other than SUCCESS, with the record of R243 (60_exceptions.md R293). -/
  | chipStream (verdict : Verdict) (record : StreamRecord)
  deriving DecidableEq, Repr, Inhabited

/-- The values a command returns with OK. -/
inductive OkValue where
  /-- OK() of EXECUTE and RESET. -/
  | unit
  /-- OK(r.txn_id) of QUEUE (R148). -/
  | txnId (id : Byte)
  /-- OK(word) of ENCODE_HEADER (R130). -/
  | header (w : Word)
  /-- OK(fields) of DECODE_HEADER (R131). -/
  | fields (h : HeaderFields)
  /-- OK(info, payload = [lo, hi)) of DECODE_FRAME_NET and DECODE_FRAME_USB (R187, R199). -/
  | frame (info : FrameInfo) (lo hi : Nat)
  /-- The record of a successful DECODE_CHIP_STREAM or DECODE_EVENT (R243, R245). -/
  | stream (record : StreamRecord)
  deriving DecidableEq, Repr, Inhabited

/-- The two outcomes that RSP carries (00_scope.md R13). The third, Refused, is the step's own outcome `refused`. -/
inductive Response where
  | ok (v : OkValue)
  | error (e : Error)
  deriving DecidableEq, Repr, Inhabited

/-- One message on RSP, with the caller it goes to (00_scope.md R7). -/
structure Rsp where
  caller : Nat
  response : Response
  deriving DecidableEq, Repr, Inhabited

/-- One message on EVT (00_scope.md R7, 43_bitstream_decoder.md R245). -/
structure Evt where
  success : Bool
  frameError : Option Error
  info : Option FrameInfo
  decoder : Option StreamRecord
  deriving DecidableEq, Repr, Inhabited

/-- One command on CMD, with the caller that issued it (00_scope.md R7). -/
structure Cmd where
  caller : Nat
  instr : Instr
  deriving DecidableEq, Repr

/-! ## The state -/

/-- OUTBUF as a byte space: address and byte pairs, addresses strictly rising, no entry equal to what an
unlisted address reads as (log entry 9). -/
abbrev Memory := List Host.Cell

/-- The callers' SLOTs: slot name and words, names strictly rising, no empty entry (log entry 10). -/
abbrev Slots := List (Nat × List Word)

/-- Which kind of word the next step takes: a command from CMD, a chip word of the payload at CURSOR, or a reply
header of INBUF. Between two commands it is always `command` (R6, R75); the other two run the words of a DECODE or
of a FLUSH one by one (log entry 2). -/
inductive Activity where
  | command
  | stream
  | reply
  deriving DecidableEq, Repr, Inhabited

/-- Everything the spec gives the block (10_state.md), its ports (00_scope.md R7) and the model's own bookkeeping. -/
structure State where
  /-- The parameters of 00_scope.md R8; no step writes them (R324; log entry 3). -/
  params : Params
  -- transport_engine, 10_state.md section 2
  /-- NEXT_ID (R22). -/
  nextId : Byte
  /-- LAST_ID (R23). -/
  lastId : Byte
  /-- LAST_VALID (R24). -/
  lastValid : Bool
  /-- BATCH (R25). -/
  batch : List TxnRecord
  /-- OUT_LEN (R26). -/
  outLen : Nat
  /-- IN_LEN (R27). -/
  inLen : Nat
  /-- OUTBUF (R28). -/
  outbuf : Memory
  /-- INBUF (R29). -/
  inbuf : List Byte
  -- the FLUSH in progress, 41_transport_engine.md R150 to R155
  /-- The index in BATCH of the record whose reply is checked next (R152: "for each record rec of BATCH, in order"). -/
  recIdx : Nat
  /-- The word index `p` of R150 to R155. -/
  wordPos : Nat
  /-- The operation a QUEUE goes on with after its automatic flush (R144). -/
  resume : Option QueueOp
  -- bitstream_decoder, 10_state.md section 5
  /-- The DecoderState (R37). -/
  decoder : DecoderState
  /-- The chip payload `P` of the decode (20_memory.md R60). -/
  payload : List Byte
  /-- Operands bi and ri of the decode (R234). -/
  boardIndex : Nat
  rcvIndex : Nat
  /-- The frame of the DECODE_EVENT the decode belongs to, if it belongs to one (R245). -/
  event : Option FrameInfo
  -- ports, 00_scope.md R7
  /-- CMD: the commands issued, in the order in which they take effect (20_memory.md R78). -/
  cmd : List Cmd
  /-- The caller whose command is served. -/
  caller : Nat
  /-- RSP: everything sent so far, oldest first; the other output ports likewise (log entry 12). -/
  rsp : List Rsp
  /-- SLOT: the callers' slots (R60). -/
  slots : Slots
  /-- DGRAM_TX. -/
  tx : List (List Byte)
  /-- DGRAM_RX: what the environment delivers, in order (R150). -/
  rx : List Delivery
  /-- HIT. -/
  hits : List PixelHit
  /-- EVT. -/
  evts : List Evt
  -- the model's own
  /-- Which kind of word comes next (log entry 2). -/
  activity : Activity
  /-- The draw counter of the free values (log entries 7 and 8). -/
  draws : Nat
  deriving DecidableEq, Repr

/-- Why the machine stops with a fault. -/
inductive Fault where
  /-- Raised by the step when CMD holds something that is not one of the nine host commands of 00_scope.md R7. Safe:
  no caller can put such a thing on CMD, and nothing is claimed after it (log entry 13). -/
  | notACommand (i : Instr)
  /-- Raised by the step when a command on CMD names a caller that is not one of the N_HOSTS callers (00_scope.md R7, R8;
  callers are numbered from 0). Safe: no such caller exists, and nothing is claimed after it (log entry 16). -/
  | noSuchCaller (caller : Nat)
  deriving DecidableEq, Repr

/-- Why the machine refuses. -/
inductive Refusal where
  /-- Raised by exec for an instruction without a meaning. Safe: nothing is claimed after it. -/
  | notModelled (mnemonic : String)
  /-- Raised by DECODE_FRAME_USB and DECODE_EVENT when USB_HDR_WORDS is undefined for (fw, ht): refusal 40 of
  60_exceptions.md R291, demanded by R188 and R295. Safe. -/
  | unknownHeaderLayout (fw ht : Nat)
  /-- Raised by DECODE_FRAME_USB and DECODE_EVENT when USB_LEGACY3_DECODE is undefined for fw: refusal 41 of
  60_exceptions.md R291, demanded by R193 and R295. Safe. -/
  | legacy3Undefined (fw : Nat)
  deriving DecidableEq, Repr

/-- The block right after reset in a run with parameters `p`, the argument of the model (00_scope.md R8; 10_state.md R53,
70_reset_and_hazards.md R320, R321, R324): the engine registers at their reset values, no command issued, nothing sent or
delivered. LAST_ID, which the spec leaves unspecified, is 0 (log entry 8);
the decoder is at the values a decode starts from (R54; log entry 14). -/
def State.resetFor (p : Params) : State where
  params := p
  nextId := p.resetTxid
  lastId := 0#8
  lastValid := false
  batch := []
  outLen := 0
  inLen := 0
  outbuf := []
  inbuf := []
  recIdx := 0
  wordPos := 0
  resume := none
  decoder := DecoderState.initial
  payload := []
  boardIndex := 0
  rcvIndex := 0
  event := none
  cmd := []
  caller := 0
  rsp := []
  slots := []
  tx := []
  rx := []
  hits := []
  evts := []
  activity := .command
  draws := 0

/-- The block right after reset, with the defaults of 00_scope.md R8; the parameters that R8 gives no default for are the
uninterpreted constants of Config, so that a proof about it holds for every value of them (log entries 4, 5 and 16). -/
def State.reset : State :=
  State.resetFor (Params.given Config.nHosts Config.usbHdrWords Config.legacy3Fw)

end Sys2Proof.Machine
end

