-- ==== Sys2Proof/Machine/Operands.lean ====
section
/-! DEFINITION. Operand forms: the bytes and words of the frame buffers, the words of request and reply transactions, and
the fields of data words. -/

namespace Sys2Proof.Machine

/-! ## Reading an input buffer -/

/-- `Byte(buf, i)` (00_scope.md R11). Every rule checks the length first (20_memory.md R72), so the value past the end is
never looked at. -/
def byteAt (buf : List Byte) (i : Nat) : Byte := buf.getD i 0#8

/-- `LE32(buf, i)` (00_scope.md R11). -/
def le32At (buf : List Byte) (i : Nat) : Word :=
  le32 (byteAt buf i) (byteAt buf (i + 1)) (byteAt buf (i + 2)) (byteAt buf (i + 3))

/-- `BE32(buf, i)` (00_scope.md R11). -/
def be32At (buf : List Byte) (i : Nat) : Word :=
  be32 (byteAt buf i) (byteAt buf (i + 1)) (byteAt buf (i + 2)) (byteAt buf (i + 3))

/-- `NETWORD(buf, i)` (42_board_frame_parser.md R182). -/
def netWord (order : ByteOrder) (buf : List Byte) (i : Nat) : Word :=
  match order with
  | .little => le32At buf i
  | .big => be32At buf i

/-- `W`: the big-endian words of a reply whose length is a multiple of 4 (41_transport_engine.md R150). -/
def replyWords : List Byte → List Word
  | b0 :: b1 :: b2 :: b3 :: rest => be32 b0 b1 b2 b3 :: replyWords rest
  | _ => []

/-! ## Transactions -/

/-- `REQ(r)` in words (41_transport_engine.md R140). -/
def reqWords (k : OpKind) (n : Nat) : Nat :=
  match k with
  | .read => 2
  | .niRead => 2
  | .write => 2 + n
  | .niWrite => 2 + n
  | .rmwBits => 4
  | .rmwSum => 3
  | .idle => 1

/-- `DATA(r)`: data words in the reply (41_transport_engine.md R140). -/
def dataWords (k : OpKind) (n : Nat) : Nat :=
  match k with
  | .read => n
  | .niRead => n
  | .write => 0
  | .niWrite => 0
  | .rmwBits => 1
  | .rmwSum => 1
  | .idle => 0

/-- `RSP(r)` in words (41_transport_engine.md R140). -/
def rspWords (k : OpKind) (n : Nat) : Nat :=
  match k with
  | .read => 1 + n
  | .niRead => 1 + n
  | .write => 1
  | .niWrite => 1
  | .rmwBits => 2
  | .rmwSum => 2
  | .idle => 1

/-- How many write words an operation carries (10_state.md R32). -/
def wdataWords (k : OpKind) (n : Nat) : Nat :=
  match k with
  | .read => 0
  | .niRead => 0
  | .write => n
  | .niWrite => n
  | .rmwBits => 2
  | .rmwSum => 1
  | .idle => 0

/-- Whether the caller's word count is used: READ, NI_READ, WRITE and NI_WRITE (30_encoding.md R102). -/
def usesCount (k : OpKind) : Bool :=
  match k with
  | .read => true
  | .niRead => true
  | .write => true
  | .niWrite => true
  | .rmwBits => false
  | .rmwSum => false
  | .idle => false

/-- The word count a record carries (30_encoding.md R102): the caller's n, or 1 for the read-modify-writes, or 0 for IDLE. -/
def recordCount (k : OpKind) (n : Nat) : BitVec 12 :=
  match k with
  | .read => BitVec.ofNat 12 n
  | .niRead => BitVec.ofNat 12 n
  | .write => BitVec.ofNat 12 n
  | .niWrite => BitVec.ofNat 12 n
  | .rmwBits => 1#12
  | .rmwSum => 1#12
  | .idle => 0#12

/-- The header word of a request: PACK(PROTO_VERSION, word_count, txn_id, op_kind, REQUEST) (40_transport_codec.md R130). -/
def requestHeader (k : OpKind) (wordCount : BitVec 12) (txnId : Byte) : Word :=
  headerWord k wordCount txnId Config.infoRequest

/-- The request words of a record (30_encoding.md R100). -/
def requestWords (r : TxnRecord) : List Word :=
  let hdr := requestHeader r.opKind r.wordCount r.txnId
  match r.opKind with
  | .read => [hdr, r.addr]
  | .niRead => [hdr, r.addr]
  | .write => hdr :: r.addr :: r.wdata
  | .niWrite => hdr :: r.addr :: r.wdata
  | .rmwBits => hdr :: r.addr :: r.wdata
  | .rmwSum => hdr :: r.addr :: r.wdata
  | .idle => [hdr]

/-- The bytes of the request words, each word big-endian (20_memory.md R62). -/
def requestBytes (r : TxnRecord) : List Byte := (requestWords r).flatMap beBytes

/-- `REQ` and `RSP` of a record, in words. -/
def TxnRecord.req (r : TxnRecord) : Nat := reqWords r.opKind r.wordCount.toNat
def TxnRecord.rsp (r : TxnRecord) : Nat := rspWords r.opKind r.wordCount.toNat
def TxnRecord.data (r : TxnRecord) : Nat := dataWords r.opKind r.wordCount.toNat

/-- `REQ` and `RSP` of an operation that is about to be queued, in words. -/
def QueueOp.req (q : QueueOp) : Nat := reqWords q.opKind q.wordCount.toNat
def QueueOp.rsp (q : QueueOp) : Nat := rspWords q.opKind q.wordCount.toNat

/-- The record of a queued operation (41_transport_engine.md R147: info_code NONE, state PENDING). -/
def QueueOp.record (q : QueueOp) (id : Byte) : TxnRecord where
  wordCount := q.wordCount
  opKind := q.opKind
  txnId := id
  addr := q.addr
  wdata := q.wdata
  slot := q.slot
  infoCode := none
  state := .pending

/-- The operand check of QUEUE (41_transport_engine.md R141), in the order the rule lists the three conditions; the info is
the offending operand, for a wrong number of write words that number (log entry 15). -/
def checkOperands (op : BitVec 4) (n : Nat) (addr : Word) (wdata : List Word) (slot : Option Nat) : Except Error QueueOp :=
  match OpKind.ofCode op with
  | none => .error (.invalidOperation op.toNat)
  | some k =>
    if usesCount k = true ∧ n > Config.maxWordCount then .error (.invalidOperation n)
    else if wdata.length ≠ wdataWords k n then .error (.invalidOperation wdata.length)
    else .ok ⟨k, recordCount k n, addr, wdata, slot⟩

/-! ## Data words -/

/-- The global double-column id: REGION*16 + ld, or NONE (43_bitstream_decoder.md R232). -/
def globalDcol (region : Option (BitVec 5)) (ld : BitVec 4) : Option (BitVec 9) :=
  match region with
  | none => none
  | some r => some (r.setWidth 9 * 16#9 + ld.setWidth 9)

/-- The addresses of a DATA_LONG word in emission order: the base, then base + i + 1 for each set bit i of the hit map,
i ascending (43_bitstream_decoder.md R237, R238). -/
def clusterAddresses (a : BitVec 10) (hm : BitVec 7) : List (BitVec 11) :=
  a.setWidth 11 ::
    ((List.range 7).filter (fun i => hm.getLsbD i)).map (fun i => a.setWidth 11 + BitVec.ofNat 11 (i + 1))

end Sys2Proof.Machine
end

