-- ==== Sys2Proof/Machine/Ops.lean ====
section
/-! DEFINITION. The named operations over the byte space OUTBUF, the slots and the ports; raising an error, which is what
taking an exception is on this block (60_exceptions.md R290, R298), and ending a command. -/

namespace Sys2Proof.Machine

/-! ## OUTBUF -/

/-- What a byte of OUTBUF that is not listed reads as (log entry 9). -/
def Memory.unlisted : Byte := 0#8

/-- The canonical form: addresses strictly rising, no entry equal to what an unlisted address reads as. -/
abbrev Memory.wf (m : Memory) : Prop :=
  m.Pairwise (fun x y => x.1 < y.1) ∧ ∀ c ∈ m, c.2 ≠ Memory.unlisted

/-- `MemRead(addr, 1)` (00_scope.md R11). -/
def Memory.read : Memory → Nat → Byte
  | [], _ => Memory.unlisted
  | (k, v) :: rest, a => if a = k then v else Memory.read rest a

/-- The cell at `a` put in front of a list, unless it holds the unlisted value. -/
def Memory.cons (a : Nat) (b : Byte) (m : Memory) : Memory :=
  if b = Memory.unlisted then m else (a, b) :: m

/-- `MemWrite(addr, 1, b)` (00_scope.md R11). -/
def Memory.write : Memory → Nat → Byte → Memory
  | [], a, b => Memory.cons a b []
  | (k, v) :: rest, a, b =>
    if a < k then Memory.cons a b ((k, v) :: rest)
    else if a = k then Memory.cons a b rest
    else (k, v) :: Memory.write rest a b

/-- `MemWrite` of several bytes at rising addresses from `a`. -/
def Memory.writeBytes (m : Memory) (a : Nat) : List Byte → Memory
  | [] => m
  | b :: bs => Memory.writeBytes (Memory.write m a b) (a + 1) bs

/-- `MemRead` of `n` bytes at rising addresses from `a`. -/
def Memory.readBytes (m : Memory) (a : Nat) : Nat → List Byte
  | 0 => []
  | n + 1 => Memory.read m a :: Memory.readBytes m (a + 1) n

/-! ## SLOT -/

/-- The canonical form of the slots: names strictly rising, no empty entry. -/
abbrev Slots.wf (sl : Slots) : Prop :=
  sl.Pairwise (fun x y => x.1 < y.1) ∧ ∀ c ∈ sl, c.2 ≠ []

/-- What slot `name` holds; an unlisted slot holds no words (log entry 10). -/
def Slots.read : Slots → Nat → List Word
  | [], _ => []
  | (k, v) :: rest, name => if name = k then v else Slots.read rest name

/-- The entry put in front of a list, unless it is empty. -/
def Slots.cons (name : Nat) (ws : List Word) (sl : Slots) : Slots :=
  if ws = [] then sl else (name, ws) :: sl

/-- `SLOT[name] <- words` (00_scope.md R11). -/
def Slots.write : Slots → Nat → List Word → Slots
  | [], name, ws => Slots.cons name ws []
  | (k, v) :: rest, name, ws =>
    if name < k then Slots.cons name ws ((k, v) :: rest)
    else if name = k then Slots.cons name ws rest
    else (k, v) :: Slots.write rest name ws

/-- The data of one reply: written into the record's slot when there are data words and the record has a slot,
discarded otherwise (41_transport_engine.md R155). -/
def Slots.store (sl : Slots) (slot : Option Nat) (data : List Word) : Slots :=
  match slot with
  | none => sl
  | some name => if data = [] then sl else Slots.write sl name data

/-! ## Ports -/

/-- A message on RSP to the caller whose command is served (00_scope.md R7, 60_exceptions.md R300). -/
def respond (r : Response) (s : State) : State :=
  { s with rsp := s.rsp ++ [⟨s.caller, r⟩] }

/-- `raise E(info)`: the ONE way an error is taken (00_scope.md R11, 60_exceptions.md R290, R298). The command ends with
the typed error on RSP; nothing is saved and everything written before stays written. There is no return from it
(R299): the next command starts normally. -/
def raise (e : Error) (s : State) : State := respond (.error e) s

/-- `return OK(values)` (00_scope.md R11). -/
def returnOk (v : OkValue) (s : State) : State := respond (.ok v) s

/-- `emit HIT(h)` for each hit, in order (00_scope.md R11, 20_memory.md R80). -/
def emitHits (hs : List PixelHit) (s : State) : State :=
  { s with hits := s.hits ++ hs }

/-- `send EVT` (43_bitstream_decoder.md R245). -/
def sendEvt (e : Evt) (s : State) : State :=
  { s with evts := s.evts ++ [e] }

/-- `send DGRAM_TX(OUTBUF[0 .. OUT_LEN-1])` (41_transport_engine.md R150). -/
def sendBatch (s : State) : State :=
  { s with tx := s.tx ++ [Memory.readBytes s.outbuf 0 s.outLen] }

/-- `receive DGRAM_RX` (41_transport_engine.md R150): what is delivered. With nothing placed on the port it is a
free value (log entry 7). -/
def received (s : State) : Delivery :=
  match s.rx with
  | d :: _ => d
  | [] => Config.freeDelivery s.draws

/-- The state after one receive: one delivery is consumed (20_memory.md R74), or one free value drawn. -/
def afterReceive (s : State) : State :=
  match s.rx with
  | _ :: rest => { s with rx := rest }
  | [] => { s with draws := s.draws + 1 }

end Sys2Proof.Machine
end

