-- ==== Sys2Proof/Machine/Codec.lean ====
section
/-! DEFINITION. The transport_codec commands ENCODE_HEADER and DECODE_HEADER (40_transport_codec.md). -/

namespace Sys2Proof.Machine

/-- The header word of ENCODE_HEADER or the error it raises (40_transport_codec.md R130), the checks in the rule's order. -/
def encodedHeader (wordCount : Nat) (op : BitVec 4) (txnId : Nat) : Except Error Word :=
  if wordCount > Config.maxWordCount then .error (.invalidOperation wordCount)
  else match OpKind.ofCode op with
    | none => .error (.invalidOperation op.toNat)
    | some k =>
      if txnId > 0xFF then .error (.invalidOperation txnId)
      else .ok (requestHeader k (BitVec.ofNat 12 wordCount) (BitVec.ofNat 8 txnId))

/-- ENCODE_HEADER (40_transport_codec.md R130). -/
def execEncodeHeader (wordCount : Nat) (op : BitVec 4) (txnId : Nat) (s : State) : Host.Outcome State Fault Refusal :=
  match encodedHeader wordCount op txnId with
  | .error e => .next (raise e s)
  | .ok w => .next (returnOk (.header w) s)

/-- DECODE_HEADER (40_transport_codec.md R131). -/
def execDecodeHeader (w : Word) (s : State) : Host.Outcome State Fault Refusal :=
  .next (returnOk (.fields (unpackHeader w)) s)

end Sys2Proof.Machine
end

