-- ==== Sys2Proof/Machine/Flags.lean ====
section
/-! DEFINITION. The flag computations of the block: the quality flag of a hit and the stuck check
(44_hit_quality_validator.md), the error of a reply's info code, and the verdict of a decode. -/

namespace Sys2Proof.Machine

/-- The hit has no legal chip id: CHIP is NONE or ILLEGAL_CHIP_ID (44_hit_quality_validator.md R262). -/
def badChip (chip : Option (BitVec 4)) : Bool :=
  match chip with
  | none => true
  | some c => c == Config.illegalChipId

/-- The region is NONE or above MAX_REGION (R263). -/
def badRegion (region : Option (BitVec 5)) : Bool :=
  match region with
  | none => true
  | some r => decide (r.toNat > Config.maxRegion)

/-- The double column is NONE or above MAX_DCOL (R264). -/
def badDcol (dcol : Option (BitVec 9)) : Bool :=
  match dcol with
  | none => true
  | some d => decide (d.toNat > Config.maxDcol)

/-- The address stored in a hit: 0 for an illegal chip, else as computed (R262, R265). -/
def storedAddress (chip : Option (BitVec 4)) (x : BitVec 11) : BitVec 11 :=
  if badChip chip then 0#11 else x

/-- The chip id stored in a hit: 0 for an illegal chip (R262). -/
def storedChip (chip : Option (BitVec 4)) : BitVec 4 :=
  if badChip chip then 0#4 else chip.getD 0#4

/-- The flag the bounds checks give, the first failing check winning (R261 to R265). -/
def boundsFlag (chip : Option (BitVec 4)) (region : Option (BitVec 5)) (dcol : Option (BitVec 9)) (x : BitVec 11) :
    QualityFlag :=
  if badChip chip then .badChipId
  else if badRegion region then .badRegionId
  else if badDcol dcol then .badDcolId
  else if (storedAddress chip x).toNat > Config.maxAddress then .badAddress
  else .ok

/-- The stuck condition against the hit emitted just before (R266), on the fields as stored. -/
def stuckCondition (d : DecoderState) (region : Option (BitVec 5)) (dcol : Option (BitVec 9)) (address : BitVec 11) : Bool :=
  match d.prev with
  | none => false
  | some p =>
    !d.newEvent && region.isSome && p.region == region && p.dcol == dcol && decide (p.address.toNat ≥ address.toNat)

/-- The hit VALIDATE_AND_EMIT builds (R269): STUCK only when no other flag is set. -/
def builtHit (bi ri : Nat) (chip : Option (BitVec 4)) (region : Option (BitVec 5)) (dcol : Option (BitVec 9))
    (x : BitVec 11) (d : DecoderState) : PixelHit where
  boardIndex := bi
  rcvIndex := ri
  chipId := storedChip chip
  region := region
  dcol := dcol
  address := storedAddress chip x
  flag :=
    if boundsFlag chip region dcol x = .ok ∧ stuckCondition d region dcol (storedAddress chip x) = true then .stuck
    else boundsFlag chip region dcol x

/-- The DecoderState after VALIDATE_AND_EMIT (R266 to R269). -/
def afterHit (chip : Option (BitVec 4)) (region : Option (BitVec 5)) (dcol : Option (BitVec 9)) (x : BitVec 11)
    (d : DecoderState) : DecoderState :=
  let address := storedAddress chip x
  let stuck := stuckCondition d region dcol address
  { d with
    prioErrors := if stuck then d.prioErrors + 1 else d.prioErrors
    corrupt := d.corrupt || stuck || boundsFlag chip region dcol x != .ok
    prev := some ⟨region, dcol, address⟩
    newEvent := false }

/-- VALIDATE_AND_EMIT for each address in turn (R269, 43_bitstream_decoder.md R233, R239): the DecoderState after all of
them, and the hits in emission order. -/
def validateAll (bi ri : Nat) (chip : Option (BitVec 4)) (region : Option (BitVec 5)) (dcol : Option (BitVec 9)) :
    List (BitVec 11) → DecoderState → DecoderState × List PixelHit
  | [], d => (d, [])
  | x :: xs, d =>
    let rest := validateAll bi ri chip region dcol xs (afterHit chip region dcol x d)
    (rest.1, builtHit bi ri chip region dcol x d :: rest.2)

/-- The error an info code raises in a reply; none for SUCCESS (41_transport_engine.md R154, 30_encoding.md R94, R95). -/
def infoError (code : BitVec 4) (w : Word) : Option Error :=
  if code = 0x0#4 then none
  else if code = 0x1#4 then some (.badHeader w)
  else if code = 0x2#4 then some (.busErrorRead w)
  else if code = 0x3#4 then some (.busErrorWrite w)
  else if code = 0x4#4 then some (.busTimeoutRead w)
  else if code = 0x5#4 then some (.busTimeoutWrite w)
  else if code = 0x6#4 then some (.txBufferOverflow w)
  else if code = 0x7#4 then some (.rxBufferUnderflow w)
  else some (.unexpectedInfoCode w)

/-- The verdict when the whole payload was read (43_bitstream_decoder.md R242). -/
def endVerdict (d : DecoderState) : Verdict :=
  if d.started && d.finished && !d.corrupt then .success
  else if d.started && !d.finished then .unfinished
  else if !d.started then .notStarted
  else .corrupt

/-- The number of an error in 60_exceptions.md R291: for models and tables only, on no port. -/
def Error.code : Error → Nat
  | .invalidOperation _ => 1
  | .capacityExceeded _ _ => 2
  | .transportTimeout => 3
  | .shortReply _ => 4
  | .versionMismatch _ => 5
  | .idMismatch _ => 6
  | .opKindMismatch _ => 7
  | .badHeader _ => 8
  | .busErrorRead _ => 9
  | .busErrorWrite _ => 10
  | .busTimeoutRead _ => 11
  | .busTimeoutWrite _ => 12
  | .txBufferOverflow _ => 13
  | .rxBufferUnderflow _ => 14
  | .unexpectedInfoCode _ => 15
  | .wordCountMismatch _ => 16
  | .truncated _ => 20
  | .netTrailerError _ _ => 21
  | .usbHeaderWord0 _ _ => 22
  | .usbHeaderTopByte _ _ _ => 23
  | .usbTriggerType _ _ => 24
  | .usbTrailerMarker _ _ => 25
  | .chipStream v _ => match v with
    | .success => 0
    | .unknownWord _ _ => 30
    | .outOfData _ _ => 31
    | .trailerBeforeHeader _ => 32
    | .trailerAfterFinished _ => 33
    | .regionBeforeHeader _ => 34
    | .dataBeforeHeader _ => 35
    | .unfinished => 36
    | .notStarted => 37
    | .corrupt => 38

/-- QualityFlag's numbers (10_state.md R50). -/
def QualityFlag.code : QualityFlag → Nat
  | .ok => 0
  | .badChipId => 1
  | .badRegionId => 2
  | .badDcolId => 3
  | .badAddress => 4
  | .stuck => 5
  | .unknown => 6

end Sys2Proof.Machine
end

