-- ==== Sys2Proof/Machine/Engine.lean ====
section
/-! DEFINITION. The transport_engine (41_transport_engine.md): the seven transaction header words as reply headers, FLUSH,
and the commands QUEUE, EXECUTE and RESET (70_reset_and_hazards.md). -/

namespace Sys2Proof.Machine

/-! ## Queueing -/

/-- An operation that cannot fit even in an empty packet (41_transport_engine.md R142). -/
def tooLarge (p : Params) (q : QueueOp) : Bool :=
  decide (4 * (Config.pktHdrWords + q.req) > p.packetBudget) || decide (4 * (Config.pktHdrWords + q.rsp) > p.packetBudget)

/-- An operation that would overflow the pending batch (41_transport_engine.md R143). -/
def wouldOverflow (s : State) (q : QueueOp) : Bool :=
  !s.batch.isEmpty &&
    (decide (s.outLen + 4 * q.req > s.params.packetBudget) || decide (s.inLen + 4 * q.rsp > s.params.packetBudget))

/-- The id QUEUE gives the next record, with the bump of a new batch's first id (41_transport_engine.md R146). -/
def assignedId (s : State) : Byte :=
  if s.batch.isEmpty = true ∧ s.lastValid = true ∧ s.nextId = s.lastId then s.nextId + 1#8 else s.nextId

/-- OUT_LEN and IN_LEN as the append starts from them: the packet header alone for an empty batch (41_transport_engine.md R147). -/
def openOutLen (s : State) : Nat := if s.batch.isEmpty then 4 * Config.pktHdrWords else s.outLen
def openInLen (s : State) : Nat := if s.batch.isEmpty then 4 * Config.pktHdrWords else s.inLen

/-- The id assignment and the append of a record (41_transport_engine.md R146, R147). -/
def appendOp (q : QueueOp) (s : State) : State :=
  let r := q.record (assignedId s)
  { s with
    nextId := assignedId s + 1#8
    batch := s.batch ++ [r]
    outLen := openOutLen s + 4 * r.req
    inLen := openInLen s + 4 * r.rsp
    outbuf := Memory.writeBytes s.outbuf (openOutLen s) (requestBytes r) }

/-- The end of a QUEUE whose operation is accepted: append and `return OK(r.txn_id)` (41_transport_engine.md R148). -/
def acceptOp (q : QueueOp) (s : State) : State :=
  returnOk (.txnId (assignedId s)) (appendOp q s)

/-! ## Checking a reply -/

/-- The checks of one reply header `w` against its record: version, id, op kind, info code, word count, in this order
(41_transport_engine.md R152 to R155). -/
def headerError (w : Word) (r : TxnRecord) : Option Error :=
  let h := unpackHeader w
  if h.version ≠ Config.protoVersion then some (.versionMismatch w)
  else if h.txnId ≠ r.txnId then some (.idMismatch w)
  else if h.opKind ≠ r.opKind.code then some (.opKindMismatch w)
  else match infoError h.infoCode w with
    | some e => some e
    | none => if h.wordCount ≠ r.wordCount then some (.wordCountMismatch w) else none

/-- The reply of one record whose header is `w` at word `p` of `ws`: its data words, or the error
(41_transport_engine.md R152 to R155). -/
def recordReplyAt (w : Word) (ws : List Word) (p : Nat) (r : TxnRecord) : Except Error (List Word) :=
  match headerError w r with
  | some e => .error e
  | none =>
    if p + 1 + r.data > ws.length then .error (.shortReply (4 * (p + 1 + r.data)))
    else .ok ((ws.drop (p + 1)).take r.data)

/-- The reply of one record at word `p` of `ws`, the missing header included (41_transport_engine.md R152 to R155). -/
def recordReply (ws : List Word) (p : Nat) (r : TxnRecord) : Except Error (List Word) :=
  match ws[p]? with
  | none => .error (.shortReply (4 * p))
  | some w => recordReplyAt w ws p r

/-- The whole batch against the reply, record by record from word `p`: the slots as written so far, and the first error if
there is one (41_transport_engine.md R152 to R156: slots already written keep their data). -/
def checkBatch (ws : List Word) : Nat → List TxnRecord → Slots → Slots × Option Error
  | _, [], sl => (sl, none)
  | p, r :: rs, sl =>
    match recordReply ws p r with
    | .error e => (sl, some e)
    | .ok data => checkBatch ws (p + 1 + r.data) rs (Slots.store sl r.slot data)

/-- The transaction id of a reply's first transaction header (41_transport_engine.md R151). The reply has at least that
word when it is asked for (R150). -/
def firstId (ws : List Word) : Byte := (unpackHeader (ws.getD Config.pktHdrWords 0#32)).txnId

/-- A reply's length is no multiple of 4, or it holds no header (41_transport_engine.md R150, 20_memory.md R71). -/
def badLength (bs : List Byte) : Bool :=
  decide (bs.length % 4 ≠ 0) || decide (bs.length < 4 * (Config.pktHdrWords + 1))

/-- A reply that repeats the last accepted one (41_transport_engine.md R151). -/
def isDuplicate (ws : List Word) (s : State) : Bool := s.lastValid && firstId ws == s.lastId

/-! ## FLUSH -/

/-- `DROP()` (41_transport_engine.md R156): the batch is emptied; the walk over it starts anew. -/
def dropBatch (s : State) : State :=
  { s with batch := [], outLen := 0, inLen := 0, recIdx := 0, wordPos := Config.pktHdrWords }

/-- Acceptance of a reply (41_transport_engine.md R157). -/
def acceptReply (ws : List Word) (s : State) : State :=
  dropBatch { s with lastId := firstId ws, lastValid := true }

/-- What FLUSH leaves: the state, and the error it raises if it raises one. -/
structure FlushResult where
  state : State
  error : Option Error
  deriving DecidableEq, Repr

/-- FLUSH after a datagram came in (41_transport_engine.md R150 from `INBUF <- r` on, to R157). -/
def flushReply (bs : List Byte) (s : State) : FlushResult :=
  let t := { s with inbuf := bs }
  let ws := replyWords bs
  if badLength bs then ⟨dropBatch t, some (.shortReply bs.length)⟩
  else if isDuplicate ws t then ⟨dropBatch t, none⟩
  else match checkBatch ws Config.pktHdrWords t.batch t.slots with
    | (sl, some e) => ⟨dropBatch { t with slots := sl }, some e⟩
    | (sl, none) => ⟨acceptReply ws { t with slots := sl }, none⟩

/-- FLUSH (41_transport_engine.md R149 to R159). -/
def flush (s : State) : FlushResult :=
  if s.batch.isEmpty then ⟨s, none⟩
  else match received s with
    | .timeout => ⟨dropBatch (afterReceive (sendBatch s)), some .transportTimeout⟩
    | .datagram bs => flushReply bs (afterReceive (sendBatch s))

/-! ## The words of a reply, one at a time -/

/-- A flush that a walk over its reply has ended: the error goes to the caller, or EXECUTE returns OK(), or the QUEUE that
flushed goes on with its operation (41_transport_engine.md R144, R157, R160). -/
def endFlush (e : Option Error) (s : State) : State :=
  let t := { s with activity := .command, resume := none }
  match e, s.resume with
  | some err, _ => raise err t
  | none, none => returnOk .unit t
  | none, some q => acceptOp q t

/-- `FAIL(rec, E)` at record `k` (41_transport_engine.md R156): FAILED, then DROP, then the raise. -/
def failRecord (k : Nat) (r : TxnRecord) (e : Error) (s : State) : State :=
  endFlush (some e) (dropBatch { s with batch := s.batch.set k { r with state := .failed } })

/-- One reply header `w` at word `p` against the record whose turn it is (41_transport_engine.md R152 to R156). With no
record left to check the word is ignored (R157, log entry 11). -/
def resolveHeader (w : Word) (s : State) : State :=
  match s.batch[s.recIdx]? with
  | none => s
  | some r =>
    match recordReplyAt w (replyWords s.inbuf) s.wordPos r with
    | .error e => failRecord s.recIdx r e s
    | .ok data =>
      { s with
        batch := s.batch.set s.recIdx { r with infoCode := some (unpackHeader w).infoCode, state := .resolved }
        slots := Slots.store s.slots r.slot data
        recIdx := s.recIdx + 1
        wordPos := s.wordPos + 1 + r.data }

/-- A READ header as a reply (30_encoding.md R92, R101; 41_transport_engine.md R152 to R155). -/
def execRead (wordCount : BitVec 12) (txnId : BitVec 8) (infoCode : BitVec 4) (s : State) : Host.Outcome State Fault Refusal :=
  .next (resolveHeader (headerWord .read wordCount txnId infoCode) s)

/-- A WRITE header as a reply (as READ). -/
def execWrite (wordCount : BitVec 12) (txnId : BitVec 8) (infoCode : BitVec 4) (s : State) : Host.Outcome State Fault Refusal :=
  .next (resolveHeader (headerWord .write wordCount txnId infoCode) s)

/-- A NI_READ header as a reply (as READ). -/
def execNiRead (wordCount : BitVec 12) (txnId : BitVec 8) (infoCode : BitVec 4) (s : State) : Host.Outcome State Fault Refusal :=
  .next (resolveHeader (headerWord .niRead wordCount txnId infoCode) s)

/-- A NI_WRITE header as a reply (as READ). -/
def execNiWrite (wordCount : BitVec 12) (txnId : BitVec 8) (infoCode : BitVec 4) (s : State) : Host.Outcome State Fault Refusal :=
  .next (resolveHeader (headerWord .niWrite wordCount txnId infoCode) s)

/-- A RMW_BITS header as a reply (as READ; the remote modification is the board's, 20_memory.md R82). -/
def execRmwBits (wordCount : BitVec 12) (txnId : BitVec 8) (infoCode : BitVec 4) (s : State) : Host.Outcome State Fault Refusal :=
  .next (resolveHeader (headerWord .rmwBits wordCount txnId infoCode) s)

/-- A RMW_SUM header as a reply (as RMW_BITS). -/
def execRmwSum (wordCount : BitVec 12) (txnId : BitVec 8) (infoCode : BitVec 4) (s : State) : Host.Outcome State Fault Refusal :=
  .next (resolveHeader (headerWord .rmwSum wordCount txnId infoCode) s)

/-- An IDLE header as a reply (as READ). -/
def execIdleTxn (wordCount : BitVec 12) (txnId : BitVec 8) (infoCode : BitVec 4) (s : State) : Host.Outcome State Fault Refusal :=
  .next (resolveHeader (headerWord .idle wordCount txnId infoCode) s)

/-! ## The commands -/

/-- QUEUE (41_transport_engine.md R141 to R148). -/
def execQueue (op : BitVec 4) (n : Nat) (addr : Word) (wdata : List Word) (slot : Option Nat) (s : State) :
    Host.Outcome State Fault Refusal :=
  match checkOperands op n addr wdata slot with
  | .error e => .next (raise e s)
  | .ok q =>
    if tooLarge s.params q then .next (raise (.capacityExceeded (4 * q.req) (4 * q.rsp)) s)
    else if wouldOverflow s q then
      match flush s with
      | ⟨t, some e⟩ => .next (raise e t)
      | ⟨t, none⟩ => .next (acceptOp q t)
    else .next (acceptOp q s)

/-- EXECUTE (41_transport_engine.md R160). -/
def execExecute (s : State) : Host.Outcome State Fault Refusal :=
  match flush s with
  | ⟨t, some e⟩ => .next (raise e t)
  | ⟨t, none⟩ => .next (returnOk .unit t)

/-- The effect of RESET on the engine (70_reset_and_hazards.md R321); slots, ports and parameters stay (R323, R324).
LAST_ID is unspecified: a free value (log entry 8). -/
def resetEngine (s : State) : State :=
  { s with
    nextId := s.params.resetTxid
    lastId := Config.freeLastId s.draws
    draws := s.draws + 1
    lastValid := false
    batch := []
    outLen := 0
    inLen := 0
    outbuf := []
    inbuf := []
    recIdx := 0
    wordPos := Config.pktHdrWords
    resume := none
    activity := .command }

/-- RESET (70_reset_and_hazards.md R320). -/
def execReset (s : State) : Host.Outcome State Fault Refusal :=
  .next (returnOk .unit (resetEngine s))

end Sys2Proof.Machine
end

