-- ==== Sys2Proof/Machine/Stream.lean ====
section
/-! DEFINITION. The bitstream_decoder (43_bitstream_decoder.md): the meaning of each chip-payload word, the decode loop, and
the commands DECODE_CHIP_STREAM and, word by word, the end of a decode. -/

namespace Sys2Proof.Machine

/-- What the rule of one chip word does: go on with a new DecoderState and the hits it emits, or abort with a verdict
(43_bitstream_decoder.md R221, R240: at an abort the DecoderState stays as it was). CURSOR is advanced by the loop. -/
inductive WordResult where
  | advance (d : DecoderState) (hits : List PixelHit)
  | abort (v : Verdict)
  deriving DecidableEq, Repr

/-! ## The rules of the words -/

/-- IDLE: no state change (R223). -/
def wordIdle (d : DecoderState) : WordResult := .advance d []

/-- BUSY_ON: no state change (R224). -/
def wordBusyOn (d : DecoderState) : WordResult := .advance d []

/-- BUSY_OFF: no state change (R225). -/
def wordBusyOff (d : DecoderState) : WordResult := .advance d []

/-- EMPTY_FRAME (R226). -/
def wordEmptyFrame (c : BitVec 4) (bc : BitVec 8) (d : DecoderState) : WordResult :=
  .advance { d with started := true, finished := true, chip := some c, bunch := some bc } []

/-- CHIP_HEADER (R227). -/
def wordChipHeader (c : BitVec 4) (bc : BitVec 8) (d : DecoderState) : WordResult :=
  .advance { d with started := true, finished := false, chip := some c, bunch := some bc, newEvent := true } []

/-- CHIP_TRAILER (R228). -/
def wordChipTrailer (f : BitVec 4) (d : DecoderState) : WordResult :=
  if d.started = false then .abort (.trailerBeforeHeader d.cursor)
  else if d.finished = true then .abort (.trailerAfterFinished d.cursor)
  else .advance { d with trlFlags := some f, finished := true, chip := none } []

/-- REGION_HEADER (R229). -/
def wordRegionHeader (r : BitVec 5) (d : DecoderState) : WordResult :=
  if d.started = false then .abort (.regionBeforeHeader d.cursor)
  else .advance { d with region := some r } []

/-- The common part of the data words: the STARTED check (R230), CORRUPT without a region (R235), and the validator on each
address in turn (R233). -/
def dataHits (bi ri : Nat) (ld : BitVec 4) (addresses : List (BitVec 11)) (d : DecoderState) : WordResult :=
  if d.started = false then .abort (.dataBeforeHeader d.cursor)
  else
    let d1 := { d with corrupt := d.corrupt || d.region.isNone }
    let r := validateAll bi ri d.chip d.region (globalDcol d.region ld) addresses d1
    .advance r.1 r.2

/-- DATA_SHORT (R236). -/
def wordDataShort (bi ri : Nat) (ld : BitVec 4) (a : BitVec 10) (d : DecoderState) : WordResult :=
  dataHits bi ri ld [a.setWidth 11] d

/-- DATA_LONG (R237). -/
def wordDataLong (bi ri : Nat) (ld : BitVec 4) (a : BitVec 10) (hm : BitVec 7) (d : DecoderState) : WordResult :=
  dataHits bi ri ld (clusterAddresses a hm) d

/-- UNKNOWN: aborts always (R241). -/
def wordUnknown (b0 : Byte) (d : DecoderState) : WordResult := .abort (.unknownWord d.cursor b0)

/-! ## The decode loop -/

/-- The rule of a whole word of type `t` with bytes b0, b1, b2, its fields read by 30_encoding.md R113. -/
def applyWord (t : WordType) (b0 b1 b2 : Byte) (bi ri : Nat) (d : DecoderState) : WordResult :=
  match t with
  | .idle => wordIdle d
  | .busyOn => wordBusyOn d
  | .busyOff => wordBusyOff d
  | .chipHeader => wordChipHeader (chipIdField b0) b1 d
  | .chipTrailer => wordChipTrailer (trailerFlagsField b0) d
  | .emptyFrame => wordEmptyFrame (chipIdField b0) b1 d
  | .regionHeader => wordRegionHeader (regionField b0) d
  | .dataShort => wordDataShort bi ri (localDcolField b0 b1) (addressField b0 b1) d
  | .dataLong => wordDataLong bi ri (localDcolField b0 b1) (addressField b0 b1) (hitmapField b2) d
  | .unknown => wordUnknown b0 d

/-- CURSOR moved past a word of `n` bytes (R221). -/
def moveCursor (n : Nat) (r : WordResult) : WordResult :=
  match r with
  | .advance d hs => .advance { d with cursor := d.cursor + n } hs
  | .abort v => .abort v

/-- One pass of the loop of R221 at CURSOR, which is below the payload's length: UNKNOWN first, then the length
check (R222), then the word's rule, then CURSOR. -/
def streamWord (p : List Byte) (bi ri : Nat) (d : DecoderState) : WordResult :=
  let c := d.cursor
  let b0 := byteAt p c
  let t := classify b0
  if t = .unknown then wordUnknown b0 d
  else if c + t.length > p.length then .abort (.outOfData c b0)
  else moveCursor t.length (applyWord t b0 (byteAt p (c + 1)) (byteAt p (c + 2)) bi ri d)

/-- What a decode leaves: the final DecoderState, the hits emitted in order, the verdict. -/
structure StreamRun where
  decoder : DecoderState
  hits : List PixelHit
  verdict : Verdict
  deriving DecidableEq, Repr

/-- The loop of R221, at most `fuel` words; a payload has at most as many words as bytes. -/
def streamLoop (p : List Byte) (bi ri : Nat) : Nat → DecoderState → List PixelHit → StreamRun
  | 0, d, hs => ⟨d, hs, endVerdict d⟩
  | fuel + 1, d, hs =>
    if d.cursor < p.length then
      match streamWord p bi ri d with
      | .abort v => ⟨d, hs, v⟩
      | .advance d' new => streamLoop p bi ri fuel d' (hs ++ new)
    else ⟨d, hs, endVerdict d⟩

/-- The whole decode of a payload, from the DecoderState of 10_state.md R54: a function of (P, bi, ri) alone (R243, R244). -/
def decodeStream (p : List Byte) (bi ri : Nat) : StreamRun :=
  streamLoop p bi ri p.length DecoderState.initial []

/-! ## Results -/

/-- The record of R243. -/
def streamRecord (v : Verdict) (d : DecoderState) : StreamRecord where
  success := v == .success
  verdict := v
  cursor := d.cursor
  started := d.started
  finished := d.finished
  corrupt := d.corrupt
  prioErrors := d.prioErrors
  chip := d.chip
  bunch := d.bunch
  trlFlags := d.trlFlags

/-- The outcome of a decode: OK with the record, or Error(verdict) with the same record (R243, 60_exceptions.md R293). -/
def streamResponse (record : StreamRecord) : Response :=
  if record.verdict = .success then .ok (.stream record) else .error (.chipStream record.verdict record)

/-- A whole decode put into the state: the DecoderState, and the hits on HIT as emitted (R243). -/
def runDecode (p : List Byte) (bi ri : Nat) (s : State) : State :=
  emitHits (decodeStream p bi ri).hits
    { s with decoder := (decodeStream p bi ri).decoder, payload := p, boardIndex := bi, rcvIndex := ri }

/-- The record of a whole decode. -/
def decodeRecord (p : List Byte) (bi ri : Nat) : StreamRecord :=
  streamRecord (decodeStream p bi ri).verdict (decodeStream p bi ri).decoder

/-! ## The words one at a time -/

/-- The end of a decode that runs word by word (R240, R242, R245): EVT when it belongs to a DECODE_EVENT, then the response. -/
def endStream (v : Verdict) (s : State) : State :=
  let record := streamRecord v s.decoder
  let t := { s with activity := .command, event := none }
  match s.event with
  | none => respond (streamResponse record) t
  | some info => respond (streamResponse record) (sendEvt ⟨record.success, none, some info, some record⟩ t)

/-- One chip word of `n` bytes on the state: its rule, then CURSOR, hits on HIT; or the end of the decode at an abort. -/
def runWord (n : Nat) (r : WordResult) (s : State) : State :=
  match r with
  | .advance d hs => emitHits hs { s with decoder := { d with cursor := d.cursor + n } }
  | .abort v => endStream v s

/-- IDLE (43_bitstream_decoder.md R223). -/
def execIdle (s : State) : Host.Outcome State Fault Refusal :=
  .next (runWord 1 (wordIdle s.decoder) s)

/-- BUSY_ON (R224). -/
def execBusyOn (s : State) : Host.Outcome State Fault Refusal :=
  .next (runWord 1 (wordBusyOn s.decoder) s)

/-- BUSY_OFF (R225). -/
def execBusyOff (s : State) : Host.Outcome State Fault Refusal :=
  .next (runWord 1 (wordBusyOff s.decoder) s)

/-- CHIP_HEADER (R227). -/
def execChipHeader (c : BitVec 4) (bc : BitVec 8) (s : State) : Host.Outcome State Fault Refusal :=
  .next (runWord 2 (wordChipHeader c bc s.decoder) s)

/-- CHIP_TRAILER (R228). -/
def execChipTrailer (f : BitVec 4) (s : State) : Host.Outcome State Fault Refusal :=
  .next (runWord 1 (wordChipTrailer f s.decoder) s)

/-- EMPTY_FRAME (R226). -/
def execEmptyFrame (c : BitVec 4) (bc : BitVec 8) (s : State) : Host.Outcome State Fault Refusal :=
  .next (runWord 2 (wordEmptyFrame c bc s.decoder) s)

/-- REGION_HEADER (R229). -/
def execRegionHeader (r : BitVec 5) (s : State) : Host.Outcome State Fault Refusal :=
  .next (runWord 1 (wordRegionHeader r s.decoder) s)

/-- DATA_SHORT (R236). -/
def execDataShort (ld : BitVec 4) (a : BitVec 10) (s : State) : Host.Outcome State Fault Refusal :=
  .next (runWord 2 (wordDataShort s.boardIndex s.rcvIndex ld a s.decoder) s)

/-- DATA_LONG (R237). -/
def execDataLong (ld : BitVec 4) (a : BitVec 10) (hm : BitVec 7) (s : State) : Host.Outcome State Fault Refusal :=
  .next (runWord 3 (wordDataLong s.boardIndex s.rcvIndex ld a hm s.decoder) s)

/-- UNKNOWN, first byte 0x80 to 0x9F (R241). -/
def execUnknown80_9F (b0 : Byte) (s : State) : Host.Outcome State Fault Refusal :=
  .next (runWord 1 (wordUnknown b0 s.decoder) s)

/-- UNKNOWN, first byte 0xF2 or 0xF3 (R241). -/
def execUnknownF2_F3 (b0 : Byte) (s : State) : Host.Outcome State Fault Refusal :=
  .next (runWord 1 (wordUnknown b0 s.decoder) s)

/-- UNKNOWN, first byte 0xF4 to 0xF7 (R241). -/
def execUnknownF4_F7 (b0 : Byte) (s : State) : Host.Outcome State Fault Refusal :=
  .next (runWord 1 (wordUnknown b0 s.decoder) s)

/-- UNKNOWN, first byte 0xF8 to 0xFB (R241). -/
def execUnknownF8_FB (b0 : Byte) (s : State) : Host.Outcome State Fault Refusal :=
  .next (runWord 1 (wordUnknown b0 s.decoder) s)

/-- UNKNOWN, first byte 0xFC or 0xFD (R241). -/
def execUnknownFC_FD (b0 : Byte) (s : State) : Host.Outcome State Fault Refusal :=
  .next (runWord 1 (wordUnknown b0 s.decoder) s)

/-- UNKNOWN, first byte 0xFE (R241). -/
def execUnknownFE (b0 : Byte) (s : State) : Host.Outcome State Fault Refusal :=
  .next (runWord 1 (wordUnknown b0 s.decoder) s)

/-- DECODE_CHIP_STREAM (43_bitstream_decoder.md R243). -/
def execDecodeChipStream (p : List Byte) (bi ri : Nat) (s : State) : Host.Outcome State Fault Refusal :=
  .next (respond (streamResponse (decodeRecord p bi ri)) (runDecode p bi ri s))

end Sys2Proof.Machine
end

