-- ==== Sys2Proof/Machine/Frame.lean ====
section
/-! DEFINITION. The board_frame_parser (42_board_frame_parser.md) with its commands DECODE_FRAME_NET and DECODE_FRAME_USB,
and the pipeline command DECODE_EVENT (43_bitstream_decoder.md R245). -/

namespace Sys2Proof.Machine

/-- What a frame decode ends with: OK(info, payload = [lo, hi)), a typed error with the BoardFrameInfo it carries if it
carries one, or a refusal (42_board_frame_parser.md, 00_scope.md R13). -/
inductive FrameResult where
  | ok (info : FrameInfo) (lo hi : Nat)
  | error (e : Error) (info : Option FrameInfo)
  | refused (r : Refusal)
  deriving DecidableEq, Repr

/-! ## Network frame -/

/-- BoardFrameInfo of a network frame that is long enough (R181 to R185). -/
def netInfo (order : ByteOrder) (buf : List Byte) : NetInfo :=
  let bf := netWord order buf 4
  let t := byteAt buf (buf.length - 1)
  { headerBytes := Config.netHdrBytes
    trailerBytes := Config.netTrlBytes
    blockFlags := bf
    overflow := bf.getLsbD 0
    timeout := bf.getLsbD 1
    endOfRun := bf.getLsbD 3
    channel := netWord order buf 12
    trailerByte := t
    headerError := t.getLsbD 0
    linkDecoderError := t.getLsbD 1 }

/-- The decode of a network frame (R180 to R187). -/
def parseNet (order : ByteOrder) (buf : List Byte) : FrameResult :=
  if buf.length < Config.netHdrBytes + Config.netTrlBytes then .error (.truncated buf.length) none
  else
    let info := netInfo order buf
    if info.trailerByte ≠ 0#8 then .error (.netTrailerError info.trailerByte info) (some (.net info))
    else .ok (.net info) Config.netHdrBytes (buf.length - 1)

/-! ## USB frame -/

/-- The number of words of a header length. -/
def hdrWords (n : UsbHdrLen) : Nat :=
  match n with
  | .three => 3
  | .five => 5
  | .nine => 9

/-- USB_HDR_WORDS(fw, ht): the first row of the table for the pair, none where the table defines none (R188). -/
def lookupHdr (table : List UsbHdrRow) (fw ht : Nat) : Option UsbHdrLen :=
  match table with
  | [] => none
  | row :: rest => if row.fw = fw ∧ row.ht = ht then some row.len else lookupHdr rest fw ht

/-- Header word k: LE32(buf, 4k) (R190). -/
def usbWord (buf : List Byte) (k : Nat) : Word := le32At buf (4 * k)

/-- Trailer words 0 and 1 (R190). -/
def usbT0 (buf : List Byte) : Word := le32At buf (buf.length - 8)
def usbT1 (buf : List Byte) : Word := le32At buf (buf.length - 4)

/-- A 48-bit value from its two 24-bit halves, low half first (R195). -/
def halves (lo hi : Word) : BitVec 48 :=
  ((hi.extractLsb' 0 24).setWidth 48 <<< 24) ||| (lo.extractLsb' 0 24).setWidth 48

/-- trig_type: H[0][12:10] (R194). -/
def trigTypeField (h0 : Word) : BitVec 3 := h0.extractLsb' 10 3

/-- BoardFrameInfo of a USB frame with a 5- or 9-word header (R194 to R198); `nine` says which. -/
def usbInfo (nine : Bool) (buf : List Byte) : UsbInfo :=
  let n := if nine then 9 else 5
  { headerWords := n
    headerBytes := 4 * n
    trailerBytes := 4 * Config.usbTrlWords
    almostFull := some ((usbWord buf 0).getLsbD 6)
    trigType := some (trigTypeField (usbWord buf 0))
    bufferDepth := some ((usbWord buf 0).extractLsb' 13 4)
    eventId := halves (usbWord buf 1) (usbWord buf 2)
    timestamp := halves (usbWord buf 3) (usbWord buf 4)
    strobeCount := if nine then some (usbWord buf 5) else none
    chipBusyCount := if nine then some (usbWord buf 6) else none
    daqBusyCount := if nine then some (usbWord buf 7) else none
    extTriggerCount := if nine then some (usbWord buf 8) else none
    triggerBusyCount := none
    eventSize := usbT0 buf
    trailerMarker := usbT1 buf }

/-- BoardFrameInfo of a USB frame with a 3-word header (R193): event id, timestamp and the two counters are the free
value USB_LEGACY3_DECODE (log entry 6). -/
def usbInfo3 (fw : Nat) (buf : List Byte) : UsbInfo :=
  let f := Config.usbLegacy3Decode fw (usbWord buf 0) (usbWord buf 1) (usbWord buf 2)
  { headerWords := 3
    headerBytes := 12
    trailerBytes := 4 * Config.usbTrlWords
    almostFull := none
    trigType := none
    bufferDepth := none
    eventId := f.eventId
    timestamp := f.timestamp
    strobeCount := some f.strobeCount
    chipBusyCount := none
    daqBusyCount := none
    extTriggerCount := none
    triggerBusyCount := some f.triggerBusyCount
    eventSize := usbT0 buf
    trailerMarker := usbT1 buf }

/-- The five header checks of a 5- or 9-word header, in order: the first that fails (R192). -/
def usbHeaderError (buf : List Byte) (info : UsbInfo) : Option Error :=
  let h := usbWord buf
  if h 0 &&& Config.usbW0CheckMask ≠ Config.usbW0CheckValue then some (.usbHeaderWord0 (h 0) info)
  else if (h 1).extractLsb' 24 8 ≠ 0#8 then some (.usbHeaderTopByte 1 (h 1) info)
  else if (h 2).extractLsb' 24 8 ≠ 0#8 then some (.usbHeaderTopByte 2 (h 2) info)
  else if (h 3).extractLsb' 24 8 ≠ 0#8 then some (.usbHeaderTopByte 3 (h 3) info)
  else if trigTypeField (h 0) ≠ 1#3 ∧ trigTypeField (h 0) ≠ 2#3 then some (.usbTriggerType (h 0) info)
  else none

/-- The trailer check (R197), the last one for every header length: the marker, then OK with the payload range (R199). -/
def usbTrailer (n : Nat) (buf : List Byte) (info : UsbInfo) : FrameResult :=
  if usbT1 buf ≠ Config.usbTrailerSentinel then .error (.usbTrailerMarker (usbT1 buf) info) (some (.usb info))
  else .ok (.usb info) (4 * n) (buf.length - 8)

/-- The decode of a USB frame whose header length is `n` words (R190 to R199). -/
def parseUsbAs (p : Params) (n : UsbHdrLen) (buf : List Byte) (fw : Nat) : FrameResult :=
  if buf.length < 4 * hdrWords n + 8 then .error (.truncated buf.length) none
  else match n with
    | .three =>
      if fw ∈ p.legacy3Fw then usbTrailer 3 buf (usbInfo3 fw buf) else .refused (.legacy3Undefined fw)
    | .five => match usbHeaderError buf (usbInfo false buf) with
      | some e => .error e (some (.usb (usbInfo false buf)))
      | none => usbTrailer 5 buf (usbInfo false buf)
    | .nine => match usbHeaderError buf (usbInfo true buf) with
      | some e => .error e (some (.usb (usbInfo true buf)))
      | none => usbTrailer 9 buf (usbInfo true buf)

/-- The decode of a USB frame (R188 to R199): the table lookup comes before any byte is read. -/
def parseUsb (p : Params) (buf : List Byte) (fw ht : Nat) : FrameResult :=
  match lookupHdr p.usbHdrWords fw ht with
  | none => .refused (.unknownHeaderLayout fw ht)
  | some n => parseUsbAs p n buf fw

/-- A frame decode as the outcome of its own command. -/
def frameOutcome (r : FrameResult) (s : State) : Host.Outcome State Fault Refusal :=
  match r with
  | .ok info lo hi => .next (returnOk (.frame info lo hi) s)
  | .error e _ => .next (raise e s)
  | .refused why => .refused why

/-- DECODE_FRAME_NET (42_board_frame_parser.md R187). -/
def execDecodeFrameNet (buf : List Byte) (s : State) : Host.Outcome State Fault Refusal :=
  frameOutcome (parseNet s.params.netWordOrder buf) s

/-- DECODE_FRAME_USB (42_board_frame_parser.md R199). -/
def execDecodeFrameUsb (buf : List Byte) (fw ht : Nat) (s : State) : Host.Outcome State Fault Refusal :=
  frameOutcome (parseUsb s.params buf fw ht) s

/-! ## The event pipeline -/

/-- The frame decode of either family (43_bitstream_decoder.md R245). -/
def parseFrame (p : Params) (fam : BoardFamily) (buf : List Byte) : FrameResult :=
  match fam with
  | .net => parseNet p.netWordOrder buf
  | .usb fw ht => parseUsb p buf fw ht

/-- `buf[lo .. hi)`: the payload a frame decode reports (43_bitstream_decoder.md R245). -/
def payloadOf (buf : List Byte) (lo hi : Nat) : List Byte := (buf.take hi).drop lo

/-- DECODE_EVENT (43_bitstream_decoder.md R245). -/
def execDecodeEvent (fam : BoardFamily) (buf : List Byte) (bi ri : Nat) (s : State) : Host.Outcome State Fault Refusal :=
  match parseFrame s.params fam buf with
  | .refused why => .refused why
  | .error e info => .next (raise e (sendEvt ⟨false, some e, info, none⟩ s))
  | .ok info lo hi =>
    let p := payloadOf buf lo hi
    let record := decodeRecord p bi ri
    .next (respond (streamResponse record) (sendEvt ⟨record.success, none, some info, some record⟩ (runDecode p bi ri s)))

end Sys2Proof.Machine
end

