-- ==== Sys2Proof/Machine/Dispatch.lean ====
section
/-! DEFINITION. exec: one arm per instruction, each one direct call of its meaning. -/

namespace Sys2Proof.Machine

/-- The meaning of every instruction. -/
def exec (i : Instr) (s : State) : Host.Outcome State Fault Refusal :=
  match i with
  -- transaction header words
  | .read n t c => Sys2Proof.Machine.execRead n t c s
  | .write n t c => Sys2Proof.Machine.execWrite n t c s
  | .niRead n t c => Sys2Proof.Machine.execNiRead n t c s
  | .niWrite n t c => Sys2Proof.Machine.execNiWrite n t c s
  | .rmwBits n t c => Sys2Proof.Machine.execRmwBits n t c s
  | .rmwSum n t c => Sys2Proof.Machine.execRmwSum n t c s
  | .idleTxn n t c => Sys2Proof.Machine.execIdleTxn n t c s
  -- chip-payload words
  | .idle => Sys2Proof.Machine.execIdle s
  | .busyOn => Sys2Proof.Machine.execBusyOn s
  | .busyOff => Sys2Proof.Machine.execBusyOff s
  | .chipHeader c bc => Sys2Proof.Machine.execChipHeader c bc s
  | .chipTrailer f => Sys2Proof.Machine.execChipTrailer f s
  | .emptyFrame c bc => Sys2Proof.Machine.execEmptyFrame c bc s
  | .regionHeader r => Sys2Proof.Machine.execRegionHeader r s
  | .dataShort ld a => Sys2Proof.Machine.execDataShort ld a s
  | .dataLong ld a hm => Sys2Proof.Machine.execDataLong ld a hm s
  | .unknown80_9F b => Sys2Proof.Machine.execUnknown80_9F b s
  | .unknownF2_F3 b => Sys2Proof.Machine.execUnknownF2_F3 b s
  | .unknownF4_F7 b => Sys2Proof.Machine.execUnknownF4_F7 b s
  | .unknownF8_FB b => Sys2Proof.Machine.execUnknownF8_FB b s
  | .unknownFC_FD b => Sys2Proof.Machine.execUnknownFC_FD b s
  | .unknownFE b => Sys2Proof.Machine.execUnknownFE b s
  -- host commands
  | .queue op n addr wdata slot => Sys2Proof.Machine.execQueue op n addr wdata slot s
  | .execute => Sys2Proof.Machine.execExecute s
  | .encodeHeader n op t => Sys2Proof.Machine.execEncodeHeader n op t s
  | .decodeHeader w => Sys2Proof.Machine.execDecodeHeader w s
  | .decodeFrameNet buf => Sys2Proof.Machine.execDecodeFrameNet buf s
  | .decodeFrameUsb buf fw ht => Sys2Proof.Machine.execDecodeFrameUsb buf fw ht s
  | .decodeChipStream buf bi ri => Sys2Proof.Machine.execDecodeChipStream buf bi ri s
  | .decodeEvent fam buf bi ri => Sys2Proof.Machine.execDecodeEvent fam buf bi ri s
  | .reset => Sys2Proof.Machine.execReset s

end Sys2Proof.Machine
end

