-- ==== Sys2Proof/Machine/Fetch.lean ====
section
/-! DEFINITION. What the next step runs: a command from CMD, the chip word at CURSOR, or the reply header whose turn it is;
and the placing of one table word where the next step takes it. -/

namespace Sys2Proof.Machine

/-- What a step has before it. -/
inductive Fetched where
  /-- An instruction, and the state it runs in. -/
  | run (i : Instr) (s : State)
  /-- No instruction: the step itself ends in this state. -/
  | done (s : State)
  /-- The step faults. -/
  | stop (f : Fault)
  deriving DecidableEq, Repr

/-- The oldest command on CMD is taken and its caller noted (00_scope.md R7, 20_memory.md R78). With no command issued the
block waits: the state stays (log entry 1). What no caller can put there faults (log entries 13 and 16). -/
def fetchCommand (s : State) : Fetched :=
  match s.cmd with
  | [] => .done s
  | c :: rest =>
    if c.instr.isCommand then
      if c.caller < s.params.nHosts then .run c.instr { s with cmd := rest, caller := c.caller }
      else .stop (.noSuchCaller c.caller)
    else .stop (.notACommand c.instr)

/-- The chip word at CURSOR; the end verdict at the payload's end (43_bitstream_decoder.md R221, R242), or OUT_OF_DATA when
the word is cut off (R222). -/
def fetchChip (s : State) : Fetched :=
  match decodeChipBytes (s.payload.drop s.decoder.cursor) with
  | .ok (i, _) => .run i s
  | .error .endOfPayload => .done (endStream (endVerdict s.decoder) s)
  | .error (.outOfData b0) => .done (endStream (.outOfData s.decoder.cursor b0) s)

/-- The reply header at word `p` for the record whose turn it is (41_transport_engine.md R152): acceptance when every record
has passed (R157), ShortReply when the reply has no such word, and the same checks for a word that is no header of the
table (another version, a reserved op kind: R93, R96). -/
def fetchReply (s : State) : Fetched :=
  let ws := replyWords s.inbuf
  match s.batch[s.recIdx]? with
  | none => .done (endFlush none (acceptReply ws s))
  | some r =>
    match ws[s.wordPos]? with
    | none => .done (failRecord s.recIdx r (.shortReply (4 * s.wordPos)) s)
    | some w =>
      match decodeHeaderWord w with
      | .ok i => .run i s
      | .error _ => .done (resolveHeader w s)

/-- What the next step runs. -/
def fetch (s : State) : Fetched :=
  match s.activity with
  | .command => fetchCommand s
  | .stream => fetchChip s
  | .reply => fetchReply s

/-- A record whose reply the header word `w` is: kind, word count and id as the word has them, no data kept. -/
def recordOf (w : Word) : TxnRecord where
  wordCount := (unpackHeader w).wordCount
  opKind := (OpKind.ofCode (unpackHeader w).opKind).getD .idle
  txnId := (unpackHeader w).txnId
  addr := 0#32
  wdata := List.replicate (wdataWords ((OpKind.ofCode (unpackHeader w).opKind).getD .idle) (unpackHeader w).wordCount.toNat) 0#32
  slot := none
  infoCode := none
  state := .pending

/-- A header word placed as the next reply word (log entry 2): the reply holds it and zero data words, the walk over
the batch is at word 0, and a batch without a record to check gets the record the word answers. -/
def placeHeader (w : Word) (s : State) : State :=
  let r := match s.batch[s.recIdx]? with
    | some r => r
    | none => recordOf w
  let batch := match s.batch[s.recIdx]? with
    | some _ => s.batch
    | none => s.batch ++ [recordOf w]
  let idx := match s.batch[s.recIdx]? with
    | some _ => s.recIdx
    | none => s.batch.length
  { s with
    activity := .reply
    inbuf := beBytes w ++ List.replicate (4 * r.data) 0#8
    batch := batch
    recIdx := idx
    wordPos := 0 }

/-- The bytes of a chip word placed as the payload of a decode that stands at its first byte (log entry 2). -/
def placeChip (bytes : List Byte) (s : State) : State :=
  { s with activity := .stream, payload := bytes, decoder := { s.decoder with cursor := 0 } }

/-- A table word placed where the next step takes it. -/
def placeWord (nbits w : Nat) (s : State) : State :=
  match tableSpace nbits with
  | .header => placeHeader (BitVec.ofNat 32 w) s
  | .chip => placeChip (tableBytes nbits w) s

end Sys2Proof.Machine
end

