-- ==== Sys2Proof/Machine/Step.lean ====
section
/-! DEFINITION. One step of the machine, and the placing of one table word for the host. -/

namespace Sys2Proof.Machine

/-- One step: what `fetch` puts before it, run by `exec`. A command from CMD is one atomic step (00_scope.md R6). -/
def step (s : State) : Host.Outcome State Fault Refusal :=
  match fetch s with
  | .run i t => exec i t
  | .done t => .next t
  | .stop f => .fault f

/-- The state with one table word placed where the next step takes it (log entry 2). -/
def State.withFetchWord (s : State) (nbits w : Nat) : State := placeWord nbits w s

end Sys2Proof.Machine
end

