-- ==== Sys2Proof/Safety.lean ====
section
/-! DEFINITION. What counts as a good state of the block, and the spec's own vocabulary in which the claims are stated: the
operation QUEUE accepts, the words of a reply, the hit a rule demands. Nothing here is used by the machine. -/

namespace Sys2Proof.Machine

/-! ## Invariants -/

/-- The engine between two steps: the byte spaces are canonical; OUT_LEN and IN_LEN are the sizes of BATCH's request and
reply packets and stay inside PACKET_BUDGET (10_state.md R26, R27; 41_transport_engine.md R143); the first OUT_LEN bytes of OUTBUF
are the outbound packet (10_state.md R28); the records carry what R32 and R102 say, and so does the operation a QUEUE
goes on with, which fits an empty packet (R142). -/
structure EngineInv (s : State) : Prop where
  outbufCanonical : Memory.wf s.outbuf
  slotsCanonical : Slots.wf s.slots
  outLenIs : s.outLen = (s.batch.map (fun r => 4 * r.req)).sum
  inLenIs : s.inLen = (s.batch.map (fun r => 4 * r.rsp)).sum
  outLenFits : s.outLen ≤ s.params.packetBudget
  inLenFits : s.inLen ≤ s.params.packetBudget
  outbufHolds : Memory.readBytes s.outbuf 0 s.outLen = s.batch.flatMap requestBytes
  writeData : ∀ r ∈ s.batch, r.wdata.length = wdataWords r.opKind r.wordCount.toNat
  fixedCounts : ∀ r ∈ s.batch, usesCount r.opKind = false → r.wordCount = recordCount r.opKind 0
  resumeData : ∀ q, s.resume = some q → q.wdata.length = wdataWords q.opKind q.wordCount.toNat
  resumeCounts : ∀ q, s.resume = some q → usesCount q.opKind = false → q.wordCount = recordCount q.opKind 0
  resumeFits : ∀ q, s.resume = some q → tooLarge s.params q = false

/-- The first record of a pending batch has an id other than LAST_ID (41_transport_engine.md R161). -/
def FirstIdDistinct (s : State) : Prop :=
  s.lastValid = true → ∀ r, s.batch.head? = some r → r.txnId ≠ s.lastId

/-- The decoder: CURSOR stays inside the payload (10_state.md R41); (STARTED, FINISHED) = (0, 1) is not reached
(43_bitstream_decoder.md R246); before STARTED nothing was seen (10_state.md R54); a counted stuck detection made the event
CORRUPT (44_hit_quality_validator.md R268). -/
structure DecoderInv (s : State) : Prop where
  cursorInside : s.decoder.cursor ≤ s.payload.length
  finishedStarted : s.decoder.finished = true → s.decoder.started = true
  nothingBefore : s.decoder.started = false →
    s.decoder.region = none ∧ s.decoder.prev = none ∧ s.decoder.corrupt = false ∧ s.decoder.trlFlags = none ∧
      s.decoder.bunch = none
  countedCorrupt : 0 < s.decoder.prioErrors → s.decoder.corrupt = true

/-- What every emitted hit satisfies (10_state.md R49, R50; 44_hit_quality_validator.md R270). -/
structure HitInv (h : PixelHit) : Prop where
  addressBound : h.address.toNat ≤ 1030
  notUnknown : h.flag ≠ .unknown
  notBadDcol : h.flag ≠ .badDcolId
  regionless : h.flag = .badRegionId → h.region = none
  farAddress : h.flag = .badAddress → 1023 < h.address.toNat
  okBounds : h.flag = .ok → h.region.isSome = true ∧ h.dcol.isSome = true ∧ h.address.toNat ≤ 1023 ∧ h.chipId ≠ 15#4
  badChipForced : h.flag = .badChipId → h.chipId = 0#4 ∧ h.address = 0#11
  regionDcol : h.region.isSome = h.dcol.isSome

/-! ## Operations as the spec writes them -/

/-- The word count a record carries (30_encoding.md R102). -/
def carriedCount (k : OpKind) (n : Nat) : Nat :=
  match k with
  | .read => n
  | .write => n
  | .niRead => n
  | .niWrite => n
  | .rmwBits => 1
  | .rmwSum => 1
  | .idle => 0

/-- The operands QUEUE accepts (41_transport_engine.md R141, 10_state.md R32). -/
def GoodOperands (k : OpKind) (n : Nat) (wdata : List Word) : Prop :=
  match k with
  | .read => n ≤ 0xFFF ∧ wdata = []
  | .niRead => n ≤ 0xFFF ∧ wdata = []
  | .write => n ≤ 0xFFF ∧ wdata.length = n
  | .niWrite => n ≤ 0xFFF ∧ wdata.length = n
  | .rmwBits => wdata.length = 2
  | .rmwSum => wdata.length = 1
  | .idle => wdata = []

/-- Request bytes and reply bytes of an operation (41_transport_engine.md R140). -/
def requestSize (k : OpKind) (n : Nat) : Nat :=
  match k with
  | .read => 8
  | .niRead => 8
  | .write => 8 + 4 * n
  | .niWrite => 8 + 4 * n
  | .rmwBits => 16
  | .rmwSum => 12
  | .idle => 4
def replySize (k : OpKind) (n : Nat) : Nat :=
  match k with
  | .read => 4 + 4 * n
  | .niRead => 4 + 4 * n
  | .write => 4
  | .niWrite => 4
  | .rmwBits => 8
  | .rmwSum => 8
  | .idle => 4

/-- The header word with version 2 as a number (30_encoding.md R91). -/
def headerNumber (k : OpKind) (wordCount txnId infoCode : Nat) : Nat :=
  2 * 2 ^ 28 + wordCount * 2 ^ 16 + txnId * 2 ^ 8 + k.code.toNat * 2 ^ 4 + infoCode

/-- A word's four bytes, most significant first (20_memory.md R62). -/
def bigEndian (w : Word) : List Byte :=
  [BitVec.ofNat 8 (w.toNat / 2 ^ 24), BitVec.ofNat 8 (w.toNat / 2 ^ 16), BitVec.ofNat 8 (w.toNat / 2 ^ 8),
    BitVec.ofNat 8 w.toNat]

/-- The id the next queued record gets (41_transport_engine.md R146). -/
def nextTxnId (s : State) : Byte :=
  if s.batch = [] ∧ s.lastValid = true ∧ s.nextId = s.lastId then s.nextId + 1#8 else s.nextId

/-- The words of a request (30_encoding.md R100): the header with info code REQUEST, then the address and the write words
but for IDLE, which is its header alone. -/
def requestPacket (k : OpKind) (n : Nat) (id : Byte) (addr : Word) (wdata : List Word) : List Word :=
  BitVec.ofNat 32 (headerNumber k (carriedCount k n) id.toNat 15) :: if k = .idle then [] else addr :: wdata

/-- The record QUEUE makes (10_state.md R32, 41_transport_engine.md R147). -/
def queuedRecord (k : OpKind) (n : Nat) (id : Byte) (addr : Word) (wdata : List Word) (slot : Option Nat) : TxnRecord where
  wordCount := BitVec.ofNat 12 (carriedCount k n)
  opKind := k
  txnId := id
  addr := addr
  wdata := wdata
  slot := slot
  infoCode := none
  state := .pending

/-- Data words in the reply to a record (30_encoding.md R101). -/
def replyData (r : TxnRecord) : Nat :=
  match r.opKind with
  | .read => r.wordCount.toNat
  | .niRead => r.wordCount.toNat
  | .write => 0
  | .niWrite => 0
  | .rmwBits => 1
  | .rmwSum => 1
  | .idle => 0

/-- The fields of a header word as numbers (30_encoding.md R91). -/
def versionOf (w : Word) : Nat := w.toNat / 2 ^ 28
def countOf (w : Word) : Nat := w.toNat / 2 ^ 16 % 2 ^ 12
def idOf (w : Word) : Nat := w.toNat / 2 ^ 8 % 2 ^ 8
def kindOf (w : Word) : Nat := w.toNat / 2 ^ 4 % 2 ^ 4
def codeOf (w : Word) : Nat := w.toNat % 2 ^ 4

/-- The words of a right reply to a record: the header echoes the request with info code SUCCESS, then the data
(30_encoding.md R101). -/
def goodReply (r : TxnRecord) (data : List Word) : List Word :=
  BitVec.ofNat 32 (headerNumber r.opKind r.wordCount.toNat r.txnId.toNat 0) :: data

/-- The right replies to some records, one after the other (30_encoding.md R103). -/
def goodReplies (pairs : List (TxnRecord × List Word)) : List Word :=
  pairs.flatMap (fun p => goodReply p.1 p.2)

/-- Records with the data their replies carry, as many words as R101 says. -/
def RightData (pairs : List (TxnRecord × List Word)) : Prop :=
  ∀ p ∈ pairs, p.2.length = replyData p.1

/-- A reply whose words are `ws` is no duplicate (41_transport_engine.md R151). -/
def Fresh (s : State) (ws : List Word) : Prop :=
  s.lastValid = true → ∀ w tl, ws = w :: tl → idOf w ≠ s.lastId.toNat

/-- The errors of a reply header that come before the info code, in their order (41_transport_engine.md R152, R153). -/
def EarlyFault (w : Word) (r : TxnRecord) (e : Error) : Prop :=
  (versionOf w ≠ 2 ∧ e = .versionMismatch w) ∨
  (versionOf w = 2 ∧ idOf w ≠ r.txnId.toNat ∧ e = .idMismatch w) ∨
  (versionOf w = 2 ∧ idOf w = r.txnId.toNat ∧ kindOf w ≠ r.opKind.code.toNat ∧ e = .opKindMismatch w)

/-- The header answers the record: version, id and op kind are right (41_transport_engine.md R152, R153). -/
def Answers (w : Word) (r : TxnRecord) : Prop :=
  versionOf w = 2 ∧ idOf w = r.txnId.toNat ∧ kindOf w = r.opKind.code.toNat

/-- The error of an info code (41_transport_engine.md R154). -/
def CodeFault (w : Word) (e : Error) : Prop :=
  (codeOf w = 1 ∧ e = .badHeader w) ∨ (codeOf w = 2 ∧ e = .busErrorRead w) ∨ (codeOf w = 3 ∧ e = .busErrorWrite w) ∨
  (codeOf w = 4 ∧ e = .busTimeoutRead w) ∨ (codeOf w = 5 ∧ e = .busTimeoutWrite w) ∨
  (codeOf w = 6 ∧ e = .txBufferOverflow w) ∨ (codeOf w = 7 ∧ e = .rxBufferUnderflow w) ∨
  (8 ≤ codeOf w ∧ e = .unexpectedInfoCode w)

/-- The errors of a reply header that answers the record: info code, then word count (41_transport_engine.md R154, R155). -/
def LateFault (w : Word) (r : TxnRecord) (e : Error) : Prop :=
  Answers w r ∧ (CodeFault w e ∨ (codeOf w = 0 ∧ countOf w ≠ r.wordCount.toNat ∧ e = .wordCountMismatch w))

/-- The header passes every check of its record (41_transport_engine.md R152 to R155). -/
def RightHeader (w : Word) (r : TxnRecord) : Prop :=
  Answers w r ∧ codeOf w = 0 ∧ countOf w = r.wordCount.toNat

/-- The slots after the replies of some records, in order (41_transport_engine.md R155). -/
def storedAll (pairs : List (TxnRecord × List Word)) (sl : Slots) : Slots :=
  pairs.foldl (fun acc p => Slots.store acc p.1.slot p.2) sl

/-- The draw counter after one receive on DGRAM_RX: a delivery that waits there costs no draw, a free one costs one (log
entry 7). -/
def drawsAfterReceive (s : State) : Nat := if s.rx = [] then s.draws + 1 else s.draws

/-- The state EXECUTE leaves before its response: one datagram sent, one delivery received, batch emptied
(41_transport_engine.md R150, R156, R157), with INBUF, the slots and the LAST registers given. -/
def executed (s : State) (bs : List Byte) (sl : Slots) (last : Byte) (valid : Bool) : State :=
  { s with
    tx := s.tx ++ [Memory.readBytes s.outbuf 0 s.outLen]
    rx := s.rx.tail
    draws := drawsAfterReceive s
    inbuf := bs
    batch := []
    outLen := 0
    inLen := 0
    recIdx := 0
    wordPos := 0
    slots := sl
    lastId := last
    lastValid := valid }

/-- A state with one more message on RSP to the caller that is served. -/
def answered (s : State) (r : Response) : State := { s with rsp := s.rsp ++ [⟨s.caller, r⟩] }

/-- The state after a walk over a reply has met error `e`: the batch dropped, the error returned (41_transport_engine.md
R156). -/
def walkFailed (s : State) (e : Error) : State :=
  { s with
    batch := []
    outLen := 0
    inLen := 0
    recIdx := 0
    wordPos := 0
    resume := none
    activity := .command
    rsp := s.rsp ++ [⟨s.caller, .error e⟩] }

/-- `k` steps, stopping at the first fault or refusal. -/
def runSteps : Nat → State → Host.Outcome State Fault Refusal
  | 0, s => .next s
  | k + 1, s =>
    match step s with
    | .next t => runSteps k t
    | .fault f => .fault f
    | .refused r => .refused r

/-- The state after the end of a decode that runs word by word, with verdict `v` (43_bitstream_decoder.md R240, R243, R245). -/
def decodeEnded (s : State) (v : Verdict) : State :=
  let record : StreamRecord :=
    { success := decide (v = .success), verdict := v, cursor := s.decoder.cursor, started := s.decoder.started,
      finished := s.decoder.finished, corrupt := s.decoder.corrupt, prioErrors := s.decoder.prioErrors,
      chip := s.decoder.chip, bunch := s.decoder.bunch, trlFlags := s.decoder.trlFlags }
  { s with
    activity := .command
    event := none
    evts := s.evts ++ s.event.toList.map (fun info => ⟨decide (v = .success), none, some info, some record⟩)
    rsp := s.rsp ++ [⟨s.caller, if v = .success then .ok (.stream record) else .error (.chipStream v record)⟩] }

/-- The word ends the decode at once: its command answers the error of verdict `v` (43_bitstream_decoder.md R221,
60_exceptions.md R293). What else stands at an abort is R240's, and `decodeEnded` says it. -/
def AbortsWith (i : Instr) (s : State) (v : Verdict) : Prop :=
  ∃ (t : State) (record : StreamRecord), exec i s = .next t ∧ record.verdict = v ∧ record.success = false ∧
    t.activity = .command ∧ t.rsp = s.rsp ++ [⟨s.caller, .error (.chipStream v record)⟩]

/-- The length in bytes of the chip word whose first byte is `n` (30_encoding.md R112). R112 gives an UNKNOWN byte no length: as a
word it is its one byte here, the model's own reading (log entry 24). -/
def wordBytes (n : Nat) : Nat :=
  if n < 0x40 then 3
  else if n < 0x80 ∨ (0xA0 ≤ n ∧ n ≤ 0xAF) ∨ (0xE0 ≤ n ∧ n ≤ 0xEF) then 2
  else 1

/-! ## Hits as the rules demand them -/

/-- The chip id is no legal one (44_hit_quality_validator.md R262). -/
def IllegalChip (d : DecoderState) : Prop := d.chip = none ∨ d.chip = some 15#4

/-- The stuck condition of 44_hit_quality_validator.md R266 for a hit about to be emitted from state `d`. -/
def StuckAgainst (d : DecoderState) (h : PixelHit) : Prop :=
  d.newEvent = false ∧ h.region ≠ none ∧
    ∃ p, d.prev = some p ∧ p.region = h.region ∧ p.dcol = h.dcol ∧ h.address.toNat ≤ p.address.toNat

/-- The hit that 44_hit_quality_validator.md R260 to R266 demand for address `x` of a data word with local double column
`ld`, decoded in state `d`. -/
structure RuledHit (bi ri : Nat) (d : DecoderState) (ld : BitVec 4) (x : Nat) (h : PixelHit) : Prop where
  board : h.boardIndex = bi
  receiver : h.rcvIndex = ri
  region : h.region = d.region
  noDcol : d.region = none → h.dcol = none
  dcol : ∀ r, d.region = some r → ∃ c, h.dcol = some c ∧ c.toNat = r.toNat * 16 + ld.toNat
  illegal : IllegalChip d → h.chipId = 0#4 ∧ h.address = 0#11 ∧ h.flag = .badChipId
  legal : ∀ c, d.chip = some c → c ≠ 15#4 → h.chipId = c ∧ h.address.toNat = x
  noRegion : ¬ IllegalChip d → d.region = none → h.flag = .badRegionId
  farAddress : ¬ IllegalChip d → d.region ≠ none → 1023 < x → h.flag = .badAddress
  stuck : ¬ IllegalChip d → d.region ≠ none → x ≤ 1023 → StuckAgainst d h → h.flag = .stuck
  clean : ¬ IllegalChip d → d.region ≠ none → x ≤ 1023 → ¬ StuckAgainst d h → h.flag = .ok

/-- The DecoderState after a hit (44_hit_quality_validator.md R266 to R268): PRIO_ERRORS, CORRUPT, PREV and NEW_EVENT, the rest
as before. -/
structure RuledAfter (d : DecoderState) (h : PixelHit) (d' : DecoderState) : Prop where
  counted : StuckAgainst d h → d'.prioErrors = d.prioErrors + 1
  notCounted : ¬ StuckAgainst d h → d'.prioErrors = d.prioErrors
  corrupt : d'.corrupt = true ↔ d.corrupt = true ∨ h.flag ≠ .ok ∨ StuckAgainst d h
  prev : d'.prev = some ⟨h.region, h.dcol, h.address⟩
  newEvent : d'.newEvent = false
  others : d' = { d with prioErrors := d'.prioErrors, corrupt := d'.corrupt, prev := d'.prev, newEvent := d'.newEvent }

/-- A run of hits for a list of addresses, each validated after the one before it (44_hit_quality_validator.md R269,
43_bitstream_decoder.md R233, R239). -/
def RuledHits (bi ri : Nat) (ld : BitVec 4) : DecoderState → List Nat → List PixelHit → DecoderState → Prop
  | d, [], hs, d' => hs = [] ∧ d' = d
  | d, x :: xs, hs, d' =>
    ∃ h rest mid, hs = h :: rest ∧ RuledHit bi ri d ld x h ∧ RuledAfter d h mid ∧ RuledHits bi ri ld mid xs rest d'

/-- The addresses of a DATA_LONG word: a, then a + i + 1 for each set bit i of hm, i ascending (43_bitstream_decoder.md R237). -/
def clusterNumbers (a : BitVec 10) (hm : BitVec 7) : List Nat :=
  a.toNat :: ([0, 1, 2, 3, 4, 5, 6].filter (fun i => hm.toNat / 2 ^ i % 2 = 1)).map (fun i => a.toNat + i + 1)

/-! ## Frame fields -/

/-- Byte i of a buffer as a number; 0 past its end, where no rule looks. -/
def byteNumber (buf : List Byte) (i : Nat) : Nat := (buf[i]?.getD 0#8).toNat

/-- LE32 and BE32 as numbers (00_scope.md R11). -/
def le32Number (buf : List Byte) (i : Nat) : Nat :=
  byteNumber buf i + byteNumber buf (i + 1) * 2 ^ 8 + byteNumber buf (i + 2) * 2 ^ 16 + byteNumber buf (i + 3) * 2 ^ 24
def be32Number (buf : List Byte) (i : Nat) : Nat :=
  byteNumber buf i * 2 ^ 24 + byteNumber buf (i + 1) * 2 ^ 16 + byteNumber buf (i + 2) * 2 ^ 8 + byteNumber buf (i + 3)

/-- The fixed fields and the flag bits of a network frame's BoardFrameInfo (42_board_frame_parser.md R181, R183, R185). -/
structure RuledNetFlags (buf : List Byte) (info : NetInfo) : Prop where
  headerBytes : info.headerBytes = 64
  trailerBytes : info.trailerBytes = 1
  overflow : info.overflow = decide (info.blockFlags.toNat % 2 = 1)
  timeout : info.timeout = decide (info.blockFlags.toNat / 2 % 2 = 1)
  endOfRun : info.endOfRun = decide (info.blockFlags.toNat / 8 % 2 = 1)
  trailerByte : info.trailerByte.toNat = byteNumber buf (buf.length - 1)
  headerError : info.headerError = decide (info.trailerByte.toNat % 2 = 1)
  linkDecoderError : info.linkDecoderError = decide (info.trailerByte.toNat / 2 % 2 = 1)

/-- The two header words of a network frame's BoardFrameInfo (42_board_frame_parser.md R182, R184). -/
structure RuledNetWords (order : ByteOrder) (buf : List Byte) (info : NetInfo) : Prop where
  littleFlags : order = .little → info.blockFlags.toNat = le32Number buf 4
  bigFlags : order = .big → info.blockFlags.toNat = be32Number buf 4
  littleChannel : order = .little → info.channel.toNat = le32Number buf 12
  bigChannel : order = .big → info.channel.toNat = be32Number buf 12

/-- USB header word k of a buffer as a number (42_board_frame_parser.md R190). -/
def usbNumber (buf : List Byte) (k : Nat) : Nat := le32Number buf (4 * k)

/-- The BoardFrameInfo of a USB frame with an `n`-word header, n = 5 or 9 (42_board_frame_parser.md R190, R194 to R198). -/
structure RuledUsbInfo (n : Nat) (buf : List Byte) (info : UsbInfo) : Prop where
  headerWords : info.headerWords = n
  headerBytes : info.headerBytes = 4 * n
  trailerBytes : info.trailerBytes = 8
  almostFull : info.almostFull = some (decide (usbNumber buf 0 / 2 ^ 6 % 2 = 1))
  trigType : info.trigType.map BitVec.toNat = some (usbNumber buf 0 / 2 ^ 10 % 8)
  bufferDepth : info.bufferDepth.map BitVec.toNat = some (usbNumber buf 0 / 2 ^ 13 % 16)
  eventId : info.eventId.toNat = usbNumber buf 2 % 2 ^ 24 * 2 ^ 24 + usbNumber buf 1 % 2 ^ 24
  timestamp : info.timestamp.toNat = usbNumber buf 4 % 2 ^ 24 * 2 ^ 24 + usbNumber buf 3 % 2 ^ 24
  strobeCount : info.strobeCount.map BitVec.toNat = if n = 9 then some (usbNumber buf 5) else none
  chipBusyCount : info.chipBusyCount.map BitVec.toNat = if n = 9 then some (usbNumber buf 6) else none
  daqBusyCount : info.daqBusyCount.map BitVec.toNat = if n = 9 then some (usbNumber buf 7) else none
  extTriggerCount : info.extTriggerCount.map BitVec.toNat = if n = 9 then some (usbNumber buf 8) else none
  noTriggerBusy : info.triggerBusyCount = none
  eventSize : info.eventSize.toNat = le32Number buf (buf.length - 8)
  trailerMarker : info.trailerMarker.toNat = le32Number buf (buf.length - 4)

/-- Word 0 passes the mask check of 42_board_frame_parser.md R192 (1): under 0xFFFE03BF it is 8, that is bit 3 is set and of the
others only bits 6 and 10 to 16 may be. -/
def GoodWord0 (w : Nat) : Prop :=
  w % 64 = 8 ∧ w / 2 ^ 7 % 8 = 0 ∧ w / 2 ^ 17 = 0

/-- The header checks of 42_board_frame_parser.md R192 all pass. -/
def GoodUsbHeader (buf : List Byte) : Prop :=
  GoodWord0 (usbNumber buf 0) ∧ usbNumber buf 1 < 2 ^ 24 ∧ usbNumber buf 2 < 2 ^ 24 ∧ usbNumber buf 3 < 2 ^ 24 ∧
    (usbNumber buf 0 / 2 ^ 10 % 8 = 1 ∨ usbNumber buf 0 / 2 ^ 10 % 8 = 2)

/-- The header checks of 42_board_frame_parser.md R192, in order: `e` is the error of the first that fails. -/
def UsbHeaderFault (buf : List Byte) (info : UsbInfo) (e : Error) : Prop :=
  (¬ GoodWord0 (usbNumber buf 0) ∧ e = .usbHeaderWord0 (BitVec.ofNat 32 (usbNumber buf 0)) info) ∨
  (GoodWord0 (usbNumber buf 0) ∧
    ((2 ^ 24 ≤ usbNumber buf 1 ∧ e = .usbHeaderTopByte 1 (BitVec.ofNat 32 (usbNumber buf 1)) info) ∨
     (usbNumber buf 1 < 2 ^ 24 ∧
      ((2 ^ 24 ≤ usbNumber buf 2 ∧ e = .usbHeaderTopByte 2 (BitVec.ofNat 32 (usbNumber buf 2)) info) ∨
       (usbNumber buf 2 < 2 ^ 24 ∧
        ((2 ^ 24 ≤ usbNumber buf 3 ∧ e = .usbHeaderTopByte 3 (BitVec.ofNat 32 (usbNumber buf 3)) info) ∨
         (usbNumber buf 3 < 2 ^ 24 ∧ usbNumber buf 0 / 2 ^ 10 % 8 ≠ 1 ∧ usbNumber buf 0 / 2 ^ 10 % 8 ≠ 2 ∧
           e = .usbTriggerType (BitVec.ofNat 32 (usbNumber buf 0)) info)))))))

/-- The header length of a USB frame in words, for a pair the table defines (42_board_frame_parser.md R188). -/
def UsbWords (s : State) (fw ht n : Nat) : Prop :=
  (lookupHdr s.params.usbHdrWords fw ht = some .three ∧ n = 3) ∨
  (lookupHdr s.params.usbHdrWords fw ht = some .five ∧ n = 5) ∨
  (lookupHdr s.params.usbHdrWords fw ht = some .nine ∧ n = 9)

/-- The BoardFrameInfo an error carries (60_exceptions.md R291): every frame error but Truncated carries one. -/
def carriedInfo (e : Error) : Option FrameInfo :=
  match e with
  | .netTrailerError _ info => some (.net info)
  | .usbHeaderWord0 _ info => some (.usb info)
  | .usbHeaderTopByte _ _ info => some (.usb info)
  | .usbTriggerType _ info => some (.usb info)
  | .usbTrailerMarker _ info => some (.usb info)
  | _ => none

/-- The frame command DECODE_EVENT runs first (43_bitstream_decoder.md R245). -/
def frameCommand (fam : BoardFamily) (buf : List Byte) : Instr :=
  match fam with
  | .net => .decodeFrameNet buf
  | .usb fw ht => .decodeFrameUsb buf fw ht

end Sys2Proof.Machine
end

