-- ==== Sys2Proof/Certificates/Slice0/Obligations.lean ====
section
/-! DEFINITION. The statements for the provers. Each docstring names the rule or the section of spec/ it rests on; where it
rests on a choice of the spec's own (a decision D<n> of 92_eei_decisions.md) or of this model (a log entry), it says so. -/

open Sys2Proof Sys2Proof.Machine

/-! ## Encodings -/

/-- O1. Every well-formed chip word, encoded and followed by any bytes, decodes to itself and leaves those bytes (R112, R113; that
an UNKNOWN word is its one byte is the model's own, log entry 24). -/
def Obligations.ChipWordsRoundTrip : Prop :=
  ∀ (i : Instr) (bs rest : List Byte), i.wf = true → i.space = some .chip → encode i = some bs →
    decode .chip (bs ++ rest) = .ok (i, rest)

/-- O2. Every transaction header word, encoded and followed by any bytes, decodes to itself and leaves those bytes. -/
def Obligations.HeaderWordsRoundTrip : Prop :=
  ∀ (i : Instr) (bs rest : List Byte), i.space = some .header → encode i = some bs →
    decode .header (bs ++ rest) = .ok (i, rest)

/-- O3. What the chip decoder accepts is the encoding of a well-formed chip word, but for bit 7 of a DATA_LONG's third byte,
which it ignores (R117); it rejects exactly the empty payload and a word cut off by the payload's end (the lengths are R112's; that
an UNKNOWN first byte, to which R112 gives no length, is a word of one byte is the model's own, log entry 24). -/
def Obligations.ChipDecodeExact : Prop :=
  (∀ (bs rest : List Byte) (i : Instr), decode .chip bs = .ok (i, rest) →
    i.wf = true ∧ i.space = some .chip ∧
      (encode i = some (bs.take (bs.length - rest.length)) ∧ bs = bs.take (bs.length - rest.length) ++ rest ∨
        ∃ b0 b1 b2 : Byte, b0.toNat < 0x40 ∧ bs = b0 :: b1 :: b2 :: rest ∧ encode i = some [b0, b1, b2 &&& 0x7F#8])) ∧
  decode .chip [] = .error (.chip .endOfPayload) ∧
  (∀ (b0 : Byte) (tl : List Byte), tl.length + 1 < wordBytes b0.toNat →
    decode .chip (b0 :: tl) = .error (.chip (.outOfData b0))) ∧
  (∀ (b0 : Byte) (tl : List Byte), wordBytes b0.toNat ≤ tl.length + 1 →
    ∃ i, decode .chip (b0 :: tl) = .ok (i, (b0 :: tl).drop (wordBytes b0.toNat)))

/-- O4. What the header decoder accepts is the encoding of a header word of the table; it rejects fewer than four bytes,
another version than 2, and a reserved op kind, each by name (R93, R96). -/
def Obligations.HeaderDecodeExact : Prop :=
  (∀ (bs rest : List Byte) (i : Instr), decode .header bs = .ok (i, rest) →
    i.space = some .header ∧ ∃ w : Word, bs = bigEndian w ++ rest ∧ encode i = some (bigEndian w)) ∧
  (∀ bs : List Byte, bs.length < 4 → decode .header bs = .error (.header (.shortWord bs.length))) ∧
  (∀ (w : Word) (rest : List Byte), versionOf w ≠ 2 →
    decode .header (bigEndian w ++ rest) = .error (.header (.badVersion (BitVec.ofNat 4 (versionOf w))))) ∧
  (∀ (w : Word) (rest : List Byte), versionOf w = 2 → 6 ≤ kindOf w → kindOf w ≤ 14 →
    decode .header (bigEndian w ++ rest) = .error (.header (.reservedOpKind (BitVec.ofNat 4 (kindOf w))))) ∧
  (∀ (w : Word) (rest : List Byte), versionOf w = 2 → kindOf w < 6 ∨ kindOf w = 15 →
    ∃ i, decode .header (bigEndian w ++ rest) = .ok (i, rest))

/-- O5. R112: the type of a chip word is fixed by its first byte, one row of the table for each range, each range being its
pattern, and the length by the type. -/
def Obligations.ClassifierTable : Prop :=
  ∀ b0 : Byte,
    (classify b0 = .idle ↔ b0.toNat = 0xFF) ∧
    (classify b0 = .busyOn ↔ b0.toNat = 0xF1) ∧
    (classify b0 = .busyOff ↔ b0.toNat = 0xF0) ∧
    (classify b0 = .chipHeader ↔ 0xA0 ≤ b0.toNat ∧ b0.toNat ≤ 0xAF) ∧
    (classify b0 = .chipTrailer ↔ 0xB0 ≤ b0.toNat ∧ b0.toNat ≤ 0xBF) ∧
    (classify b0 = .emptyFrame ↔ 0xE0 ≤ b0.toNat ∧ b0.toNat ≤ 0xEF) ∧
    (classify b0 = .regionHeader ↔ 0xC0 ≤ b0.toNat ∧ b0.toNat ≤ 0xDF) ∧
    (classify b0 = .dataShort ↔ 0x40 ≤ b0.toNat ∧ b0.toNat ≤ 0x7F) ∧
    (classify b0 = .dataLong ↔ b0.toNat ≤ 0x3F) ∧
    (classify b0 = .unknown ↔ (0x80 ≤ b0.toNat ∧ b0.toNat ≤ 0x9F) ∨ (0xF2 ≤ b0.toNat ∧ b0.toNat ≤ 0xFE)) ∧
    (b0 &&& 0xF0#8 = 0xA0#8 ↔ 0xA0 ≤ b0.toNat ∧ b0.toNat ≤ 0xAF) ∧
    (b0 &&& 0xF0#8 = 0xB0#8 ↔ 0xB0 ≤ b0.toNat ∧ b0.toNat ≤ 0xBF) ∧
    (b0 &&& 0xF0#8 = 0xE0#8 ↔ 0xE0 ≤ b0.toNat ∧ b0.toNat ≤ 0xEF) ∧
    (b0 &&& 0xE0#8 = 0xC0#8 ↔ 0xC0 ≤ b0.toNat ∧ b0.toNat ≤ 0xDF) ∧
    (b0 &&& 0xC0#8 = 0x40#8 ↔ 0x40 ≤ b0.toNat ∧ b0.toNat ≤ 0x7F) ∧
    (b0 &&& 0xC0#8 = 0x00#8 ↔ b0.toNat ≤ 0x3F) ∧
    WordType.idle.length = 1 ∧ WordType.busyOn.length = 1 ∧ WordType.busyOff.length = 1 ∧
    WordType.chipHeader.length = 2 ∧ WordType.chipTrailer.length = 1 ∧ WordType.emptyFrame.length = 2 ∧
    WordType.regionHeader.length = 1 ∧ WordType.dataShort.length = 2 ∧ WordType.dataLong.length = 3

/-- O6. PACK is positional and UNPACK is its inverse, both ways; a header ENCODE_HEADER built unpacks to version 2, the
operands and info code 0xF (R129, R132). -/
def Obligations.PackUnpack : Prop :=
  (∀ h : HeaderFields,
    (packHeader h).toNat = h.version.toNat * 2 ^ 28 + h.wordCount.toNat * 2 ^ 16 + h.txnId.toNat * 2 ^ 8
      + h.opKind.toNat * 2 ^ 4 + h.infoCode.toNat ∧
    unpackHeader (packHeader h) = h) ∧
  (∀ w : Word, packHeader (unpackHeader w) = w) ∧
  (∀ (k : OpKind) (n t : Nat) (w : Word), encodedHeader n k.code t = .ok w →
    (unpackHeader w).version = 2#4 ∧ (unpackHeader w).wordCount.toNat = n ∧ (unpackHeader w).txnId.toNat = t ∧
      (unpackHeader w).opKind = k.code ∧ (unpackHeader w).infoCode = 0xF#4)

/-- O7. Words written out from the spec's encodings and examples decode to what they stand for (a sanity statement; that the
UNKNOWN byte is a whole word is the model's own, log entry 24). -/
def Obligations.SpecWordsDecode : Prop :=
  decode .header [0x20#8, 0x01#8, 0x05#8, 0x0F#8] = .ok (.read 1#12 5#8 15#4, []) ∧
  decode .chip [0xA0#8, 0x05#8] = .ok (.chipHeader 0#4 5#8, []) ∧
  decode .chip [0xE3#8, 0x07#8] = .ok (.emptyFrame 3#4 7#8, []) ∧
  decode .chip [0xDF#8] = .ok (.regionHeader 31#5, []) ∧
  decode .chip [0x40#8, 0x10#8] = .ok (.dataShort 0#4 0x10#10, []) ∧
  decode .chip [0x00#8, 0x20#8, 0x05#8] = .ok (.dataLong 0#4 0x20#10 5#7, []) ∧
  decode .chip [0xB0#8] = .ok (.chipTrailer 0#4, []) ∧
  decode .chip [0x80#8] = .ok (.unknown80_9F 0x80#8, [])

/-! ## transport_codec -/

/-- O8. R131: DECODE_HEADER splits any word into its five fields, checks nothing, and writes no state. -/
def Obligations.DecodeHeaderSplitsWord : Prop :=
  ∀ (w : Word) (s : State), ∃ h : HeaderFields,
    exec (.decodeHeader w) s = .next (answered s (.ok (.fields h))) ∧
    h.version.toNat = w.toNat / 2 ^ 28 ∧ h.wordCount.toNat = w.toNat / 2 ^ 16 % 2 ^ 12 ∧
    h.txnId.toNat = w.toNat / 2 ^ 8 % 2 ^ 8 ∧ h.opKind.toNat = w.toNat / 2 ^ 4 % 2 ^ 4 ∧ h.infoCode.toNat = w.toNat % 2 ^ 4

/-- O9. ENCODE_HEADER with operands in range answers OK with the word of R91, version 2 and info code 0xF, and writes no
state (R130; the range check is the spec's decision D17). -/
def Obligations.EncodeHeaderBuildsWord : Prop :=
  ∀ (k : OpKind) (n t : Nat) (s : State), n ≤ 0xFFF → t ≤ 0xFF →
    ∃ w : Word, exec (.encodeHeader n k.code t) s = .next (answered s (.ok (.header w))) ∧ w.toNat = headerNumber k n t 15

/-- O10. ENCODE_HEADER refuses an operand out of range with InvalidOperation and that operand, word count first, then op
kind, then id; no state is written (R130; decision D17). -/
def Obligations.EncodeHeaderRejects : Prop :=
  ∀ (n : Nat) (op : BitVec 4) (t : Nat) (s : State),
    (0xFFF < n → exec (.encodeHeader n op t) s = .next (answered s (.error (.invalidOperation n)))) ∧
    (n ≤ 0xFFF → 6 ≤ op.toNat → op.toNat ≤ 14 →
      exec (.encodeHeader n op t) s = .next (answered s (.error (.invalidOperation op.toNat)))) ∧
    (n ≤ 0xFFF → op.toNat < 6 ∨ op.toNat = 15 → 0xFF < t →
      exec (.encodeHeader n op t) s = .next (answered s (.error (.invalidOperation t))))

/-- O11. R96: every header the block encodes has version 2, the answer of ENCODE_HEADER and the first word of every
request; and a reply header of another version, at any record of the batch, makes EXECUTE raise VersionMismatch. -/
def Obligations.HeaderVersionIsTwo : Prop :=
  (∀ (n : Nat) (op : BitVec 4) (t : Nat) (s : State) (w : Word),
    exec (.encodeHeader n op t) s = .next (answered s (.ok (.header w))) → versionOf w = 2) ∧
  (∀ r : TxnRecord, ∃ (w : Word) (tl : List Byte), requestBytes r = bigEndian w ++ tl ∧ versionOf w = 2) ∧
  (∀ (s : State) (pairs : List (TxnRecord × List Word)) (r : TxnRecord) (later : List TxnRecord) (w : Word)
    (more : List Word) (bs : List Byte),
    s.batch = pairs.map Prod.fst ++ r :: later → RightData pairs → received s = .datagram bs →
    bs = (goodReplies pairs ++ w :: more).flatMap bigEndian → Fresh s (goodReplies pairs ++ w :: more) →
    versionOf w ≠ 2 →
    exec .execute s = .next (answered (executed s bs (storedAll pairs s.slots) s.lastId s.lastValid)
      (.error (.versionMismatch w))))

/-! ## QUEUE -/

/-- O12. A QUEUE whose operands are good and whose operation fits, alone and beside the pending batch, answers OK with the id,
appends the record, and stores the request's bytes at OUT_LEN and nothing else (R146 to R148; the layouts are the spec's
decisions D3 and D5, the id rule D50). -/
def Obligations.QueueAppendsRecord : Prop :=
  ∀ (k : OpKind) (n : Nat) (addr : Word) (wdata : List Word) (slot : Option Nat) (s : State),
    GoodOperands k n wdata → Memory.wf s.outbuf →
    requestSize k n ≤ s.params.packetBudget → replySize k n ≤ s.params.packetBudget →
    (s.batch ≠ [] → s.outLen + requestSize k n ≤ s.params.packetBudget ∧ s.inLen + replySize k n ≤ s.params.packetBudget) →
    let out := if s.batch = [] then 0 else s.outLen
    let inn := if s.batch = [] then 0 else s.inLen
    let bytes := (requestPacket k n (nextTxnId s) addr wdata).flatMap bigEndian
    ∃ ob : Memory,
      exec (.queue k.code n addr wdata slot) s = .next (answered
        { s with
          nextId := nextTxnId s + 1#8
          batch := s.batch ++ [queuedRecord k n (nextTxnId s) addr wdata slot]
          outLen := out + requestSize k n
          inLen := inn + replySize k n
          outbuf := ob } (.ok (.txnId (nextTxnId s)))) ∧
      bytes.length = requestSize k n ∧ Memory.wf ob ∧
      (∀ j, j < requestSize k n → some (Memory.read ob (out + j)) = bytes[j]?) ∧
      (∀ a, a < out ∨ out + requestSize k n ≤ a → Memory.read ob a = Memory.read s.outbuf a)

/-- O13. QUEUE refuses a reserved op kind, a word count over 0xFFF where the kind uses one, and a wrong number of write words,
in this order, with InvalidOperation, and changes no state (R141; decision D17; that the info of the third is the number of
words is log entry 15). -/
def Obligations.QueueInvalidOperation : Prop :=
  ∀ (op : BitVec 4) (n : Nat) (addr : Word) (wdata : List Word) (slot : Option Nat) (s : State),
    (6 ≤ op.toNat → op.toNat ≤ 14 →
      exec (.queue op n addr wdata slot) s = .next (answered s (.error (.invalidOperation op.toNat)))) ∧
    (op.toNat ≤ 3 → 0xFFF < n →
      exec (.queue op n addr wdata slot) s = .next (answered s (.error (.invalidOperation n)))) ∧
    (∀ k : OpKind, op = k.code → (op.toNat ≤ 3 → n ≤ 0xFFF) → ¬ GoodOperands k n wdata →
      exec (.queue op n addr wdata slot) s = .next (answered s (.error (.invalidOperation wdata.length))))

/-- O14. An operation that fits not even an empty packet, as request or as reply, is CapacityExceeded with both sizes, before
any flush, and changes no state (R142; decision D17). -/
def Obligations.QueueCapacityExceeded : Prop :=
  ∀ (k : OpKind) (n : Nat) (addr : Word) (wdata : List Word) (slot : Option Nat) (s : State),
    GoodOperands k n wdata → (s.params.packetBudget < requestSize k n ∨ s.params.packetBudget < replySize k n) →
    exec (.queue k.code n addr wdata slot) s =
      .next (answered s (.error (.capacityExceeded (requestSize k n) (replySize k n))))

/-- O15. An operation that would overflow the pending batch, as request or as reply, is queued as if EXECUTE had been run
first; an error of that flush is the QUEUE's own and the operation is not queued (R143 to R145; decision D16). -/
def Obligations.QueueFlushesFirst : Prop :=
  ∀ (k : OpKind) (n : Nat) (addr : Word) (wdata : List Word) (slot : Option Nat) (s : State),
    GoodOperands k n wdata → requestSize k n ≤ s.params.packetBudget → replySize k n ≤ s.params.packetBudget →
    s.batch ≠ [] →
    (s.params.packetBudget < s.outLen + requestSize k n ∨ s.params.packetBudget < s.inLen + replySize k n) →
    ∃ (t : State) (r : Response), exec .execute s = .next (answered t r) ∧ t.batch = [] ∧ t.rsp = s.rsp ∧
      ((r = .ok .unit ∧ exec (.queue k.code n addr wdata slot) s = exec (.queue k.code n addr wdata slot) t) ∨
       (∃ e, r = .error e ∧ exec (.queue k.code n addr wdata slot) s = .next (answered t (.error e))))

/-- O16. The first record of a pending batch never has the id of the last accepted reply: every step keeps this (R161). -/
def Obligations.StepKeepsFirstIdDistinct : Prop :=
  ∀ s t : State, FirstIdDistinct s → step s = .next t → FirstIdDistinct t

/-! ## EXECUTE -/

/-- O17. EXECUTE without a usable reply: an empty batch sends and receives nothing (R159; decision D10); a timeout drops the
batch with TransportTimeout (R158; D11); a datagram whose length is no multiple of 4, or that holds no header, drops it with
ShortReply and the length (R150; D12). No slot and no LAST register is written. What is received is the next delivery on
DGRAM_RX, or the free one of log entry 7; so in O18 to O21. -/
def Obligations.ExecuteWithoutReply : Prop :=
  (∀ s : State, s.batch = [] → exec .execute s = .next (answered s (.ok .unit))) ∧
  (∀ (s : State), s.batch ≠ [] → received s = .timeout →
    exec .execute s = .next (answered (executed s s.inbuf s.slots s.lastId s.lastValid) (.error .transportTimeout))) ∧
  (∀ (s : State) (bs : List Byte), s.batch ≠ [] → received s = .datagram bs →
    (bs.length % 4 ≠ 0 ∨ bs.length < 4) →
    exec .execute s = .next (answered (executed s bs s.slots s.lastId s.lastValid) (.error (.shortReply bs.length))))

/-- O18. A reply whose first id is LAST_ID while LAST_VALID = 1 is a duplicate: OK, the batch emptied, no slot and no LAST
register written, whatever else the reply holds (R151; decision D15). -/
def Obligations.ExecuteDuplicate : Prop :=
  ∀ (s : State) (w : Word) (more : List Word) (bs : List Byte),
    s.batch ≠ [] → received s = .datagram bs → bs = (w :: more).flatMap bigEndian →
    s.lastValid = true → idOf w = s.lastId.toNat →
    exec .execute s = .next (answered (executed s bs s.slots s.lastId s.lastValid) (.ok .unit))

/-- O19. EXECUTE with the right reply to every record of the batch, extra words after it allowed, answers OK: every slot of a
record with data words is written with them, LAST_ID is the first record's id, the batch is emptied (R152 to R157; the reply
layouts are decision D3, the extra words D9). -/
def Obligations.ExecuteAcceptsBatch : Prop :=
  ∀ (s : State) (p : TxnRecord × List Word) (pairs : List (TxnRecord × List Word)) (extra : List Word) (bs : List Byte),
    s.batch = (p :: pairs).map Prod.fst → RightData (p :: pairs) → received s = .datagram bs →
    bs = (goodReplies (p :: pairs) ++ extra).flatMap bigEndian → (s.lastValid = true → p.1.txnId ≠ s.lastId) →
    exec .execute s =
      .next (answered (executed s bs (storedAll (p :: pairs) s.slots) p.1.txnId true) (.ok .unit)) ∧
    (Slots.wf s.slots → ∀ (before after : List (TxnRecord × List Word)) (q : TxnRecord × List Word) (name : Nat),
      p :: pairs = before ++ q :: after → q.1.slot = some name → q.2 ≠ [] →
      (∀ x ∈ after, x.1.slot = some name → x.2 = []) →
      Slots.read (storedAll (p :: pairs) s.slots) name = q.2)

/-- O20. R152 and R153: record by record in the batch's order, EXECUTE checks that the reply has the header word, then its
version, then its id, then its op kind, and fails at the first that is wrong; the replies before it stand. -/
def Obligations.ExecuteChecksVersionIdKind : Prop :=
  ∀ (s : State) (pairs : List (TxnRecord × List Word)) (r : TxnRecord) (later : List TxnRecord) (bs : List Byte),
    s.batch = pairs.map Prod.fst ++ r :: later → RightData pairs → received s = .datagram bs →
    (bs = (goodReplies pairs).flatMap bigEndian → Fresh s (goodReplies pairs) →
      exec .execute s = .next (answered (executed s bs (storedAll pairs s.slots) s.lastId s.lastValid)
        (.error (.shortReply (4 * (goodReplies pairs).length))))) ∧
    (∀ (w : Word) (more : List Word) (e : Error), bs = (goodReplies pairs ++ w :: more).flatMap bigEndian →
      Fresh s (goodReplies pairs ++ w :: more) → EarlyFault w r e →
      exec .execute s = .next (answered (executed s bs (storedAll pairs s.slots) s.lastId s.lastValid) (.error e)))

/-- O21. A reply header that answers its record is then checked for its info code, its word count and its data, in this
order; the batch is dropped at the first that is wrong, the slots of earlier records stand, LAST is unchanged (R154 to R156;
the codes 8 to 15 are decision D13, the slots D14, the short data D12). -/
def Obligations.ExecuteChecksCodeCountData : Prop :=
  ∀ (s : State) (pairs : List (TxnRecord × List Word)) (r : TxnRecord) (later : List TxnRecord) (w : Word)
    (more : List Word) (bs : List Byte),
    s.batch = pairs.map Prod.fst ++ r :: later → RightData pairs → received s = .datagram bs →
    bs = (goodReplies pairs ++ w :: more).flatMap bigEndian → Fresh s (goodReplies pairs ++ w :: more) →
    (∀ e : Error, LateFault w r e →
      exec .execute s = .next (answered (executed s bs (storedAll pairs s.slots) s.lastId s.lastValid) (.error e))) ∧
    (RightHeader w r → more.length < replyData r →
      exec .execute s = .next (answered (executed s bs (storedAll pairs s.slots) s.lastId s.lastValid)
        (.error (.shortReply (4 * ((goodReplies pairs).length + 1 + replyData r))))))

/-- O22. The engine never retries. An EXECUTE on a pending batch sends the one packet and takes one delivery, from DGRAM_RX or,
with none placed there, one free one (R149, R150, R162; log entry 7); on an empty batch it sends and takes none (R159; decision
D10); a QUEUE does so at most once (R145); nothing else sends or receives (RESET draws the free LAST_ID, log entry 8). -/
def Obligations.FlushSendsOneDatagram : Prop :=
  (∀ s : State, s.batch ≠ [] → ∃ t, exec .execute s = .next t ∧
    t.tx = s.tx ++ [Memory.readBytes s.outbuf 0 s.outLen] ∧ t.rx = s.rx.tail ∧ t.draws = drawsAfterReceive s) ∧
  (∀ s : State, s.batch = [] → ∃ t, exec .execute s = .next t ∧ t.tx = s.tx ∧ t.rx = s.rx ∧ t.draws = s.draws) ∧
  (∀ (op : BitVec 4) (n : Nat) (addr : Word) (wdata : List Word) (slot : Option Nat) (s : State),
    ∃ t, exec (.queue op n addr wdata slot) s = .next t ∧
      ((t.tx = s.tx ∧ t.rx = s.rx ∧ t.draws = s.draws) ∨
        (s.batch ≠ [] ∧ t.tx = s.tx ++ [Memory.readBytes s.outbuf 0 s.outLen] ∧ t.rx = s.rx.tail ∧
          t.draws = drawsAfterReceive s))) ∧
  (∀ (i : Instr) (s t : State), i ≠ .execute → (∀ op n addr wdata slot, i ≠ .queue op n addr wdata slot) →
    exec i s = .next t → t.tx = s.tx ∧ t.rx = s.rx ∧ (i ≠ .reset → t.draws = s.draws))

/-- O23. EXECUTE always answers, and after it, OK or error, the batch is empty and both lengths are 0; an error leaves the LAST
registers; a slot no record names keeps its words; the other registers keep their values (R163; R160). -/
def Obligations.ExecuteEmptiesBatch : Prop :=
  ∀ s : State, EngineInv s → ∃ (t : State) (r : Response),
    exec .execute s = .next (answered t r) ∧
    (r = .ok .unit ∨ ∃ e, r = .error e ∧ t.lastId = s.lastId ∧ t.lastValid = s.lastValid) ∧
    t = { s with
          lastId := t.lastId
          lastValid := t.lastValid
          batch := []
          outLen := 0
          inLen := 0
          inbuf := t.inbuf
          recIdx := t.recIdx
          wordPos := t.wordPos
          slots := t.slots
          tx := t.tx
          rx := t.rx
          draws := t.draws } ∧
    (∀ name, (∀ r ∈ s.batch, r.slot ≠ some name) → Slots.read t.slots name = Slots.read s.slots name)

/-! ## Reply headers as words -/

/-- O24. Each of the seven header words, as the reply to the record whose turn it is, with the record's count and id, info code
SUCCESS and the data words after it in INBUF, resolves the record: its info code and state, its slot, and the walk's place
(R101, R152 to R155). -/
def Obligations.ReplyHeaderResolves : Prop :=
  ∀ (s : State) (r : TxnRecord) (i : Instr) (before data after : List Word) (w : Word),
    s.batch[s.recIdx]? = some r →
    ((i = .read r.wordCount r.txnId 0#4 ∧ r.opKind = .read) ∨ (i = .write r.wordCount r.txnId 0#4 ∧ r.opKind = .write) ∨
      (i = .niRead r.wordCount r.txnId 0#4 ∧ r.opKind = .niRead) ∨
      (i = .niWrite r.wordCount r.txnId 0#4 ∧ r.opKind = .niWrite) ∨
      (i = .rmwBits r.wordCount r.txnId 0#4 ∧ r.opKind = .rmwBits) ∨
      (i = .rmwSum r.wordCount r.txnId 0#4 ∧ r.opKind = .rmwSum) ∨
      (i = .idleTxn r.wordCount r.txnId 0#4 ∧ r.opKind = .idle)) →
    s.inbuf = (before ++ w :: data ++ after).flatMap bigEndian → before.length = s.wordPos → data.length = replyData r →
    exec i s = .next
      { s with
        batch := s.batch.set s.recIdx { r with infoCode := some 0#4, state := .resolved }
        slots := if data = [] then s.slots else match r.slot with
          | none => s.slots
          | some name => Slots.write s.slots name data
        recIdx := s.recIdx + 1
        wordPos := s.wordPos + 1 + replyData r }

/-- O25. A header word that is not the right reply to the record whose turn it is drops the batch with the error of the first
check it fails; with no record left it changes nothing (R152 to R157; that a word after the last record is ignored is
decision D9, and log entry 11). -/
def Obligations.ReplyHeaderFails : Prop :=
  ∀ (s : State) (i : Instr) (w : Word), i.space = some .header → encode i = some (bigEndian w) →
    (s.batch[s.recIdx]? = none → exec i s = .next s) ∧
    (∀ (r : TxnRecord) (e : Error), s.batch[s.recIdx]? = some r → EarlyFault w r e ∨ LateFault w r e →
      exec i s = .next (walkFailed s e)) ∧
    (∀ (r : TxnRecord) (ws : List Word), s.batch[s.recIdx]? = some r → RightHeader w r → s.inbuf = ws.flatMap bigEndian →
      ws.length < s.wordPos + 1 + replyData r →
      exec i s = .next (walkFailed s (.shortReply (4 * (s.wordPos + 1 + replyData r)))))

/-- O26. A reply walked word by word, each reply header one step, ends where EXECUTE ends in one (R149 to R157; the two ways of
running a FLUSH are the model's own, log entry 2; the reply is the next delivery or the free one, log entry 7). -/
def Obligations.ReplyWalkIsExecute : Prop :=
  ∀ (s : State) (w : Word) (more : List Word) (bs : List Byte),
    s.batch ≠ [] → s.activity = .command → s.resume = none → received s = .datagram bs →
    bs = (w :: more).flatMap bigEndian → Fresh s (w :: more) →
    ∃ k, k ≤ s.batch.length + 1 ∧
      runSteps k
        { s with
          activity := .reply
          tx := s.tx ++ [Memory.readBytes s.outbuf 0 s.outLen]
          rx := s.rx.tail
          draws := drawsAfterReceive s
          inbuf := bs
          recIdx := 0
          wordPos := 0 } = exec .execute s

/-! ## RESET -/

/-- O27. RESET answers OK with NEXT_ID at RESET_TXID, LAST_VALID 0, no batch, no lengths and empty buffers; slots, ports,
parameters and the decoder stay; LAST_ID may be anything (R320 to R323; decisions D7, D8 and D55; the free value is log
entry 8). -/
def Obligations.ResetEffect : Prop :=
  ∀ s : State, ∃ (anyId : Byte) (n : Nat), exec .reset s = .next (answered
    { s with
      nextId := s.params.resetTxid
      lastId := anyId
      lastValid := false
      batch := []
      outLen := 0
      inLen := 0
      outbuf := []
      inbuf := []
      recIdx := 0
      wordPos := 0
      resume := none
      activity := .command
      draws := n } (.ok .unit))

/-- O28. The state after reset: the engine registers of R53, the decoder of R54, the parameters of R8, nothing sent, delivered
or issued; NEXT_ID is RESET_TXID whatever the parameters are; N_HOSTS is at least 1, and it and the two OPEN tables are the
uninterpreted constants of the run (the values the spec's decisions D7 and D8 and the model's log entries 4, 5, 7, 9, 10, 12, 14
and 16 give; of LAST_ID nothing is said). -/
def Obligations.ResetStateValues : Prop :=
  (∀ p : Params, (State.resetFor p).params = p ∧ (State.resetFor p).nextId = p.resetTxid ∧
    (State.resetFor p).lastValid = false ∧ (State.resetFor p).batch = []) ∧
  State.reset = State.resetFor State.reset.params ∧ 1 ≤ State.reset.params.nHosts ∧
  State.reset.params.usbHdrWords = Config.usbHdrWords ∧ State.reset.params.legacy3Fw = Config.legacy3Fw ∧
  State.reset.params.nHosts = Config.nHosts ∧
  State.reset.nextId = 0#8 ∧ State.reset.lastValid = false ∧ State.reset.batch = [] ∧ State.reset.outLen = 0 ∧
  State.reset.inLen = 0 ∧ State.reset.outbuf = [] ∧ State.reset.inbuf = [] ∧
  State.reset.decoder = ⟨0, false, false, false, none, none, false, none, 0, none, none⟩ ∧
  State.reset.params.packetBudget = 1400 ∧ State.reset.params.netWordOrder = .little ∧
  State.reset.params.resetTxid = 0#8 ∧ State.reset.slots = [] ∧ State.reset.cmd = [] ∧ State.reset.rsp = [] ∧
  State.reset.tx = [] ∧ State.reset.rx = [] ∧ State.reset.hits = [] ∧ State.reset.evts = []

/-! ## Chip words -/

/-- O29. R223, R224 and R225: IDLE, BUSY_ON and BUSY_OFF are the one-byte words 0xFF, 0xF1 and 0xF0; in every state they only
advance CURSOR by 1; a payload of IDLE bytes alone ends NOT_STARTED. -/
def Obligations.IdleAndBusyWords : Prop :=
  (∀ rest : List Byte, decode .chip (0xFF#8 :: rest) = .ok (.idle, rest) ∧
    decode .chip (0xF1#8 :: rest) = .ok (.busyOn, rest) ∧ decode .chip (0xF0#8 :: rest) = .ok (.busyOff, rest)) ∧
  (∀ (i : Instr) (s : State), i = .idle ∨ i = .busyOn ∨ i = .busyOff →
    exec i s = .next { s with decoder := { s.decoder with cursor := s.decoder.cursor + 1 } }) ∧
  (∀ (n bi ri : Nat) (s : State), ∃ (t : State) (record : StreamRecord),
    exec (.decodeChipStream (List.replicate n 0xFF#8) bi ri) s = .next t ∧ t.hits = s.hits ∧
    t.rsp = s.rsp ++ [⟨s.caller, .error (.chipStream .notStarted record)⟩] ∧ record.verdict = .notStarted ∧
    record.success = false ∧ record.cursor = n ∧ record.started = false)

/-- O30. CHIP_HEADER and EMPTY_FRAME, in every state, set STARTED, FINISHED, CHIP and BUNCH and advance CURSOR by 2; only
CHIP_HEADER sets NEW_EVENT; all else stays (R226, R227; decisions D30 and D51). -/
def Obligations.ChipHeaderAndEmptyFrame : Prop :=
  ∀ (c : BitVec 4) (bc : BitVec 8) (s : State),
    exec (.chipHeader c bc) s = .next
      { s with decoder :=
        { s.decoder with
          started := true
          finished := false
          chip := some c
          bunch := some bc
          newEvent := true
          cursor := s.decoder.cursor + 2 } } ∧
    exec (.emptyFrame c bc) s = .next
      { s with decoder :=
        { s.decoder with
          started := true
          finished := true
          chip := some c
          bunch := some bc
          cursor := s.decoder.cursor + 2 } }

/-- O31. CHIP_TRAILER closes an open chip, and aborts the decode when none was started or the event is finished (R228; that the
flags do not change the verdict is decision D38). -/
def Obligations.ChipTrailerCases : Prop :=
  ∀ (f : BitVec 4) (s : State),
    (s.decoder.started = false →
      exec (.chipTrailer f) s = .next (decodeEnded s (.trailerBeforeHeader s.decoder.cursor))) ∧
    (s.decoder.started = true → s.decoder.finished = true →
      exec (.chipTrailer f) s = .next (decodeEnded s (.trailerAfterFinished s.decoder.cursor))) ∧
    (s.decoder.started = true → s.decoder.finished = false →
      exec (.chipTrailer f) s = .next
        { s with decoder :=
          { s.decoder with
            trlFlags := some f
            finished := true
            chip := none
            cursor := s.decoder.cursor + 1 } })

/-- O32. R229: REGION_HEADER, the one-byte word 110rrrrr, sets REGION once a chip was started, finished or not and whatever
region came before, and otherwise aborts with REGION_BEFORE_HEADER. -/
def Obligations.RegionHeaderCases : Prop :=
  ∀ (r : BitVec 5) (s : State) (rest : List Byte) (b0 : Byte),
    (b0.toNat = 0xC0 + r.toNat → decode .chip (b0 :: rest) = .ok (.regionHeader r, rest)) ∧
    (s.decoder.started = false → AbortsWith (.regionHeader r) s (.regionBeforeHeader s.decoder.cursor)) ∧
    (s.decoder.started = true →
      exec (.regionHeader r) s = .next
        { s with decoder := { s.decoder with region := some r, cursor := s.decoder.cursor + 1 } })

/-- O33. R230: a data word before STARTED aborts with DATA_BEFORE_HEADER; with STARTED it is accepted, and with CHIP = NONE, as
after a CHIP_TRAILER, each of its hits is one of an illegal chip. -/
def Obligations.DataWordsNeedStarted : Prop :=
  ∀ (i : Instr) (s : State), (∃ ld a, i = .dataShort ld a) ∨ (∃ ld a hm, i = .dataLong ld a hm) →
    (s.decoder.started = false → AbortsWith i s (.dataBeforeHeader s.decoder.cursor)) ∧
    (s.decoder.started = true → ∃ (d : DecoderState) (hs : List PixelHit),
      exec i s = .next { s with decoder := d, hits := s.hits ++ hs } ∧ hs ≠ [] ∧
      (s.decoder.chip = none → ∀ h ∈ hs, h.flag = .badChipId))

/-- O34. DATA_SHORT in a started event emits the one hit the validator's rules demand, updates the stuck and corruption state by
them, and advances CURSOR by 2 (R231 to R236, R260 to R269; the spec's decisions D31 to D35 and D41). -/
def Obligations.DataShortEmitsRuledHit : Prop :=
  ∀ (ld : BitVec 4) (a : BitVec 10) (s : State), s.decoder.started = true →
    ∃ (h : PixelHit) (d : DecoderState),
      RuledHit s.boardIndex s.rcvIndex s.decoder ld a.toNat h ∧ RuledAfter s.decoder h d ∧
      exec (.dataShort ld a) s = .next
        { s with decoder := { d with cursor := s.decoder.cursor + 2 }, hits := s.hits ++ [h] }

/-- O35. DATA_LONG in a started event emits a hit for its base address and for each set bit of its hit map, each one validated
after the one before it, and advances CURSOR by 3 (R231 to R239, R260 to R269; decisions D31 to D35 and D41). -/
def Obligations.DataLongEmitsRuledHits : Prop :=
  ∀ (ld : BitVec 4) (a : BitVec 10) (hm : BitVec 7) (s : State), s.decoder.started = true →
    ∃ (hs : List PixelHit) (d : DecoderState),
      RuledHits s.boardIndex s.rcvIndex ld s.decoder (clusterNumbers a hm) hs d ∧
      exec (.dataLong ld a hm) s = .next
        { s with decoder := { d with cursor := s.decoder.cursor + 3 }, hits := s.hits ++ hs }

/-- O36. R238: the hits of a DATA_LONG are the base address and then a + i + 1 for each set bit i, ascending; they share chip,
region and double column; there are 1 + popcount of them, 1 to 8. (With an illegal chip every address is forced, decision
D33; the addresses are stated for a legal one.) -/
def Obligations.ClusterOrder : Prop :=
  ∀ (ld : BitVec 4) (a : BitVec 10) (hm : BitVec 7) (s : State), s.decoder.started = true →
    ∃ (hs : List PixelHit) (d : DecoderState),
      exec (.dataLong ld a hm) s = .next { s with decoder := d, hits := s.hits ++ hs } ∧
      hs.length = 1 + ([0, 1, 2, 3, 4, 5, 6].filter (fun i => hm.toNat / 2 ^ i % 2 = 1)).length ∧
      1 ≤ hs.length ∧ hs.length ≤ 8 ∧
      (∀ x ∈ hs, ∀ y ∈ hs, x.chipId = y.chipId ∧ x.region = y.region ∧ x.dcol = y.dcol) ∧
      (∀ x ∈ hs, x.region = s.decoder.region) ∧
      (∀ c, s.decoder.chip = some c → c ≠ 15#4 →
        hs.map (fun h => h.address.toNat) = clusterNumbers a hm ∧ ∀ x ∈ hs, x.chipId = c)

/-- O37. Each of the 45 first bytes of no word type is an UNKNOWN word of its row, and aborts the decode at its own offset
with UNKNOWN_WORD, in every state (R116, R241; the six rows are R121's, decision D2; that such a word is one byte long is the
model's own, log entry 24). -/
def Obligations.UnknownWordAborts : Prop :=
  (∀ (b0 : Byte) (rest : List Byte),
    (0x80 ≤ b0.toNat → b0.toNat ≤ 0x9F → decode .chip (b0 :: rest) = .ok (.unknown80_9F b0, rest)) ∧
    (0xF2 ≤ b0.toNat → b0.toNat ≤ 0xF3 → decode .chip (b0 :: rest) = .ok (.unknownF2_F3 b0, rest)) ∧
    (0xF4 ≤ b0.toNat → b0.toNat ≤ 0xF7 → decode .chip (b0 :: rest) = .ok (.unknownF4_F7 b0, rest)) ∧
    (0xF8 ≤ b0.toNat → b0.toNat ≤ 0xFB → decode .chip (b0 :: rest) = .ok (.unknownF8_FB b0, rest)) ∧
    (0xFC ≤ b0.toNat → b0.toNat ≤ 0xFD → decode .chip (b0 :: rest) = .ok (.unknownFC_FD b0, rest)) ∧
    (b0.toNat = 0xFE → decode .chip (b0 :: rest) = .ok (.unknownFE b0, rest))) ∧
  (∀ (b0 : Byte) (i : Instr) (s : State),
    i = .unknown80_9F b0 ∨ i = .unknownF2_F3 b0 ∨ i = .unknownF4_F7 b0 ∨ i = .unknownF8_FB b0 ∨ i = .unknownFC_FD b0 ∨
      i = .unknownFE b0 →
    AbortsWith i s (.unknownWord s.decoder.cursor b0))

/-! ## Decoding a payload -/

/-- O38. A word whose bytes run past the payload's end ends the decode with OUT_OF_DATA, its offset and its first byte, before
its own rule runs (R222; decision D29; a step at a chip word is the model's own word-by-word run, log entry 2). -/
def Obligations.CutOffWordEndsDecode : Prop :=
  ∀ (s : State) (b0 : Byte) (tl : List Byte), s.activity = .stream → s.payload.drop s.decoder.cursor = b0 :: tl →
    tl.length + 1 < wordBytes b0.toNat →
    step s = .next (decodeEnded s (.outOfData s.decoder.cursor b0))

/-- O39. At the payload's end the verdict is SUCCESS, UNFINISHED, NOT_STARTED or CORRUPT by STARTED, FINISHED and CORRUPT,
UNFINISHED before CORRUPT (R242; decision D53; a step at the payload's end is the model's own word-by-word run, log entry 2). -/
def Obligations.EndOfPayloadVerdict : Prop :=
  ∀ s : State, s.activity = .stream → s.payload.length ≤ s.decoder.cursor →
    (s.decoder.started = true → s.decoder.finished = true → s.decoder.corrupt = false →
      step s = .next (decodeEnded s .success)) ∧
    (s.decoder.started = true → s.decoder.finished = false → step s = .next (decodeEnded s .unfinished)) ∧
    (s.decoder.started = false → step s = .next (decodeEnded s .notStarted)) ∧
    (s.decoder.started = true → s.decoder.finished = true → s.decoder.corrupt = true →
      step s = .next (decodeEnded s .corrupt))

/-- O40. What DECODE_CHIP_STREAM emits, returns and leaves in the decoder is the same from every state; it answers OK exactly
when the verdict is SUCCESS, and writes no engine register (R243, R244). -/
def Obligations.DecodeStreamDependsOnOperands : Prop :=
  ∀ (p : List Byte) (bi ri : Nat), ∃ (hs : List PixelHit) (d : DecoderState) (record : StreamRecord) (r : Response),
    (∀ s : State, exec (.decodeChipStream p bi ri) s = .next (answered
      { s with decoder := d, payload := p, boardIndex := bi, rcvIndex := ri, hits := s.hits ++ hs } r)) ∧
    record = ⟨decide (record.verdict = .success), record.verdict, d.cursor, d.started, d.finished, d.corrupt, d.prioErrors,
      d.chip, d.bunch, d.trlFlags⟩ ∧
    ((record.verdict = .success ∧ r = .ok (.stream record)) ∨
      (record.verdict ≠ .success ∧ r = .error (.chipStream record.verdict record)))

/-- O41. A payload run word by word, one step for each word and one for the end, from the DecoderState of R54, ends where
DECODE_CHIP_STREAM ends in one step (R221, R243; the two ways of running a decode are the model's own, log entry 2). -/
def Obligations.StreamWalkIsDecode : Prop :=
  ∀ (p : List Byte) (bi ri : Nat) (s : State), s.activity = .command → s.event = none →
    ∃ k, k ≤ p.length + 1 ∧
      runSteps k
        { s with
          activity := .stream
          payload := p
          boardIndex := bi
          rcvIndex := ri
          decoder := ⟨0, false, false, false, none, none, false, none, 0, none, none⟩ } =
      exec (.decodeChipStream p bi ri) s

/-- O42. With a legal chip no hit of a cluster is stuck against another hit of the same cluster: after the first hit none is
flagged STUCK and at most one detection is counted (R239). -/
def Obligations.ClusterNotStuckInside : Prop :=
  ∀ (ld : BitVec 4) (a : BitVec 10) (hm : BitVec 7) (s : State) (c : BitVec 4),
    s.decoder.started = true → s.decoder.chip = some c → c ≠ 15#4 →
    ∃ (h : PixelHit) (more : List PixelHit) (t : State), exec (.dataLong ld a hm) s = .next t ∧
      t.hits = s.hits ++ h :: more ∧ (∀ x ∈ more, x.flag ≠ .stuck) ∧
      t.decoder.prioErrors ≤ s.decoder.prioErrors + 1

/-- O43. Stuck detection across words: the first hit after a CHIP_HEADER is not compared; a hit at an address not above the
previous hit's in the same region and double column is STUCK, counted, and makes the event corrupt; a higher one is OK (R266
to R268; decisions D34 and D35). -/
def Obligations.StuckDetection : Prop :=
  ∀ (ld : BitVec 4) (a b : BitVec 10) (c : BitVec 4) (bc : BitVec 8) (r : BitVec 5) (s t u v : State),
    c ≠ 15#4 → s.decoder.region = some r →
    exec (.chipHeader c bc) s = .next t → exec (.dataShort ld a) t = .next u → exec (.dataShort ld b) u = .next v →
    ∃ h g : PixelHit, u.hits = s.hits ++ [h] ∧ v.hits = s.hits ++ [h, g] ∧
      h.flag = .ok ∧ u.decoder.prioErrors = s.decoder.prioErrors ∧ u.decoder.corrupt = s.decoder.corrupt ∧
      (b.toNat ≤ a.toNat →
        g.flag = .stuck ∧ v.decoder.prioErrors = s.decoder.prioErrors + 1 ∧ v.decoder.corrupt = true) ∧
      (a.toNat < b.toNat →
        g.flag = .ok ∧ v.decoder.prioErrors = s.decoder.prioErrors ∧ v.decoder.corrupt = s.decoder.corrupt)

/-! ## Invariants -/

/-- O44. Every hit on HIT keeps within what the validator can produce: every step keeps this (R49, R50, R270). -/
def Obligations.StepKeepsHitInv : Prop :=
  ∀ s t : State, (∀ h ∈ s.hits, HitInv h) → step s = .next t → ∀ h ∈ t.hits, HitInv h

/-- O45. The decoder's invariant is kept by every step: CURSOR inside the payload, no finished event that was not started,
nothing seen before STARTED, and a counted detection only in a corrupt event (R41, R246, R54, R268). -/
def Obligations.StepKeepsDecoderInv : Prop :=
  ∀ s t : State, DecoderInv s → step s = .next t → DecoderInv t

/-- O46. The engine's invariant is kept by every step: OUT_LEN and IN_LEN are the packet sizes of BATCH and within the budget,
OUTBUF holds the packet, the byte spaces are canonical, the records are well formed (R26 to R28, R143). -/
def Obligations.StepKeepsEngineInv : Prop :=
  ∀ s t : State, EngineInv s → step s = .next t → EngineInv t

/-- O47. The state after reset meets every invariant, whatever the parameters of the run are. -/
def Obligations.ResetMeetsInvariants : Prop :=
  (∀ p : Params, EngineInv (State.resetFor p) ∧ FirstIdDistinct (State.resetFor p) ∧ DecoderInv (State.resetFor p) ∧
    ∀ h ∈ (State.resetFor p).hits, HitInv h) ∧
  EngineInv State.reset ∧ FirstIdDistinct State.reset ∧ DecoderInv State.reset ∧ ∀ h ∈ State.reset.hits, HitInv h

/-! ## Frames -/

/-- O48. A network frame with room for header and trailer has a header of 64 bytes and a trailer of 1, the payload
from 64 to the byte before the last, and the two error flags in its last byte. It is valid exactly when that byte is 0, else
NetTrailerError with it; the BoardFrameInfo comes with both, its three named block flags among its fields (R181 to R187; the
header words of the info are O49's; decision D18). -/
def Obligations.NetFrameVerdict : Prop :=
  ∀ (buf : List Byte) (s : State), 65 ≤ buf.length → ∃ info : NetInfo, RuledNetFlags buf info ∧
    (byteNumber buf (buf.length - 1) = 0 →
      exec (.decodeFrameNet buf) s = .next (answered s (.ok (.frame (.net info) 64 (buf.length - 1))))) ∧
    (byteNumber buf (buf.length - 1) ≠ 0 →
      exec (.decodeFrameNet buf) s = .next (answered s (.error (.netTrailerError info.trailerByte info))))

/-- O49. The header words of a network frame are read in NET_WORD_ORDER at bytes 4 and 12, and a shorter buffer is Truncated
(R180, R182, R184; decisions D18 to D20). -/
def Obligations.NetFrameWords : Prop :=
  ∀ (buf : List Byte) (s : State),
    (buf.length < 65 → exec (.decodeFrameNet buf) s = .next (answered s (.error (.truncated buf.length)))) ∧
    (65 ≤ buf.length → ∃ info : NetInfo, RuledNetWords s.params.netWordOrder buf info ∧
      (exec (.decodeFrameNet buf) s = .next (answered s (.ok (.frame (.net info) 64 (buf.length - 1)))) ∨
        exec (.decodeFrameNet buf) s = .next (answered s (.error (.netTrailerError info.trailerByte info)))))

/-- O50. A USB frame with a 5- or 9-word header that passes the header checks and has the marker is OK, with the fields of R194
to R198 and the payload between header and trailer (R190 to R199; decisions D23 to D27). -/
def Obligations.UsbFrameAccepted : Prop :=
  ∀ (buf : List Byte) (fw ht n : Nat) (s : State), UsbWords s fw ht n → n ≠ 3 → 4 * n + 8 ≤ buf.length →
    GoodUsbHeader buf → le32Number buf (buf.length - 4) = 0xBFBFBFBF →
    ∃ info : UsbInfo, RuledUsbInfo n buf info ∧
      exec (.decodeFrameUsb buf fw ht) s = .next (answered s (.ok (.frame (.usb info) (4 * n) (buf.length - 8))))

/-- O51. A USB frame with a 3-word header, for a firmware version whose field decode is defined, is OK if it has the marker,
without a header check; the fields the parameter does not give are NONE, and nothing is said of those it gives beyond
that they are its value for the three words (R193; decision D22; log entries 5 and 6). -/
def Obligations.UsbLegacyFrameAccepted : Prop :=
  ∀ (buf : List Byte) (fw ht : Nat) (s : State), UsbWords s fw ht 3 → fw ∈ s.params.legacy3Fw → 20 ≤ buf.length →
    le32Number buf (buf.length - 4) = 0xBFBFBFBF →
    let f := Config.usbLegacy3Decode fw (BitVec.ofNat 32 (usbNumber buf 0)) (BitVec.ofNat 32 (usbNumber buf 1))
      (BitVec.ofNat 32 (usbNumber buf 2))
    exec (.decodeFrameUsb buf fw ht) s = .next (answered s (.ok (.frame (.usb
      { headerWords := 3, headerBytes := 12, trailerBytes := 8, almostFull := none, trigType := none, bufferDepth := none,
        eventId := f.eventId, timestamp := f.timestamp, strobeCount := some f.strobeCount, chipBusyCount := none,
        daqBusyCount := none, extTriggerCount := none, triggerBusyCount := some f.triggerBusyCount,
        eventSize := BitVec.ofNat 32 (le32Number buf (buf.length - 8)),
        trailerMarker := 0xBFBFBFBF#32 }) 12 (buf.length - 8))))

/-- O52. The five checks of a 5- or 9-word header are made in the order of R192, before the trailer's, and the first that fails is
the error, with the word and the BoardFrameInfo (R192; decision D26). -/
def Obligations.UsbHeaderChecksInOrder : Prop :=
  ∀ (buf : List Byte) (fw ht n : Nat) (s : State), UsbWords s fw ht n → n ≠ 3 → 4 * n + 8 ≤ buf.length →
    ∃ info : UsbInfo, RuledUsbInfo n buf info ∧
      ∀ e : Error, UsbHeaderFault buf info e → exec (.decodeFrameUsb buf fw ht) s = .next (answered s (.error e))

/-- O53. R197: for every header length, a USB frame is accepted only with the marker 0xBFBFBFBF in trailer word 1, which the
info reports, and a frame that fails nothing before it is UsbTrailerMarker with that word otherwise. -/
def Obligations.UsbTrailerMarkerChecked : Prop :=
  (∀ (buf : List Byte) (fw ht lo hi : Nat) (info : UsbInfo) (s : State),
    exec (.decodeFrameUsb buf fw ht) s = .next (answered s (.ok (.frame (.usb info) lo hi))) →
    le32Number buf (buf.length - 4) = 0xBFBFBFBF ∧ info.trailerMarker = 0xBFBFBFBF#32) ∧
  (∀ (buf : List Byte) (fw ht n : Nat) (s : State), UsbWords s fw ht n → 4 * n + 8 ≤ buf.length →
    (n = 3 → fw ∈ s.params.legacy3Fw) → (n ≠ 3 → GoodUsbHeader buf) →
    le32Number buf (buf.length - 4) ≠ 0xBFBFBFBF →
    ∃ info : UsbInfo, info.trailerMarker = BitVec.ofNat 32 (le32Number buf (buf.length - 4)) ∧
      exec (.decodeFrameUsb buf fw ht) s = .next (answered s (.error (.usbTrailerMarker
        (BitVec.ofNat 32 (le32Number buf (buf.length - 4))) info))))

/-- O54. DECODE_FRAME_USB looks up the header length first and refuses a pair the table does not define; then a buffer too short
for header and trailer is Truncated; then a 3-word header whose field decode is undefined is refused (R188, R190, R193, R295;
decisions D21, D22 and D28). -/
def Obligations.UsbRefusalsAndTruncation : Prop :=
  ∀ (buf : List Byte) (fw ht : Nat) (s : State),
    ((∀ row ∈ s.params.usbHdrWords, ¬ (row.fw = fw ∧ row.ht = ht)) →
      exec (.decodeFrameUsb buf fw ht) s = .refused (.unknownHeaderLayout fw ht)) ∧
    (∀ n, UsbWords s fw ht n → buf.length < 4 * n + 8 →
      exec (.decodeFrameUsb buf fw ht) s = .next (answered s (.error (.truncated buf.length)))) ∧
    (UsbWords s fw ht 3 → 20 ≤ buf.length → fw ∉ s.params.legacy3Fw →
      exec (.decodeFrameUsb buf fw ht) s = .refused (.legacy3Undefined fw))

/-- O55. DECODE_EVENT is its frame command and, if that is OK, DECODE_CHIP_STREAM on the payload bytes it reports, with one EVT
either way and none at a refusal; on a frame its family accepts it always runs to that end (R245; decision D40). At a frame
error EVT has the BoardFrameInfo the error carries, none exactly for Truncated, and no decoder record (log entry 20). -/
def Obligations.DecodeEventPipeline : Prop :=
  ∀ (fam : BoardFamily) (buf : List Byte) (bi ri : Nat) (s : State),
    (∀ why, exec (frameCommand fam buf) s = .refused why → exec (.decodeEvent fam buf bi ri) s = .refused why) ∧
    (∀ e, exec (frameCommand fam buf) s = .next (answered s (.error e)) →
      exec (.decodeEvent fam buf bi ri) s = .next (answered
        { s with evts := s.evts ++ [⟨false, some e, carriedInfo e, none⟩] } (.error e)) ∧
      (carriedInfo e = none ↔ ∃ n, e = .truncated n)) ∧
    (∀ info lo hi, exec (frameCommand fam buf) s = .next (answered s (.ok (.frame info lo hi))) →
      ∃ (u : State) (record : StreamRecord),
        exec (.decodeChipStream ((buf.take hi).drop lo) bi ri) s = .next u ∧
        (u.rsp = s.rsp ++ [⟨s.caller, .ok (.stream record)⟩] ∨
          ∃ v, u.rsp = s.rsp ++ [⟨s.caller, .error (.chipStream v record)⟩]) ∧
        exec (.decodeEvent fam buf bi ri) s = .next
          { u with evts := s.evts ++ [⟨record.success, none, some info, some record⟩] }) ∧
    ((fam = .net ∧ 65 ≤ buf.length ∧ byteNumber buf (buf.length - 1) = 0) ∨
      (∃ fw ht n, fam = .usb fw ht ∧ UsbWords s fw ht n ∧ 4 * n + 8 ≤ buf.length ∧
        (n = 3 → fw ∈ s.params.legacy3Fw) ∧ (n ≠ 3 → GoodUsbHeader buf) ∧
        le32Number buf (buf.length - 4) = 0xBFBFBFBF) →
      ∃ (t : State) (info : FrameInfo) (record : StreamRecord) (r : Response),
        exec (.decodeEvent fam buf bi ri) s = .next t ∧ t.rsp = s.rsp ++ [⟨s.caller, r⟩] ∧
        t.evts = s.evts ++ [⟨record.success, none, some info, some record⟩])

/-! ## The step -/

/-- O56. A step runs the decoded instruction: the command that is first on CMD with its caller, one of the N_HOSTS, noted, the
chip word at CURSOR, or the reply header of the record whose turn it is; a table word placed by withFetchWord is run next; with no command the
state stays, and what is no command, or comes from no caller, faults (the model's own, log entries 1, 2, 13 and 16; R221, R152,
R78). -/
def Obligations.StepRunsFetched : Prop :=
  (∀ (s : State) (c : Cmd) (rest : List Cmd), s.activity = .command → s.cmd = c :: rest →
    (c.instr.isCommand = true → c.caller < s.params.nHosts →
      step s = exec c.instr { s with cmd := rest, caller := c.caller }) ∧
    (c.instr.isCommand = true → s.params.nHosts ≤ c.caller → step s = .fault (.noSuchCaller c.caller)) ∧
    (c.instr.isCommand = false → step s = .fault (.notACommand c.instr))) ∧
  (∀ s : State, s.activity = .command → s.cmd = [] → step s = .next s) ∧
  (∀ (s : State) (i : Instr) (rest : List Byte), s.activity = .stream →
    decode .chip (s.payload.drop s.decoder.cursor) = .ok (i, rest) → step s = exec i s) ∧
  (∀ (s : State) (i : Instr) (r : TxnRecord) (before after : List Word) (w : Word), s.activity = .reply →
    s.batch[s.recIdx]? = some r → s.inbuf = (before ++ w :: after).flatMap bigEndian → before.length = s.wordPos →
    decode .header (bigEndian w) = .ok (i, []) → step s = exec i s) ∧
  (∀ (s : State) (nbits w : Nat) (i : Instr), decodeTableWord nbits w = some i →
    step (s.withFetchWord nbits w) = exec i (s.withFetchWord nbits w))

/-- O57. R13: every command ends in exactly one of three outcomes, OK or a typed error, as one message to its caller, or a
refusal; a refusal is one of the two the spec names. -/
def Obligations.OneOutcomePerCommand : Prop :=
  ∀ (i : Instr) (s : State), i.isCommand = true →
    ((∃ (t : State) (v : OkValue), exec i s = .next t ∧ t.rsp = s.rsp ++ [⟨s.caller, .ok v⟩]) ∨
      (∃ (t : State) (e : Error), exec i s = .next t ∧ t.rsp = s.rsp ++ [⟨s.caller, .error e⟩]) ∨
      (∃ fw ht, exec i s = .refused (.unknownHeaderLayout fw ht)) ∨ (∃ fw, exec i s = .refused (.legacy3Undefined fw)))

/-- O58. The codec and the decoders share no state with the engine: their commands leave every engine register, the slots and
the datagram ports alone, and the engine's commands leave the decoder, HIT and EVT alone; so do the reply headers, and a chip
word writes the decoder and HIT alone or ends the decode (R33, R34, R304, R322, R336; at an abort R240, decision D36). -/
def Obligations.UnitsShareNoState : Prop :=
  (∀ (i : Instr) (s t : State), i.isCommand = true → i ≠ .execute → i ≠ .reset →
    (∀ op n addr wdata slot, i ≠ .queue op n addr wdata slot) → exec i s = .next t →
    t.nextId = s.nextId ∧ t.lastId = s.lastId ∧ t.lastValid = s.lastValid ∧ t.batch = s.batch ∧ t.outLen = s.outLen ∧
    t.inLen = s.inLen ∧ t.outbuf = s.outbuf ∧ t.inbuf = s.inbuf ∧ t.slots = s.slots ∧ t.tx = s.tx ∧ t.rx = s.rx) ∧
  (∀ (i : Instr) (s t : State),
    (i = .execute ∨ i = .reset ∨ ∃ op n addr wdata slot, i = .queue op n addr wdata slot) → exec i s = .next t →
    t.decoder = s.decoder ∧ t.payload = s.payload ∧ t.boardIndex = s.boardIndex ∧ t.rcvIndex = s.rcvIndex ∧
    t.event = s.event ∧ t.hits = s.hits ∧ t.evts = s.evts) ∧
  (∀ (i : Instr) (s t : State), i.space = some .header → exec i s = .next t →
    t.decoder = s.decoder ∧ t.payload = s.payload ∧ t.boardIndex = s.boardIndex ∧ t.rcvIndex = s.rcvIndex ∧
    t.event = s.event ∧ t.hits = s.hits ∧ t.evts = s.evts ∧ t.tx = s.tx ∧ t.rx = s.rx ∧ t.inbuf = s.inbuf ∧
    t.outbuf = s.outbuf ∧ t.nextId = s.nextId ∧ t.lastId = s.lastId ∧ t.lastValid = s.lastValid) ∧
  (∀ (i : Instr) (s t : State), i.space = some .chip → exec i s = .next t →
    (∃ (d : DecoderState) (hs : List PixelHit), t = { s with decoder := d, hits := s.hits ++ hs }) ∨
      ∃ v, v ≠ .success ∧ t = decodeEnded s v)

/-- O59. No step writes a parameter, and what was sent stays sent: HIT, RSP, EVT and DGRAM_TX only grow at their end, so no
emitted hit is changed or withdrawn; a result goes to the caller that is served, and only one of the N_HOSTS callers comes to be
served (R324; R49, R240; R7, R300, R304; log entry 16). -/
def Obligations.OutputsOnlyGrow : Prop :=
  ∀ s t : State, step s = .next t →
    t.params = s.params ∧ s.hits <+: t.hits ∧ s.rsp <+: t.rsp ∧ s.evts <+: t.evts ∧ s.tx <+: t.tx ∧
    (∀ m ∈ t.rsp, m ∈ s.rsp ∨ m.caller = t.caller) ∧ (t.caller = s.caller ∨ t.caller < s.params.nHosts)

/-- O60. The flag of a hit by the validator's order, for every chip, region, double column and address: chip id, then region,
then double column, then address, then stuck, the first failing check winning (R261 to R266; decisions D31 to D34). -/
def Obligations.FlagPriority : Prop :=
  ∀ (bi ri : Nat) (chip : Option (BitVec 4)) (region : Option (BitVec 5)) (dcol : Option (BitVec 9)) (x : BitVec 11)
    (d : DecoderState), ∃ (h : PixelHit) (d' : DecoderState),
    validateAll bi ri chip region dcol [x] d = (d', [h]) ∧
    (chip = none ∨ chip = some 15#4 → h.flag = .badChipId) ∧
    (∀ c, chip = some c → c ≠ 15#4 →
      (region = none → h.flag = .badRegionId) ∧
      (region ≠ none → dcol = none → h.flag = .badDcolId) ∧
      (region ≠ none → dcol ≠ none → 1023 < x.toNat → h.flag = .badAddress) ∧
      (region ≠ none → dcol ≠ none → x.toNat ≤ 1023 → StuckAgainst d h → h.flag = .stuck) ∧
      (region ≠ none → dcol ≠ none → x.toNat ≤ 1023 → ¬ StuckAgainst d h → h.flag = .ok))
end

