-- ==== Sys2Proof/Laws/Codec.lean ====
section
/-! SUPPORT. The laws of the byte orders, of the header word and of the fields of chip words. -/

namespace Sys2Proof.Machine

set_option Elab.async false

/-- PACK as a number (40_transport_codec.md R129). -/
theorem packHeader_toNat (h : HeaderFields) :
    (packHeader h).toNat = h.version.toNat * 2 ^ 28 + h.wordCount.toNat * 2 ^ 16 + h.txnId.toNat * 2 ^ 8
      + h.opKind.toNat * 2 ^ 4 + h.infoCode.toNat := by
  obtain ⟨v, n, t, k, c⟩ := h
  simp only [packHeader, BitVec.toNat_or, BitVec.toNat_shiftLeft, BitVec.toNat_setWidth]
  have hv := v.isLt; have hn := n.isLt; have ht := t.isLt; have hk := k.isLt; have hc := c.isLt
  rw [Nat.mod_eq_of_lt (a := v.toNat) (by omega), Nat.mod_eq_of_lt (a := n.toNat) (by omega),
    Nat.mod_eq_of_lt (a := t.toNat) (by omega), Nat.mod_eq_of_lt (a := k.toNat) (by omega),
    Nat.mod_eq_of_lt (a := c.toNat) (by omega)]
  simp only [Nat.shiftLeft_eq]
  rw [Nat.mod_eq_of_lt (a := v.toNat * _) (by omega), Nat.mod_eq_of_lt (a := n.toNat * _) (by omega),
    Nat.mod_eq_of_lt (a := t.toNat * _) (by omega), Nat.mod_eq_of_lt (a := k.toNat * _) (by omega)]
  have or4 : ∀ x y i : Nat, y < 2 ^ i → x * 2 ^ i ||| y = x * 2 ^ i + y := by
    intro x y i hy
    rw [Nat.mul_comm, Nat.two_pow_add_eq_or_of_lt hy]
  have e1 : v.toNat * 2 ^ 28 ||| n.toNat * 2 ^ 16 = (v.toNat * 2 ^ 12 + n.toNat) * 2 ^ 16 := by
    rw [or4 _ _ _ (by omega)]; omega
  have e2 : (v.toNat * 2 ^ 12 + n.toNat) * 2 ^ 16 ||| t.toNat * 2 ^ 8 = ((v.toNat * 2 ^ 12 + n.toNat) * 2 ^ 8 + t.toNat) * 2 ^ 8 := by
    rw [or4 _ _ _ (by omega)]; omega
  have e3 : ((v.toNat * 2 ^ 12 + n.toNat) * 2 ^ 8 + t.toNat) * 2 ^ 8 ||| k.toNat * 2 ^ 4 = (((v.toNat * 2 ^ 12 + n.toNat) * 2 ^ 8 + t.toNat) * 2 ^ 4 + k.toNat) * 2 ^ 4 := by
    rw [or4 _ _ _ (by omega)]; omega
  rw [e1, e2, e3, or4 _ _ _ (by omega)]; omega

/-- The five fields of any word as numbers (30_encoding.md R91). -/
theorem unpackHeader_toNat (w : Word) :
    (unpackHeader w).version.toNat = w.toNat / 2 ^ 28 ∧ (unpackHeader w).wordCount.toNat = w.toNat / 2 ^ 16 % 2 ^ 12 ∧
    (unpackHeader w).txnId.toNat = w.toNat / 2 ^ 8 % 2 ^ 8 ∧ (unpackHeader w).opKind.toNat = w.toNat / 2 ^ 4 % 2 ^ 4 ∧
    (unpackHeader w).infoCode.toNat = w.toNat % 2 ^ 4 := by
  have := w.isLt
  simp only [unpackHeader, BitVec.extractLsb'_toNat, Nat.shiftRight_eq_div_pow]
  refine ⟨by omega, trivial, trivial, trivial, by simp⟩

/-- Every op kind is read back from its code. -/
theorem ofCode_code (k : OpKind) : OpKind.ofCode k.code = some k := by cases k <;> decide

/-- A code that is read as a kind is that kind's code. -/
theorem ofCode_eq_some {b : BitVec 4} {k : OpKind} (h : OpKind.ofCode b = some k) : b = k.code := by
  revert h; revert b; cases k <;> decide

/-- Two op kinds with one code are one. -/
theorem code_injective {j k : OpKind} (h : j.code = k.code) : j = k := by
  have := ofCode_code j; rw [h, ofCode_code] at this; exact (Option.some.inj this).symm

/-- The model's bytes of a word are the statement's (20_memory.md R62). -/
theorem beBytes_eq_bigEndian (w : Word) : beBytes w = bigEndian w := by
  simp only [beBytes, bigEndian, List.cons.injEq, and_true]
  refine ⟨?_, ?_, ?_, ?_⟩ <;> apply BitVec.eq_of_toNat_eq <;>
    simp [BitVec.extractLsb'_toNat, BitVec.toNat_ofNat, Nat.shiftRight_eq_div_pow]

/-- The same, as functions. -/
theorem bigEndian_eq : bigEndian = beBytes := by funext w; exact (beBytes_eq_bigEndian w).symm

/-- BE32 as a number. -/
theorem be32_toNat (a b c d : Byte) : (be32 a b c d).toNat = a.toNat * 2 ^ 24 + b.toNat * 2 ^ 16 + c.toNat * 2 ^ 8 + d.toNat := by
  have ha := a.isLt; have hb := b.isLt; have hc := c.isLt; have hd := d.isLt
  simp only [be32, BitVec.toNat_or, BitVec.toNat_shiftLeft, BitVec.toNat_setWidth, Nat.shiftLeft_eq]
  rw [Nat.mod_eq_of_lt (a := a.toNat) (by omega), Nat.mod_eq_of_lt (a := b.toNat) (by omega),
    Nat.mod_eq_of_lt (a := c.toNat) (by omega), Nat.mod_eq_of_lt (a := d.toNat) (by omega),
    Nat.mod_eq_of_lt (a := a.toNat * _) (by omega), Nat.mod_eq_of_lt (a := b.toNat * _) (by omega),
    Nat.mod_eq_of_lt (a := c.toNat * _) (by omega)]
  have or4 : ∀ x y i : Nat, y < 2 ^ i → x * 2 ^ i ||| y = x * 2 ^ i + y := by
    intro x y i hy
    rw [Nat.mul_comm, Nat.two_pow_add_eq_or_of_lt hy]
  have e1 : a.toNat * 2 ^ 24 ||| b.toNat * 2 ^ 16 = (a.toNat * 2 ^ 8 + b.toNat) * 2 ^ 16 := by
    rw [or4 _ _ _ (by omega)]; omega
  have e2 : (a.toNat * 2 ^ 8 + b.toNat) * 2 ^ 16 ||| c.toNat * 2 ^ 8 = ((a.toNat * 2 ^ 8 + b.toNat) * 2 ^ 8 + c.toNat) * 2 ^ 8 := by
    rw [or4 _ _ _ (by omega)]; omega
  rw [e1, e2, or4 _ _ _ (by omega)]; omega

/-- LE32 as a number. -/
theorem le32_toNat (a b c d : Byte) : (le32 a b c d).toNat = a.toNat + b.toNat * 2 ^ 8 + c.toNat * 2 ^ 16 + d.toNat * 2 ^ 24 := by
  have : le32 a b c d = be32 d c b a := by
    simp only [le32, be32, BitVec.or_comm, BitVec.or_assoc]
  rw [this, be32_toNat]; omega

/-- BE32 of a word's big-endian bytes is the word. -/
theorem be32_beBytes (w : Word) : be32 (w.extractLsb' 24 8) (w.extractLsb' 16 8) (w.extractLsb' 8 8) (w.extractLsb' 0 8) = w := by
  apply BitVec.eq_of_toNat_eq
  have := w.isLt
  rw [be32_toNat]
  simp only [BitVec.extractLsb'_toNat, Nat.shiftRight_eq_div_pow]; omega

/-- The words of the bytes of some words are those words. -/
theorem replyWords_flatMap (ws : List Word) : replyWords (ws.flatMap beBytes) = ws := by
  induction ws with
  | nil => rfl
  | cons w ws ih => simp [beBytes, replyWords, be32_beBytes] at *; exact ih

/-- Four bytes for each word. -/
theorem length_flatMap_beBytes (ws : List Word) : (ws.flatMap beBytes).length = 4 * ws.length := by
  induction ws with
  | nil => rfl
  | cons w ws ih => simp [beBytes] at *; omega

/-- The header word as a number. -/
theorem headerWord_eq (k : OpKind) (n : BitVec 12) (t : Byte) (c : BitVec 4) :
    headerWord k n t c = BitVec.ofNat 32 (headerNumber k n.toNat t.toNat c.toNat) := by
  apply BitVec.eq_of_toNat_eq
  have hn := n.isLt; have ht := t.isLt; have hk := k.code.isLt; have hc := c.isLt
  rw [headerWord, packHeader_toNat, BitVec.toNat_ofNat, headerNumber, Nat.mod_eq_of_lt (by omega)]
  rfl

/-- The fields of a header word. -/
theorem unpack_headerWord (k : OpKind) (n : BitVec 12) (t : Byte) (c : BitVec 4) :
    unpackHeader (headerWord k n t c) = ⟨Config.protoVersion, n, t, k.code, c⟩ := by
  have h1 := packHeader_toNat ⟨Config.protoVersion, n, t, k.code, c⟩
  have h2 := unpackHeader_toNat (headerWord k n t c)
  rw [headerWord] at h2 ⊢
  generalize hw : unpackHeader (packHeader ⟨Config.protoVersion, n, t, k.code, c⟩) = g at *
  generalize packHeader ⟨Config.protoVersion, n, t, k.code, c⟩ = w at *
  obtain ⟨v', n', t', k', c'⟩ := g
  have hv := Config.protoVersion.isLt; have hn := n.isLt; have ht := t.isLt; have hk := k.code.isLt; have hc := c.isLt
  simp only at h1 h2
  simp only [HeaderFields.mk.injEq]
  refine ⟨?_, ?_, ?_, ?_, ?_⟩ <;> apply BitVec.eq_of_toNat_eq <;> omega

/-- A word of version 2 whose kind is in the table is the header word of its own fields. -/
theorem headerWord_fields (w : Word) (k : OpKind) (hv : (unpackHeader w).version = Config.protoVersion)
    (hk : OpKind.ofCode (unpackHeader w).opKind = some k) :
    headerWord k (unpackHeader w).wordCount (unpackHeader w).txnId (unpackHeader w).infoCode = w := by
  have h := unpackHeader_toNat w
  apply BitVec.eq_of_toNat_eq
  rw [headerWord, packHeader_toNat, ← hv, ← ofCode_eq_some hk]
  simp only
  omega

/-- The field D of a data word as a number (43_bitstream_decoder.md R231). -/
theorem dataField_toNat (b0 b1 : Byte) : (dataField b0 b1).toNat = b0.toNat * 2 ^ 8 + b1.toNat := by
  have h0 := b0.isLt; have h1 := b1.isLt
  simp only [dataField, BitVec.toNat_or, BitVec.toNat_shiftLeft, BitVec.toNat_setWidth, Nat.shiftLeft_eq]
  rw [Nat.mod_eq_of_lt (a := b0.toNat) (by omega), Nat.mod_eq_of_lt (a := b1.toNat) (by omega),
    Nat.mod_eq_of_lt (a := b0.toNat * _) (by omega), Nat.mul_comm, Nat.two_pow_add_eq_or_of_lt (by omega)]

/-- The local double column as a number. -/
theorem localDcolField_toNat (b0 b1 : Byte) : (localDcolField b0 b1).toNat = b0.toNat / 2 ^ 2 % 2 ^ 4 := by
  have h1 := b1.isLt
  simp only [localDcolField, BitVec.extractLsb'_toNat, dataField_toNat, Nat.shiftRight_eq_div_pow]; omega

/-- The base address as a number. -/
theorem addressField_toNat (b0 b1 : Byte) : (addressField b0 b1).toNat = b0.toNat % 2 ^ 2 * 2 ^ 8 + b1.toNat := by
  have h1 := b1.isLt
  simp only [addressField, BitVec.extractLsb'_toNat, dataField_toNat, Nat.shiftRight_eq_div_pow]; omega

/-- A chip word that is whole decodes to the instruction of its type. -/
theorem decodeChip_word {b0 : Byte} {tl : List Byte} {t : WordType} (ht : classify b0 = t) (hl : t.length ≤ tl.length + 1) :
    decode .chip (b0 :: tl) = .ok (chipInstr t b0 (tl.getD 0 0) (tl.getD 1 0), tl.drop (t.length - 1)) := by
  simp only [decode, decodeChipBytes, ht]
  rw [if_neg (by omega)]

/-- The two bytes of a data word, with the address's high bits as a field. -/
theorem dataBytes_first (tb : Byte) (ld : BitVec 4) (a : BitVec 10) :
    dataBytes tb ld a = [tb ||| (ld.setWidth 8 <<< 2) ||| (a.extractLsb' 8 2).setWidth 8, a.setWidth 8] := by
  have : (a >>> 8).setWidth 8 = (a.extractLsb' 8 2).setWidth 8 := by
    apply BitVec.eq_of_toNat_eq
    have := a.isLt
    simp [Nat.shiftRight_eq_div_pow]; omega
  simp [dataBytes, this]

/-- First byte of a DATA_SHORT as a number. -/
theorem dataShort_first (ld : BitVec 4) (x : BitVec 2) :
    (0x40#8 ||| (ld.setWidth 8 <<< 2) ||| x.setWidth 8).toNat = 0x40 + ld.toNat * 4 + x.toNat := by
  revert ld x; decide

/-- First byte of a DATA_LONG as a number. -/
theorem dataLong_first (ld : BitVec 4) (x : BitVec 2) :
    (0x00#8 ||| (ld.setWidth 8 <<< 2) ||| x.setWidth 8).toNat = ld.toNat * 4 + x.toNat := by
  revert ld x; decide

/-- First bytes 0x40 to 0x7F. -/
theorem classify_dataShort {b0 : Byte} (h : 0x40 ≤ b0.toNat) (h' : b0.toNat < 0x80) : classify b0 = .dataShort := by
  revert h h'; revert b0; decide

/-- First bytes 0x00 to 0x3F. -/
theorem classify_dataLong {b0 : Byte} (h : b0.toNat < 0x40) : classify b0 = .dataLong := by
  revert h; revert b0; decide

/-- The length of the word that a first byte opens. -/
theorem classify_length (b0 : Byte) : (classify b0).length = wordBytes b0.toNat := by
  revert b0; decide

end Sys2Proof.Machine
end

