-- ==== Sys2Proof/Laws/Frame.lean ====
section
/-! SUPPORT. The laws of the frame decodes: the fields of the buffers, the header checks, the trailer. -/

namespace Sys2Proof.Machine

set_option Elab.async false

/-- Byte(buf, i) as a number. -/
theorem byteAt_toNat (buf : List Byte) (i : Nat) : (byteAt buf i).toNat = byteNumber buf i := by
  simp [byteAt, byteNumber, List.getD]

/-- LE32(buf, i) as a number. -/
theorem le32At_toNat (buf : List Byte) (i : Nat) : (le32At buf i).toNat = le32Number buf i := by
  simp only [le32At, le32_toNat, le32Number, byteAt_toNat]

/-- BE32(buf, i) as a number. -/
theorem be32At_toNat (buf : List Byte) (i : Nat) : (be32At buf i).toNat = be32Number buf i := by
  simp only [be32At, be32_toNat, be32Number, byteAt_toNat]

/-- A bit as a number's digit. -/
theorem getLsbD_decide {w : Nat} (x : BitVec w) (i : Nat) : x.getLsbD i = decide (x.toNat / 2 ^ i % 2 = 1) := by
  rw [BitVec.getLsbD, Nat.testBit_eq_decide_div_mod_eq]

/-- A byte is below 256. -/
theorem byteNumber_lt (buf : List Byte) (i : Nat) : byteNumber buf i < 2 ^ 8 := (buf[i]?.getD 0#8).isLt

/-- A word is below 2^32. -/
theorem le32Number_lt (buf : List Byte) (i : Nat) : le32Number buf i < 2 ^ 32 := by
  rw [← le32At_toNat]; exact (le32At buf i).isLt

/-- LE32(buf, i) from its number. -/
theorem le32At_eq (buf : List Byte) (i : Nat) : le32At buf i = BitVec.ofNat 32 (le32Number buf i) := by
  apply BitVec.eq_of_toNat_eq; have := le32Number_lt buf i; rw [le32At_toNat, BitVec.toNat_ofNat, Nat.mod_eq_of_lt this]

/-- The flags of a network frame are those of R183 and R185. -/
theorem netInfo_flags (order : ByteOrder) (buf : List Byte) : RuledNetFlags buf (netInfo order buf) := by
  constructor
  · rfl
  · rfl
  · simp only [netInfo, getLsbD_decide, Nat.pow_zero, Nat.div_one]
  · simp only [netInfo, getLsbD_decide, Nat.pow_one]
  · simp only [netInfo, getLsbD_decide]; rfl
  · exact byteAt_toNat _ _
  · simp only [netInfo, getLsbD_decide, Nat.pow_zero, Nat.div_one]
  · simp only [netInfo, getLsbD_decide]; rfl

/-- The words of a network frame are those of R182 and R184. -/
theorem netInfo_words (order : ByteOrder) (buf : List Byte) : RuledNetWords order buf (netInfo order buf) := by
  constructor <;> intro h <;> subst h
  · exact le32At_toNat _ _
  · exact be32At_toNat _ _
  · exact le32At_toNat _ _
  · exact be32At_toNat _ _

/-- The least length of a network frame. -/
theorem net_len (buf : List Byte) : buf.length < Config.netHdrBytes + Config.netTrlBytes ↔ buf.length < 65 := Iff.rfl

/-- A network frame that is long enough. -/
theorem parseNet_eq (order : ByteOrder) (buf : List Byte) (h : 65 ≤ buf.length) : parseNet order buf =
    if byteNumber buf (buf.length - 1) = 0 then .ok (.net (netInfo order buf)) 64 (buf.length - 1)
    else .error (.netTrailerError (netInfo order buf).trailerByte (netInfo order buf)) (some (.net (netInfo order buf))) := by
  have e : (netInfo order buf).trailerByte.toNat = byteNumber buf (buf.length - 1) := byteAt_toNat _ _
  simp only [parseNet]
  rw [if_neg (by rw [net_len]; omega)]
  by_cases hz : byteNumber buf (buf.length - 1) = 0
  · have : (netInfo order buf).trailerByte = 0#8 := by apply BitVec.eq_of_toNat_eq; rw [e, hz]; rfl
    rw [if_pos hz, if_neg (not_not.mpr this)]; rfl
  · have : (netInfo order buf).trailerByte ≠ 0#8 := by intro hc; rw [hc] at e; exact hz e.symm
    rw [if_neg hz, if_pos this]

/-- A 48-bit value as a number (42_board_frame_parser.md R195). -/
theorem halves_toNat (lo hi : Word) : (halves lo hi).toNat = hi.toNat % 2 ^ 24 * 2 ^ 24 + lo.toNat % 2 ^ 24 := by
  simp only [halves, BitVec.toNat_or, BitVec.toNat_shiftLeft, BitVec.toNat_setWidth, BitVec.extractLsb'_toNat, Nat.shiftRight_eq_div_pow, Nat.shiftLeft_eq]
  have h1 : hi.toNat / 2 ^ 0 % 2 ^ 24 % 2 ^ 48 * 2 ^ 24 % 2 ^ 48 = 2 ^ 24 * (hi.toNat % 2 ^ 24) := by omega
  have h2 : lo.toNat / 2 ^ 0 % 2 ^ 24 % 2 ^ 48 = lo.toNat % 2 ^ 24 := by omega
  rw [h1, h2, ← Nat.two_pow_add_eq_or_of_lt (by omega)]; omega

/-- Header word k as a number. -/
theorem usbWord_toNat (buf : List Byte) (k : Nat) : (usbWord buf k).toNat = usbNumber buf k := le32At_toNat _ _

/-- Header word k from its number. -/
theorem usbNumber_word (buf : List Byte) (k : Nat) : BitVec.ofNat 32 (usbNumber buf k) = usbWord buf k := (le32At_eq buf (4 * k)).symm

/-- The BoardFrameInfo of a 5- or 9-word header is the one of R194 to R198. -/
theorem usbInfo_ruled (nine : Bool) (buf : List Byte) : RuledUsbInfo (if nine then 9 else 5) buf (usbInfo nine buf) := by
  constructor
  · rfl
  · rfl
  · rfl
  · simp only [usbInfo, getLsbD_decide, usbWord_toNat]
  · simp [usbInfo, trigTypeField, BitVec.extractLsb'_toNat, Nat.shiftRight_eq_div_pow, usbWord_toNat]
  · simp [usbInfo, BitVec.extractLsb'_toNat, Nat.shiftRight_eq_div_pow, usbWord_toNat]
  · simp only [usbInfo, halves_toNat, usbWord_toNat]
  · simp only [usbInfo, halves_toNat, usbWord_toNat]
  · cases nine <;> simp [usbInfo, usbWord_toNat]
  · cases nine <;> simp [usbInfo, usbWord_toNat]
  · cases nine <;> simp [usbInfo, usbWord_toNat]
  · cases nine <;> simp [usbInfo, usbWord_toNat]
  · rfl
  · exact le32At_toNat _ _
  · exact le32At_toNat _ _

/-- The mask check by fields. -/
theorem word0_fields (w : Word) : w &&& Config.usbW0CheckMask = Config.usbW0CheckValue ↔
    w.extractLsb' 0 6 = 8#6 ∧ w.extractLsb' 7 3 = 0#3 ∧ w.extractLsb' 17 15 = 0#15 := by
  constructor
  · intro h
    have hb : ∀ i, (w.getLsbD i && Config.usbW0CheckMask.getLsbD i) = Config.usbW0CheckValue.getLsbD i := by
      intro i; rw [← h, BitVec.getLsbD_and]
    refine ⟨?_, ?_, ?_⟩ <;> apply BitVec.eq_of_getLsbD_eq <;> intro i hi <;> rw [BitVec.getLsbD_extractLsb']
    · have := hb (0 + i); interval_cases i <;> simpa [Config.usbW0CheckMask, Config.usbW0CheckValue] using this
    · have := hb (7 + i); interval_cases i <;> simpa [Config.usbW0CheckMask, Config.usbW0CheckValue] using this
    · have := hb (17 + i); interval_cases i <;> simpa [Config.usbW0CheckMask, Config.usbW0CheckValue] using this
  · rintro ⟨h1, h2, h3⟩
    have f1 : ∀ i, (decide (i < 6) && w.getLsbD (0 + i)) = (8#6).getLsbD i := by intro i; rw [← BitVec.getLsbD_extractLsb', h1]
    have f2 : ∀ i, (decide (i < 3) && w.getLsbD (7 + i)) = (0#3).getLsbD i := by intro i; rw [← BitVec.getLsbD_extractLsb', h2]
    have f3 : ∀ i, (decide (i < 15) && w.getLsbD (17 + i)) = (0#15).getLsbD i := by intro i; rw [← BitVec.getLsbD_extractLsb', h3]
    apply BitVec.eq_of_getLsbD_eq
    intro i hi
    rw [BitVec.getLsbD_and]
    by_cases h6 : i < 6
    · have := f1 i; interval_cases i <;> simpa [Config.usbW0CheckMask, Config.usbW0CheckValue] using this
    by_cases h7 : i < 7
    · interval_cases i; simp [Config.usbW0CheckMask, Config.usbW0CheckValue]
    by_cases h10 : i < 10
    · have := f2 (i - 7); interval_cases i <;> simpa [Config.usbW0CheckMask, Config.usbW0CheckValue] using this
    by_cases h17 : i < 17
    · interval_cases i <;> simp [Config.usbW0CheckMask, Config.usbW0CheckValue]
    · have := f3 (i - 17); interval_cases i <;> simpa [Config.usbW0CheckMask, Config.usbW0CheckValue] using this

/-- The mask check on numbers (42_board_frame_parser.md R192). -/
theorem word0_iff (w : Word) : w &&& Config.usbW0CheckMask = Config.usbW0CheckValue ↔ GoodWord0 w.toNat := by
  have := w.isLt
  rw [word0_fields, GoodWord0]
  simp only [← BitVec.toNat_inj, BitVec.extractLsb'_toNat, Nat.shiftRight_eq_div_pow, BitVec.toNat_ofNat]
  refine and_congr (by omega) (and_congr (by omega) ?_)
  rw [Nat.mod_eq_of_lt (by omega)]

/-- The top byte check on numbers. -/
theorem topByte_iff (w : Word) : w.extractLsb' 24 8 = 0#8 ↔ w.toNat < 2 ^ 24 := by
  rw [← BitVec.toNat_inj, BitVec.extractLsb'_toNat, Nat.shiftRight_eq_div_pow]
  have := w.isLt
  simp; omega

/-- The trigger type check on numbers. -/
theorem trig_iff (w : Word) (k : Nat) (hk : k < 8) : trigTypeField w = BitVec.ofNat 3 k ↔ w.toNat / 2 ^ 10 % 8 = k := by
  rw [← BitVec.toNat_inj, trigTypeField, BitVec.extractLsb'_toNat, Nat.shiftRight_eq_div_pow, BitVec.toNat_ofNat]; omega

/-- A good header passes. -/
theorem headerError_usb_none (buf : List Byte) (info : UsbInfo) (h : GoodUsbHeader buf) : usbHeaderError buf info = none := by
  obtain ⟨h0, h1, h2, h3, h4⟩ := h
  simp only [← usbWord_toNat] at h0 h1 h2 h3 h4
  rw [← word0_iff] at h0
  rw [← topByte_iff] at h1 h2 h3
  have h5 : ¬ (trigTypeField (usbWord buf 0) ≠ 1#3 ∧ trigTypeField (usbWord buf 0) ≠ 2#3) := by
    rintro ⟨a, b⟩
    rcases h4 with h4 | h4
    · exact a ((trig_iff _ 1 (by decide)).mpr h4)
    · exact b ((trig_iff _ 2 (by decide)).mpr h4)
  simp only [usbHeaderError]
  rw [if_neg (not_not.mpr h0), if_neg (not_not.mpr h1), if_neg (not_not.mpr h2), if_neg (not_not.mpr h3), if_neg h5]

/-- Which error a header raises (42_board_frame_parser.md R192). -/
theorem headerError_usb_some (buf : List Byte) (info : UsbInfo) (e : Error) (h : UsbHeaderFault buf info e) :
    usbHeaderError buf info = some e := by
  simp only [UsbHeaderFault, usbNumber_word] at h
  simp only [← usbWord_toNat, ← word0_iff] at h
  simp only [usbHeaderError]
  rcases h with ⟨h, rfl⟩ | ⟨h0, h⟩
  · rw [if_pos h]
  rw [if_neg (not_not.mpr h0)]
  rcases h with ⟨h, rfl⟩ | ⟨h1, h⟩
  · rw [if_pos (by rw [Ne, topByte_iff]; omega)]
  rw [if_neg (not_not.mpr ((topByte_iff _).mpr h1))]
  rcases h with ⟨h, rfl⟩ | ⟨h2, h⟩
  · rw [if_pos (by rw [Ne, topByte_iff]; omega)]
  rw [if_neg (not_not.mpr ((topByte_iff _).mpr h2))]
  rcases h with ⟨h, rfl⟩ | ⟨h3, h4, h5, rfl⟩
  · rw [if_pos (by rw [Ne, topByte_iff]; omega)]
  rw [if_neg (not_not.mpr ((topByte_iff _).mpr h3))]
  rw [if_pos ⟨by rw [Ne, trig_iff _ 1 (by decide)]; exact h4, by rw [Ne, trig_iff _ 2 (by decide)]; exact h5⟩]

/-- A 3-word header that is long enough. -/
theorem parseUsbAs_three (p : Params) (buf : List Byte) (fw : Nat) (h : 20 ≤ buf.length) : parseUsbAs p .three buf fw =
    if fw ∈ p.legacy3Fw then usbTrailer 3 buf (usbInfo3 fw buf) else .refused (.legacy3Undefined fw) := by
  unfold parseUsbAs; rw [if_neg (by show ¬ buf.length < 4 * 3 + 8; omega)]

/-- A 5-word header that is long enough. -/
theorem parseUsbAs_five (p : Params) (buf : List Byte) (fw : Nat) (h : 28 ≤ buf.length) : parseUsbAs p .five buf fw =
    match usbHeaderError buf (usbInfo false buf) with
      | some e => .error e (some (.usb (usbInfo false buf)))
      | none => usbTrailer 5 buf (usbInfo false buf) := by
  unfold parseUsbAs; exact if_neg (by show ¬ buf.length < 4 * 5 + 8; omega)

/-- A 9-word header that is long enough. -/
theorem parseUsbAs_nine (p : Params) (buf : List Byte) (fw : Nat) (h : 44 ≤ buf.length) : parseUsbAs p .nine buf fw =
    match usbHeaderError buf (usbInfo true buf) with
      | some e => .error e (some (.usb (usbInfo true buf)))
      | none => usbTrailer 9 buf (usbInfo true buf) := by
  unfold parseUsbAs; exact if_neg (by show ¬ buf.length < 4 * 9 + 8; omega)

/-- Trailer word 1 from its number. -/
theorem usbT1_eq (buf : List Byte) : usbT1 buf = BitVec.ofNat 32 (le32Number buf (buf.length - 4)) := le32At_eq _ _

/-- The marker on numbers. -/
theorem usbT1_iff (buf : List Byte) : usbT1 buf = Config.usbTrailerSentinel ↔ le32Number buf (buf.length - 4) = 0xBFBFBFBF := by
  rw [← BitVec.toNat_inj, usbT1, le32At_toNat]; rfl

/-- No header check answers Truncated. -/
theorem usbHeader_not_truncated (buf : List Byte) (info : UsbInfo) (e : Error) (h : usbHeaderError buf info = some e) : ∀ n, e ≠ .truncated n := by
  simp only [usbHeaderError] at h
  repeat' split at h
  all_goals first | (cases h; intro n hn; cases hn) | cases h

/-- The info a failed frame decode reports is the one its error carries. -/
theorem frame_carried (p : Params) (fam : BoardFamily) (buf : List Byte) (e : Error) (info : Option FrameInfo)
    (h : parseFrame p fam buf = .error e info) : info = carriedInfo e := by
  have ht : ∀ n i, usbTrailer n buf i = .error e info → info = carriedInfo e := by
    intro n i h; simp only [usbTrailer] at h; split at h <;> cases h; rfl
  have hh : ∀ i e', usbHeaderError buf i = some e' → FrameResult.error e' (some (.usb i)) = .error e info → info = carriedInfo e := by
    intro i e' hu h'; cases h'
    simp only [usbHeaderError] at hu
    repeat' split at hu
    all_goals cases hu
    all_goals rfl
  cases fam with
  | net =>
    simp only [parseFrame, parseNet] at h
    split at h
    · cases h; rfl
    split at h <;> cases h; rfl
  | usb fw htt =>
    simp only [parseFrame, parseUsb] at h
    split at h
    · cases h
    simp only [parseUsbAs] at h
    split at h
    · cases h; rfl
    split at h
    · split at h
      · exact ht _ _ h
      · cases h
    · split at h
      · exact hh _ _ (by assumption) h
      · exact ht _ _ h
    · split at h
      · exact hh _ _ (by assumption) h
      · exact ht _ _ h

/-- Only Truncated comes without a BoardFrameInfo. -/
theorem frame_info (p : Params) (fam : BoardFamily) (buf : List Byte) (e : Error) (info : Option FrameInfo) (h : parseFrame p fam buf = .error e info) :
    info = none ↔ ∃ n, e = .truncated n := by
  have ht : ∀ n i, usbTrailer n buf i = .error e info → (info = none ↔ ∃ n, e = .truncated n) := by
    intro n i h; simp only [usbTrailer] at h; split at h <;> cases h; simp
  have hh : ∀ i e', usbHeaderError buf i = some e' → FrameResult.error e' (some (.usb i)) = .error e info → (info = none ↔ ∃ n, e = .truncated n) := by
    intro i e' hu h'; cases h'; simp; exact usbHeader_not_truncated _ _ _ hu
  cases fam with
  | net =>
    simp only [parseFrame, parseNet] at h
    split at h
    · cases h; simp
    split at h <;> cases h; simp
  | usb fw htt =>
    simp only [parseFrame, parseUsb] at h
    split at h
    · cases h
    simp only [parseUsbAs] at h
    split at h
    · cases h; simp
    split at h
    · split at h
      · exact ht _ _ h
      · cases h
    · split at h
      · exact hh _ _ (by assumption) h
      · exact ht _ _ h
    · split at h
      · exact hh _ _ (by assumption) h
      · exact ht _ _ h

/-- A frame decode refuses only for the two reasons of R295. -/
theorem frame_three (p : Params) (fam : BoardFamily) (buf : List Byte) (w : Refusal) (h : parseFrame p fam buf = .refused w) :
    (∃ fw ht, w = .unknownHeaderLayout fw ht) ∨ ∃ fw, w = .legacy3Undefined fw := by
  cases fam with
  | net => simp only [parseFrame, parseNet] at h; split at h; · cases h
           split at h <;> cases h
  | usb fw ht =>
    simp only [parseFrame, parseUsb] at h
    split at h
    · cases h; exact .inl ⟨_, _, rfl⟩
    · simp only [parseUsbAs, usbTrailer] at h
      repeat' split at h
      all_goals first | cases h; done | (cases h; exact .inr ⟨_, rfl⟩)

/-- A frame command by what its parse gives. -/
theorem frame_exec (fam : BoardFamily) (buf : List Byte) (s : State) : exec (frameCommand fam buf) s = frameOutcome (parseFrame s.params fam buf) s := by
  cases fam <;> rfl

end Sys2Proof.Machine
end

