-- ==== Sys2Proof/Laws/Hits.lean ====
section
/-! SUPPORT. The laws of the validator, of the data words and of the decode loop. -/

namespace Sys2Proof.Machine

set_option Elab.async false

/-- The end of a decode in the statement's terms. -/
theorem endStream_eq (v : Verdict) (s : State) : endStream v s = decodeEnded s v := by
  have h : (v == Verdict.success) = decide (v = .success) := by cases v <;> rfl
  simp only [endStream, decodeEnded, streamRecord, h, streamResponse]
  cases s.event <;> simp [respond, sendEvt]

/-- The illegal chip of R262. -/
theorem badChip_iff (d : DecoderState) : badChip d.chip = true ↔ IllegalChip d := by
  unfold badChip IllegalChip
  cases d.chip <;> simp [Config.illegalChipId]

/-- The stuck condition of R266. -/
theorem stuck_iff (d : DecoderState) (h : PixelHit) :
    stuckCondition d h.region h.dcol h.address = true ↔ StuckAgainst d h := by
  unfold stuckCondition StuckAgainst
  cases hp : d.prev with
  | none => simp
  | some p => simp [Option.isSome_iff_ne_none, and_assoc]

/-- The same for the hit that is built. -/
theorem stuck_iff' (d : DecoderState) (bi ri : Nat) (chip : Option (BitVec 4)) (region dcol x) :
    stuckCondition d region dcol (storedAddress chip x) = true ↔ StuckAgainst d (builtHit bi ri chip region dcol x d) := by
  rw [← stuck_iff]; rfl

/-- The state after a hit is the one the rules demand. -/
theorem RuledAfter_afterHit (bi ri : Nat) (d : DecoderState) (chip region dcol) (x : BitVec 11) :
    RuledAfter d (builtHit bi ri chip region dcol x d) (afterHit chip region dcol x d) where
  counted h := by simp [afterHit, (stuck_iff' d bi ri chip region dcol x).mpr h]
  notCounted h := by
    have := mt (stuck_iff' d bi ri chip region dcol x).mp h
    simp [afterHit, this]
  corrupt := by
    rw [← stuck_iff' d bi ri chip region dcol x]
    simp only [afterHit, builtHit, Bool.or_eq_true, bne_iff_ne]
    by_cases h : stuckCondition d region dcol (storedAddress chip x) = true
    · simp [h]
    · simp [h]
  prev := rfl
  newEvent := rfl
  others := rfl

/-- The global double column as a number (43_bitstream_decoder.md R232). -/
theorem globalDcol_toNat (r : BitVec 5) (ld : BitVec 4) : ∃ c, globalDcol (some r) ld = some c ∧ c.toNat = r.toNat * 16 + ld.toNat := by
  refine ⟨_, rfl, ?_⟩
  have := r.isLt; have := ld.isLt
  simp [BitVec.toNat_add, BitVec.toNat_mul]; omega

/-- The double column is known when the region is. -/
theorem globalDcol_isSome (region : Option (BitVec 5)) (ld : BitVec 4) : region.isSome = (globalDcol region ld).isSome := by
  cases region <;> rfl

/-- Only NONE is above MAX_REGION. -/
theorem badRegion_iff (region : Option (BitVec 5)) : badRegion region = true ↔ region = none := by
  cases region with
  | none => simp [badRegion]
  | some r => have := r.isLt; simp [badRegion, Config.maxRegion]; omega

/-- Only NONE is above MAX_DCOL. -/
theorem badDcol_iff (dcol : Option (BitVec 9)) : badDcol dcol = true ↔ dcol = none := by
  cases dcol with
  | none => simp [badDcol]
  | some r => have := r.isLt; simp [badDcol, Config.maxDcol]; omega

/-- The built hit is the one the rules demand. -/
theorem RuledHit_built (bi ri : Nat) (d : DecoderState) (ld : BitVec 4) (x : BitVec 11) :
    RuledHit bi ri d ld x.toNat (builtHit bi ri d.chip d.region (globalDcol d.region ld) x d) := by
  have hs := stuck_iff' d bi ri d.chip d.region (globalDcol d.region ld) x
  have hb := badChip_iff d
  have hr := badRegion_iff d.region
  have hd : d.region ≠ none → badDcol (globalDcol d.region ld) = false := by
    intro h
    rw [Bool.eq_false_iff, Ne, badDcol_iff]
    cases h' : d.region with
    | none => exact absurd h' h
    | some r => simp [globalDcol]
  constructor
  · rfl
  · rfl
  · rfl
  · intro h; simp [builtHit, globalDcol, h]
  · intro r h
    obtain ⟨c, h1, h2⟩ := globalDcol_toNat r ld
    exact ⟨c, by simp only [builtHit, h, h1], h2⟩
  · intro h
    rw [← hb] at h
    simp [builtHit, storedChip, storedAddress, boundsFlag, h]
  · intro c h1 h2
    have : badChip d.chip = false := by rw [h1]; simp [badChip, Config.illegalChipId, h2]
    refine ⟨?_, ?_⟩
    · simp only [builtHit, storedChip, this]; rw [h1]; rfl
    · simp [builtHit, storedAddress, this]
  · intro h1 h2
    rw [← hb] at h1; rw [← hr] at h2
    simp [builtHit, boundsFlag, h1, h2]
  · intro h1 h2 h3
    have h4 := hd h2
    rw [← hb] at h1; rw [ne_eq, ← hr] at h2
    have : Config.maxAddress < x.toNat := h3
    simp [builtHit, boundsFlag, h1, h2, h4, storedAddress, this]
  · intro h1 h2 h3 h5
    have h4 := hd h2
    rw [← hb] at h1; rw [ne_eq, ← hr] at h2
    rw [← hs] at h5
    have : ¬ Config.maxAddress < x.toNat := by unfold Config.maxAddress; omega
    simp only [storedAddress, h1] at h5
    simp [builtHit, boundsFlag, h1, h2, h4, storedAddress, this] at h5 ⊢
    exact h5
  · intro h1 h2 h3 h5
    have h4 := hd h2
    rw [← hb] at h1; rw [ne_eq, ← hr] at h2
    rw [← hs] at h5
    have : ¬ Config.maxAddress < x.toNat := by unfold Config.maxAddress; omega
    simp only [storedAddress, h1] at h5
    simp [builtHit, boundsFlag, h1, h2, h4, storedAddress, this] at h5 ⊢
    exact h5

/-- CHIP and REGION stay. -/
theorem afterHit_chip (chip region dcol x d) : (afterHit chip region dcol x d).chip = d.chip ∧ (afterHit chip region dcol x d).region = d.region := ⟨rfl, rfl⟩

/-- The hits of a word are the ones the rules demand. -/
theorem RuledHits_validate (bi ri : Nat) (ld : BitVec 4) (xs : List (BitVec 11)) : ∀ d : DecoderState,
    RuledHits bi ri ld d (xs.map BitVec.toNat)
      (validateAll bi ri d.chip d.region (globalDcol d.region ld) xs d).2
      (validateAll bi ri d.chip d.region (globalDcol d.region ld) xs d).1 := by
  induction xs with
  | nil => intro d; exact ⟨rfl, rfl⟩
  | cons x xs ih =>
    intro d
    have h := ih (afterHit d.chip d.region (globalDcol d.region ld) x d)
    simp only [(afterHit_chip _ _ _ _ _).1, (afterHit_chip _ _ _ _ _).2] at h
    exact ⟨_, _, _, rfl, RuledHit_built bi ri d ld x, RuledAfter_afterHit bi ri d _ _ _ x, h⟩

/-- The addresses of a cluster as numbers. -/
theorem cluster_numbers (a : BitVec 10) (hm : BitVec 7) : (clusterAddresses a hm).map BitVec.toNat = clusterNumbers a hm := by
  have ha := a.isLt
  have hb : ∀ i : Nat, hm.getLsbD i = decide (hm.toNat / 2 ^ i % 2 = 1) := by
    intro i; rw [BitVec.getLsbD, Nat.testBit_eq_decide_div_mod_eq]
  simp only [clusterAddresses, clusterNumbers, List.map_cons, List.map_map, BitVec.toNat_setWidth]
  congr 1
  · omega
  · simp only [hb]
    rw [show List.range 7 = [0, 1, 2, 3, 4, 5, 6] by decide]
    apply List.map_congr_left
    intro i hi
    have : i < 7 := by
      have := (List.mem_filter.mp hi).1
      simp at this; omega
    simp [BitVec.toNat_add]; omega

/-- No address of a cluster exceeds 1030. -/
theorem cluster_bound (a : BitVec 10) (hm : BitVec 7) : ∀ x ∈ clusterAddresses a hm, x.toNat ≤ 1030 := by
  intro x hx
  have : x.toNat ∈ (clusterAddresses a hm).map BitVec.toNat := List.mem_map_of_mem hx
  rw [cluster_numbers] at this
  have ha := a.isLt
  simp only [clusterNumbers, List.mem_cons, List.mem_map, List.mem_filter] at this
  rcases this with h | ⟨i, ⟨hi, _⟩, h⟩
  · omega
  · have : i ≤ 6 := by simp at hi; omega
    omega

/-- The addresses of a cluster rise. -/
theorem cluster_mono (a : BitVec 10) (hm : BitVec 7) : ((clusterAddresses a hm).map BitVec.toNat).Pairwise (· < ·) := by
  rw [cluster_numbers]
  simp only [clusterNumbers, List.pairwise_cons]
  refine ⟨?_, ?_⟩
  · intro x hx; obtain ⟨i, _, rfl⟩ := List.mem_map.mp hx; omega
  · rw [List.pairwise_map]
    apply List.Pairwise.filter
    have : [0, 1, 2, 3, 4, 5, 6].Pairwise (fun i j : Nat => i < j) := by decide
    exact this.imp (by intros; omega)

/-- Whether CORRUPT is set before the hits of a word or by the first of them makes no difference when the region is NONE. -/
theorem validate_regionless (bi ri : Nat) (x : BitVec 11) (xs : List (BitVec 11)) (d : DecoderState) (dc) :
    validateAll bi ri d.chip d.region dc (x :: xs) { d with corrupt := d.corrupt || d.region.isNone } =
      validateAll bi ri d.chip d.region dc (x :: xs) d := by
  obtain ⟨cu, st, fi, co, ch, re, ne, pr, pe, bu, tf⟩ := d
  cases re with
  | some r => simp
  | none =>
    have hf : boundsFlag ch none dc x ≠ .ok := by
      unfold boundsFlag; cases badChip ch <;> simp [badRegion]
    have ha : afterHit ch none dc x ⟨cu, st, fi, co || (none : Option (BitVec 5)).isNone, ch, none, ne, pr, pe, bu, tf⟩ =
        afterHit ch none dc x ⟨cu, st, fi, co, ch, none, ne, pr, pe, bu, tf⟩ := by
      simp [afterHit, stuckCondition, hf]
    simp only [validateAll, ha]
    rfl

/-- A data word in a started event is the validator on its addresses. -/
theorem dataHits_eq (bi ri : Nat) (ld : BitVec 4) (x : BitVec 11) (xs : List (BitVec 11)) (d : DecoderState) (h : d.started = true) :
    dataHits bi ri ld (x :: xs) d = .advance (validateAll bi ri d.chip d.region (globalDcol d.region ld) (x :: xs) d).1
      (validateAll bi ri d.chip d.region (globalDcol d.region ld) (x :: xs) d).2 := by
  have := validate_regionless bi ri x xs d (globalDcol d.region ld)
  simp only [dataHits]
  rw [if_neg (by simp [h]), this]

/-- The validator leaves CURSOR. -/
theorem validate_cursor (bi ri : Nat) (chip region dc) (xs : List (BitVec 11)) : ∀ d : DecoderState,
    (validateAll bi ri chip region dc xs d).1.cursor = d.cursor := by
  induction xs with
  | nil => intro d; rfl
  | cons x xs ih => intro d; simp only [validateAll, ih]; rfl

/-- The validator leaves STARTED and FINISHED. -/
theorem validate_started (bi ri : Nat) (chip region dc) (xs : List (BitVec 11)) : ∀ d : DecoderState,
    (validateAll bi ri chip region dc xs d).1.started = d.started ∧ (validateAll bi ri chip region dc xs d).1.finished = d.finished := by
  induction xs with
  | nil => intro d; exact ⟨rfl, rfl⟩
  | cons x xs ih => intro d; simp only [validateAll]; rw [(ih _).1, (ih _).2]; exact ⟨rfl, rfl⟩

/-- The fields of the hits of one word. -/
theorem validate_fields (bi ri : Nat) (chip region dc) (xs : List (BitVec 11)) : ∀ d : DecoderState,
    (validateAll bi ri chip region dc xs d).2.map (fun h => (h.chipId, h.region, h.dcol, h.address)) =
      xs.map (fun x => (storedChip chip, region, dc, storedAddress chip x)) := by
  induction xs with
  | nil => intro d; rfl
  | cons x xs ih => intro d; simp only [validateAll, List.map_cons, ih]; rfl

/-- Rising addresses after the previous hit are never stuck. -/
theorem rising_not_stuck (bi ri : Nat) (chip region dc) (hb : badChip chip = false) (xs : List (BitVec 11)) :
    ∀ d : DecoderState, (∀ p, d.prev = some p → ∀ x ∈ xs, p.address.toNat < x.toNat) → (xs.map BitVec.toNat).Pairwise (· < ·) →
    (∀ h ∈ (validateAll bi ri chip region dc xs d).2, h.flag ≠ .stuck) ∧
      (validateAll bi ri chip region dc xs d).1.prioErrors = d.prioErrors := by
  induction xs with
  | nil => intro d _ _; exact ⟨by simp [validateAll], rfl⟩
  | cons x xs ih =>
    intro d hp hx
    have hns : stuckCondition d region dc (storedAddress chip x) = false := by
      simp only [stuckCondition, storedAddress, hb]
      cases hpr : d.prev with
      | none => rfl
      | some p => have := hp p hpr x (by simp); simp; intros; omega
    simp only [List.map_cons, List.pairwise_cons] at hx
    have hih := ih (afterHit chip region dc x d) (by
      intro p hpp y hy
      simp only [afterHit, Option.some.injEq] at hpp
      subst hpp
      simp only [storedAddress, hb]
      exact hx.1 y.toNat (List.mem_map_of_mem hy)) hx.2
    simp only [validateAll]
    refine ⟨?_, ?_⟩
    · intro h hh
      simp only [List.mem_cons] at hh
      rcases hh with rfl | hh
      · simp only [builtHit, hns]
        simp only [boundsFlag]
        repeat' split
        all_goals simp_all
      · exact hih.1 h hh
    · rw [hih.2]; simp [afterHit, hns]

/-- DATA_SHORT in a started event. -/
theorem exec_dataShort (ld : BitVec 4) (a : BitVec 10) (s : State) (hs : s.decoder.started = true) :
    exec (.dataShort ld a) s = .next { s with
      decoder := { afterHit s.decoder.chip s.decoder.region (globalDcol s.decoder.region ld) (a.setWidth 11) s.decoder with cursor := s.decoder.cursor + 2 }
      hits := s.hits ++ [builtHit s.boardIndex s.rcvIndex s.decoder.chip s.decoder.region (globalDcol s.decoder.region ld) (a.setWidth 11) s.decoder] } := by
  simp only [exec, execDataShort, wordDataShort, dataHits_eq _ _ _ _ _ _ hs, runWord]
  rfl

/-- DATA_LONG in a started event. -/
theorem exec_dataLong (ld : BitVec 4) (a : BitVec 10) (hm : BitVec 7) (s : State) (hs : s.decoder.started = true) :
    exec (.dataLong ld a hm) s =
      let r := validateAll s.boardIndex s.rcvIndex s.decoder.chip s.decoder.region (globalDcol s.decoder.region ld) (clusterAddresses a hm) s.decoder
      .next { s with decoder := { r.1 with cursor := r.1.cursor + 3 }, hits := s.hits ++ r.2 } := by
  simp only [exec, execDataLong, wordDataLong]
  unfold clusterAddresses
  simp only [dataHits_eq _ _ _ _ _ _ hs, runWord]
  rfl

/-- A word's rule put into the state. -/
theorem moveCursor_run (n : Nat) (r : WordResult) (s : State) : runWord n r s = match moveCursor n r with
    | .advance d hs => { s with decoder := d, hits := s.hits ++ hs }
    | .abort v => decodeEnded s v := by
  cases r <;> simp [runWord, moveCursor, emitHits, endStream_eq]

/-- A word that goes on moves CURSOR by its length. -/
theorem moveCursor_cursor (t : WordType) (b0 b1 b2 : Byte) (bi ri : Nat) (d d' : DecoderState) (n : Nat) (hs)
    (h : moveCursor n (applyWord t b0 b1 b2 bi ri d) = .advance d' hs) : d'.cursor = d.cursor + n := by
  have hd : ∀ ld xs d' hs, dataHits bi ri ld xs d = .advance d' hs → d'.cursor = d.cursor := by
    intro ld xs d' hs h
    simp only [dataHits] at h
    split at h
    · cases h
    · cases h; rw [validate_cursor]
  cases hr : applyWord t b0 b1 b2 bi ri d with
  | abort v => rw [hr] at h; cases h
  | advance e hs' =>
    rw [hr] at h
    cases h
    simp only [Nat.add_right_cancel_iff]
    cases t <;> simp only [applyWord, wordIdle, wordBusyOn, wordBusyOff, wordChipHeader, wordChipTrailer, wordEmptyFrame, wordRegionHeader, wordDataShort, wordDataLong, wordUnknown] at hr
    case dataShort => exact hd _ _ _ _ hr
    case dataLong => exact hd _ _ _ _ hr
    all_goals
      repeat' split at hr
      all_goals first | cases hr; rfl | cases hr

/-- A word that goes on moves CURSOR forward, within the payload. -/
theorem streamWord_cursor (p : List Byte) (bi ri : Nat) (d d' : DecoderState) (hs)
    (h : streamWord p bi ri d = .advance d' hs) : d.cursor < d'.cursor ∧ d'.cursor ≤ p.length := by
  simp only [streamWord] at h
  split at h
  · cases h
  split at h
  · cases h
  have hc := moveCursor_cursor _ _ _ _ _ _ _ _ _ _ h
  have : 1 ≤ (classify (byteAt p d.cursor)).length := by cases classify (byteAt p d.cursor) <;> decide
  omega

/-- A word that goes on is its rule, but for CURSOR. -/
theorem streamWord_apply (p : List Byte) (bi ri : Nat) (d d' : DecoderState) (hs) (h : streamWord p bi ri d = .advance d' hs) :
    ∃ t b0 b1 b2 e, applyWord t b0 b1 b2 bi ri d = .advance e hs ∧ d' = { e with cursor := d'.cursor } := by
  simp only [streamWord] at h
  split at h
  · cases h
  split at h
  · cases h
  generalize hr : applyWord _ _ _ _ bi ri d = r at h
  cases r with
  | abort v => cases h
  | advance e hs' => cases h; exact ⟨_, _, _, _, e, hr, rfl⟩

/-- Hits emitted before stay in front. -/
theorem streamLoop_prefix (p : List Byte) (bi ri : Nat) (fuel : Nat) : ∀ (d : DecoderState) (pre hs : List PixelHit),
    streamLoop p bi ri fuel d (pre ++ hs) =
      { streamLoop p bi ri fuel d hs with hits := pre ++ (streamLoop p bi ri fuel d hs).hits } := by
  induction fuel with
  | zero => intro d pre hs; rfl
  | succ n ih =>
    intro d pre hs
    simp only [streamLoop]
    split
    · cases streamWord p bi ri d with
      | abort v => rfl
      | advance d' new => simp only [List.append_assoc]; rw [ih]
    · rfl

/-- What every word keeps, of the decoder and of the hits, the loop keeps. -/
theorem streamLoop_keeps (p : List Byte) (bi ri : Nat) (P : DecoderState → Prop) (Q : PixelHit → Prop)
    (hP : ∀ d d' hs, P d → streamWord p bi ri d = .advance d' hs → P d' ∧ ∀ h ∈ hs, Q h) (fuel : Nat) :
    ∀ (d : DecoderState) (hs : List PixelHit), P d → (∀ h ∈ hs, Q h) →
      P (streamLoop p bi ri fuel d hs).decoder ∧ ∀ h ∈ (streamLoop p bi ri fuel d hs).hits, Q h := by
  induction fuel with
  | zero => intro d hs hd hh; exact ⟨hd, hh⟩
  | succ n ih =>
    intro d hs hd hh
    simp only [streamLoop]
    split
    · cases hw : streamWord p bi ri d with
      | abort v => exact ⟨hd, hh⟩
      | advance d' new =>
        have := hP d d' new hd hw
        exact ih d' _ this.1 (by intro h hm; rcases List.mem_append.mp hm with hm | hm; exact hh h hm; exact this.2 h hm)
    · exact ⟨hd, hh⟩

/-- A decode answers OK or an error. -/
theorem streamResponse_cases (r : StreamRecord) : (∃ v, streamResponse r = .ok v) ∨ ∃ e, streamResponse r = .error e := by
  simp only [streamResponse]; split
  · exact .inl ⟨_, rfl⟩
  · exact .inr ⟨_, rfl⟩

end Sys2Proof.Machine
end

