-- ==== Sys2Proof/Laws/Memory.lean ====
section
/-! SUPPORT. Laws of the byte space OUTBUF and of the slots: read after write, every other place alone, and the canonical
form kept by every operation. -/

namespace Sys2Proof.Machine

/-! ## OUTBUF -/

theorem Memory.read_cons_same (a : Nat) (b : Byte) (m : Memory) (h : Memory.read m a = Memory.unlisted) :
    Memory.read (Memory.cons a b m) a = b := by
  unfold Memory.cons
  split
  · next hb => rw [h, hb]
  · simp [Memory.read]

theorem Memory.read_cons_other (a a' : Nat) (b : Byte) (m : Memory) (h : a' ≠ a) :
    Memory.read (Memory.cons a b m) a' = Memory.read m a' := by
  unfold Memory.cons
  split
  · rfl
  · simp [Memory.read, h]

/-- Every key of a memory whose keys lie above `a` leaves `a` unlisted. -/
theorem Memory.read_of_forall_lt (m : Memory) (a : Nat) (h : ∀ c ∈ m, a < c.1) :
    Memory.read m a = Memory.unlisted := by
  induction m with
  | nil => rfl
  | cons c m ih =>
    obtain ⟨k, v⟩ := c
    have hk : a < k := h (k, v) (by simp)
    have hne : a ≠ k := by omega
    simp only [Memory.read, hne, if_false]
    exact ih (fun c hc => h c (by simp [hc]))

theorem Memory.wf_tail {c : Host.Cell} {m : Memory} (h : Memory.wf (c :: m)) : Memory.wf m :=
  ⟨(List.pairwise_cons.mp h.1).2, fun x hx => h.2 x (by simp [hx])⟩

theorem Memory.wf_head_lt {c : Host.Cell} {m : Memory} (h : Memory.wf (c :: m)) : ∀ x ∈ m, c.1 < x.1 :=
  (List.pairwise_cons.mp h.1).1

/-- A write leaves every other address alone. -/
theorem Memory.read_write_other (m : Memory) (a a' : Nat) (b : Byte) (h : a' ≠ a) :
    Memory.read (Memory.write m a b) a' = Memory.read m a' := by
  induction m with
  | nil => simp [Memory.write, Memory.read_cons_other _ _ _ _ h]
  | cons c m ih =>
    obtain ⟨k, v⟩ := c
    simp only [Memory.write]
    split
    · exact Memory.read_cons_other _ _ _ _ h
    · split
      · next hk => subst hk; simp [Memory.read_cons_other _ _ _ _ h, Memory.read, h]
      · simp [Memory.read, ih]

/-- A read after a write to the same address gives the byte written. -/
theorem Memory.read_write_same (m : Memory) (a : Nat) (b : Byte) (h : Memory.wf m) :
    Memory.read (Memory.write m a b) a = b := by
  induction m with
  | nil => exact Memory.read_cons_same _ _ _ rfl
  | cons c m ih =>
    obtain ⟨k, v⟩ := c
    have hlt := Memory.wf_head_lt h
    simp only [Memory.write]
    split
    · next hk =>
      refine Memory.read_cons_same _ _ _ (Memory.read_of_forall_lt _ _ ?_)
      intro c hc
      rcases List.mem_cons.mp hc with rfl | hc
      · exact hk
      · exact Nat.lt_trans hk (hlt c hc)
    · split
      · next hk => subst hk; exact Memory.read_cons_same _ _ _ (Memory.read_of_forall_lt _ _ hlt)
      · next hne => simp [Memory.read, hne, ih (Memory.wf_tail h)]

theorem Memory.mem_cons_cases {a : Nat} {b : Byte} {m : Memory} {c : Host.Cell} (h : c ∈ Memory.cons a b m) :
    c ∈ m ∨ (c = (a, b) ∧ b ≠ Memory.unlisted) := by
  unfold Memory.cons at h
  split at h
  · exact .inl h
  · next hb =>
    rcases List.mem_cons.mp h with rfl | h
    · exact .inr ⟨rfl, hb⟩
    · exact .inl h

theorem Memory.mem_write_key {m : Memory} {a : Nat} {b : Byte} {c : Host.Cell} (h : c ∈ Memory.write m a b) :
    c ∈ m ∨ (c = (a, b) ∧ b ≠ Memory.unlisted) := by
  induction m with
  | nil => exact Memory.mem_cons_cases h
  | cons d m ih =>
    obtain ⟨k, v⟩ := d
    simp only [Memory.write] at h
    split at h
    · exact Memory.mem_cons_cases h
    · split at h
      · exact (Memory.mem_cons_cases h).imp_left (List.mem_cons_of_mem _)
      · rcases List.mem_cons.mp h with rfl | h
        · exact .inl (by simp)
        · exact (ih h).imp_left (List.mem_cons_of_mem _)

theorem Memory.cons_wf {a : Nat} {b : Byte} {m : Memory} (hm : Memory.wf m) (h : ∀ c ∈ m, a < c.1) :
    Memory.wf (Memory.cons a b m) := by
  unfold Memory.cons
  split
  · exact hm
  · next hb =>
    refine ⟨List.pairwise_cons.mpr ⟨h, hm.1⟩, fun c hc => ?_⟩
    rcases List.mem_cons.mp hc with rfl | hc
    · exact hb
    · exact hm.2 c hc

/-- A write keeps the canonical form. -/
theorem Memory.write_wf (m : Memory) (a : Nat) (b : Byte) (h : Memory.wf m) : Memory.wf (Memory.write m a b) := by
  induction m with
  | nil => exact Memory.cons_wf h (by simp)
  | cons c m ih =>
    obtain ⟨k, v⟩ := c
    have hlt := Memory.wf_head_lt h
    simp only [Memory.write]
    split
    · next hk =>
      refine Memory.cons_wf h (fun c hc => ?_)
      rcases List.mem_cons.mp hc with rfl | hc
      · exact hk
      · exact Nat.lt_trans hk (hlt c hc)
    · split
      · next hk => subst hk; exact Memory.cons_wf (Memory.wf_tail h) hlt
      · next hlt' hne =>
        have hw := ih (Memory.wf_tail h)
        refine ⟨List.pairwise_cons.mpr ⟨fun c hc => ?_, hw.1⟩, fun c hc => ?_⟩
        · rcases Memory.mem_write_key hc with hc | ⟨rfl, -⟩
          · exact hlt c hc
          · show k < a
            omega
        · rcases List.mem_cons.mp hc with rfl | hc
          · exact h.2 (k, v) (by simp)
          · exact hw.2 c hc

/-- Writing several bytes keeps the canonical form. -/
theorem Memory.writeBytes_wf (m : Memory) (a : Nat) (bs : List Byte) (h : Memory.wf m) :
    Memory.wf (Memory.writeBytes m a bs) := by
  induction bs generalizing m a with
  | nil => exact h
  | cons b bs ih => exact ih _ _ (Memory.write_wf m a b h)

/-- Writing several bytes leaves every address outside them alone. -/
theorem Memory.read_writeBytes_other (m : Memory) (a a' : Nat) (bs : List Byte) (h : a' < a ∨ a + bs.length ≤ a') :
    Memory.read (Memory.writeBytes m a bs) a' = Memory.read m a' := by
  induction bs generalizing m a with
  | nil => rfl
  | cons b bs ih =>
    simp only [List.length_cons] at h
    simp only [Memory.writeBytes]
    rw [ih _ _ (by omega), Memory.read_write_other _ _ _ _ (by omega)]

/-- The byte at offset `i` of several written bytes. -/
theorem Memory.read_writeBytes_at (m : Memory) (a i : Nat) (bs : List Byte) (h : Memory.wf m) (hi : i < bs.length) :
    Memory.read (Memory.writeBytes m a bs) (a + i) = bs[i] := by
  induction bs generalizing m a i with
  | nil => simp at hi
  | cons b bs ih =>
    simp only [Memory.writeBytes]
    cases i with
    | zero =>
      rw [Memory.read_writeBytes_other _ _ _ _ (by omega)]
      simpa using Memory.read_write_same m a b h
    | succ i =>
      have hi' : i < bs.length := by simpa using hi
      have := ih (Memory.write m a b) (a + 1) i (Memory.write_wf m a b h) hi'
      rw [show a + (i + 1) = a + 1 + i by omega, this]
      simp

@[simp] theorem Memory.length_readBytes (m : Memory) (a n : Nat) : (Memory.readBytes m a n).length = n := by
  induction n generalizing a with
  | zero => rfl
  | succ n ih => simp [Memory.readBytes, ih]

theorem Memory.readBytes_add (m : Memory) (a n k : Nat) :
    Memory.readBytes m a (n + k) = Memory.readBytes m a n ++ Memory.readBytes m (a + n) k := by
  induction n generalizing a with
  | zero => simp [Memory.readBytes]
  | succ n ih =>
    rw [show n + 1 + k = n + k + 1 by omega]
    simp only [Memory.readBytes, List.cons_append]
    rw [ih, show a + 1 + n = a + (n + 1) by omega]

/-- Reading below the written bytes gives what was there. -/
theorem Memory.readBytes_writeBytes_below (m : Memory) (a n s : Nat) (bs : List Byte) (h : a + n ≤ s) :
    Memory.readBytes (Memory.writeBytes m s bs) a n = Memory.readBytes m a n := by
  induction n generalizing a with
  | zero => rfl
  | succ n ih =>
    simp only [Memory.readBytes]
    rw [ih _ (by omega), Memory.read_writeBytes_other _ _ _ _ (by omega)]

/-- Reading the written bytes gives them back. -/
theorem Memory.readBytes_writeBytes_same (m : Memory) (a : Nat) (bs : List Byte) (h : Memory.wf m) :
    Memory.readBytes (Memory.writeBytes m a bs) a bs.length = bs := by
  induction bs generalizing m a with
  | nil => rfl
  | cons b bs ih =>
    simp only [Memory.writeBytes, List.length_cons, Memory.readBytes]
    rw [ih _ _ (Memory.write_wf m a b h), Memory.read_writeBytes_other _ _ _ _ (by omega), Memory.read_write_same m a b h]

/-! ## SLOT -/

theorem Slots.read_cons_same (a : Nat) (ws : List Word) (m : Slots) (h : Slots.read m a = []) :
    Slots.read (Slots.cons a ws m) a = ws := by
  unfold Slots.cons
  split
  · next hb => rw [h, hb]
  · simp [Slots.read]

theorem Slots.read_cons_other (a a' : Nat) (ws : List Word) (m : Slots) (h : a' ≠ a) :
    Slots.read (Slots.cons a ws m) a' = Slots.read m a' := by
  unfold Slots.cons
  split
  · rfl
  · simp [Slots.read, h]

theorem Slots.read_of_forall_lt (m : Slots) (a : Nat) (h : ∀ c ∈ m, a < c.1) : Slots.read m a = [] := by
  induction m with
  | nil => rfl
  | cons c m ih =>
    obtain ⟨k, v⟩ := c
    have hk : a < k := h (k, v) (by simp)
    have hne : a ≠ k := by omega
    simp only [Slots.read, hne, if_false]
    exact ih (fun c hc => h c (by simp [hc]))

theorem Slots.wf_tail {c : Nat × List Word} {m : Slots} (h : Slots.wf (c :: m)) : Slots.wf m :=
  ⟨(List.pairwise_cons.mp h.1).2, fun x hx => h.2 x (by simp [hx])⟩

theorem Slots.wf_head_lt {c : Nat × List Word} {m : Slots} (h : Slots.wf (c :: m)) : ∀ x ∈ m, c.1 < x.1 :=
  (List.pairwise_cons.mp h.1).1

/-- A write leaves every other slot alone. -/
theorem Slots.read_write_other (m : Slots) (a a' : Nat) (ws : List Word) (h : a' ≠ a) :
    Slots.read (Slots.write m a ws) a' = Slots.read m a' := by
  induction m with
  | nil => simp [Slots.write, Slots.read_cons_other _ _ _ _ h]
  | cons c m ih =>
    obtain ⟨k, v⟩ := c
    simp only [Slots.write]
    split
    · exact Slots.read_cons_other _ _ _ _ h
    · split
      · next hk => subst hk; simp [Slots.read_cons_other _ _ _ _ h, Slots.read, h]
      · simp [Slots.read, ih]

/-- A read after a write to the same slot gives the words written. -/
theorem Slots.read_write_same (m : Slots) (a : Nat) (ws : List Word) (h : Slots.wf m) :
    Slots.read (Slots.write m a ws) a = ws := by
  induction m with
  | nil => exact Slots.read_cons_same _ _ _ rfl
  | cons c m ih =>
    obtain ⟨k, v⟩ := c
    have hlt := Slots.wf_head_lt h
    simp only [Slots.write]
    split
    · next hk =>
      refine Slots.read_cons_same _ _ _ (Slots.read_of_forall_lt _ _ ?_)
      intro c hc
      rcases List.mem_cons.mp hc with rfl | hc
      · exact hk
      · exact Nat.lt_trans hk (hlt c hc)
    · split
      · next hk => subst hk; exact Slots.read_cons_same _ _ _ (Slots.read_of_forall_lt _ _ hlt)
      · next hne => simp [Slots.read, hne, ih (Slots.wf_tail h)]

theorem Slots.mem_cons_cases {a : Nat} {ws : List Word} {m : Slots} {c : Nat × List Word} (h : c ∈ Slots.cons a ws m) :
    c ∈ m ∨ (c = (a, ws) ∧ ws ≠ []) := by
  unfold Slots.cons at h
  split at h
  · exact .inl h
  · next hb =>
    rcases List.mem_cons.mp h with rfl | h
    · exact .inr ⟨rfl, hb⟩
    · exact .inl h

theorem Slots.mem_write_key {m : Slots} {a : Nat} {ws : List Word} {c : Nat × List Word} (h : c ∈ Slots.write m a ws) :
    c ∈ m ∨ (c = (a, ws) ∧ ws ≠ []) := by
  induction m with
  | nil => exact Slots.mem_cons_cases h
  | cons d m ih =>
    obtain ⟨k, v⟩ := d
    simp only [Slots.write] at h
    split at h
    · exact Slots.mem_cons_cases h
    · split at h
      · exact (Slots.mem_cons_cases h).imp_left (List.mem_cons_of_mem _)
      · rcases List.mem_cons.mp h with rfl | h
        · exact .inl (by simp)
        · exact (ih h).imp_left (List.mem_cons_of_mem _)

theorem Slots.cons_wf {a : Nat} {ws : List Word} {m : Slots} (hm : Slots.wf m) (h : ∀ c ∈ m, a < c.1) :
    Slots.wf (Slots.cons a ws m) := by
  unfold Slots.cons
  split
  · exact hm
  · next hb =>
    refine ⟨List.pairwise_cons.mpr ⟨h, hm.1⟩, fun c hc => ?_⟩
    rcases List.mem_cons.mp hc with rfl | hc
    · exact hb
    · exact hm.2 c hc

/-- A write keeps the canonical form. -/
theorem Slots.write_wf (m : Slots) (a : Nat) (ws : List Word) (h : Slots.wf m) : Slots.wf (Slots.write m a ws) := by
  induction m with
  | nil => exact Slots.cons_wf h (by simp)
  | cons c m ih =>
    obtain ⟨k, v⟩ := c
    have hlt := Slots.wf_head_lt h
    simp only [Slots.write]
    split
    · next hk =>
      refine Slots.cons_wf h (fun c hc => ?_)
      rcases List.mem_cons.mp hc with rfl | hc
      · exact hk
      · exact Nat.lt_trans hk (hlt c hc)
    · split
      · next hk => subst hk; exact Slots.cons_wf (Slots.wf_tail h) hlt
      · next hlt' hne =>
        have hw := ih (Slots.wf_tail h)
        refine ⟨List.pairwise_cons.mpr ⟨fun c hc => ?_, hw.1⟩, fun c hc => ?_⟩
        · rcases Slots.mem_write_key hc with hc | ⟨rfl, -⟩
          · exact hlt c hc
          · show k < a
            omega
        · rcases List.mem_cons.mp hc with rfl | hc
          · exact h.2 (k, v) (by simp)
          · exact hw.2 c hc

/-- Storing a reply's data keeps the canonical form. -/
theorem Slots.store_wf (m : Slots) (slot : Option Nat) (data : List Word) (h : Slots.wf m) :
    Slots.wf (Slots.store m slot data) := by
  unfold Slots.store
  split
  · exact h
  · split
    · exact h
    · exact Slots.write_wf _ _ _ h

/-- What storing a reply's data does to any slot. -/
theorem Slots.read_store (m : Slots) (slot : Option Nat) (data : List Word) (name : Nat) (h : Slots.wf m) :
    Slots.read (Slots.store m slot data) name =
      if slot = some name ∧ data ≠ [] then data else Slots.read m name := by
  unfold Slots.store
  split
  · simp
  · next n =>
    by_cases hd : data = []
    · simp [hd]
    · by_cases hn : n = name
      · subst hn; simp [hd, Slots.read_write_same _ _ _ h]
      · simp [hd, hn, Slots.read_write_other _ _ _ _ (Ne.symm hn)]

/-- The memory and the slots of the reset state are in canonical form. -/
theorem reset_canonical : Memory.wf State.reset.outbuf ∧ Slots.wf State.reset.slots := by
  refine ⟨⟨List.Pairwise.nil, ?_⟩, ⟨List.Pairwise.nil, ?_⟩⟩ <;> intro c hc <;> cases hc

end Sys2Proof.Machine
end

