-- ==== Sys2Proof/Laws/State.lean ====
section
/-! SUPPORT. One lemma per field per update of the state: what each shared operation leaves in each field. -/

namespace Sys2Proof.Machine

/-- Raising an error is a response. -/
@[simp] theorem raise_eq (e : Error) (s : State) : raise e s = respond (.error e) s := rfl
/-- Returning OK is a response. -/
@[simp] theorem returnOk_eq (v : OkValue) (s : State) : returnOk v s = respond (.ok v) s := rfl

/-! ## respond -/

@[simp] theorem respond_params (r : Response) (s : State) : (respond r s).params = s.params := rfl
@[simp] theorem respond_nextId (r : Response) (s : State) : (respond r s).nextId = s.nextId := rfl
@[simp] theorem respond_lastId (r : Response) (s : State) : (respond r s).lastId = s.lastId := rfl
@[simp] theorem respond_lastValid (r : Response) (s : State) : (respond r s).lastValid = s.lastValid := rfl
@[simp] theorem respond_batch (r : Response) (s : State) : (respond r s).batch = s.batch := rfl
@[simp] theorem respond_outLen (r : Response) (s : State) : (respond r s).outLen = s.outLen := rfl
@[simp] theorem respond_inLen (r : Response) (s : State) : (respond r s).inLen = s.inLen := rfl
@[simp] theorem respond_outbuf (r : Response) (s : State) : (respond r s).outbuf = s.outbuf := rfl
@[simp] theorem respond_inbuf (r : Response) (s : State) : (respond r s).inbuf = s.inbuf := rfl
@[simp] theorem respond_recIdx (r : Response) (s : State) : (respond r s).recIdx = s.recIdx := rfl
@[simp] theorem respond_wordPos (r : Response) (s : State) : (respond r s).wordPos = s.wordPos := rfl
@[simp] theorem respond_resume (r : Response) (s : State) : (respond r s).resume = s.resume := rfl
@[simp] theorem respond_decoder (r : Response) (s : State) : (respond r s).decoder = s.decoder := rfl
@[simp] theorem respond_payload (r : Response) (s : State) : (respond r s).payload = s.payload := rfl
@[simp] theorem respond_boardIndex (r : Response) (s : State) : (respond r s).boardIndex = s.boardIndex := rfl
@[simp] theorem respond_rcvIndex (r : Response) (s : State) : (respond r s).rcvIndex = s.rcvIndex := rfl
@[simp] theorem respond_event (r : Response) (s : State) : (respond r s).event = s.event := rfl
@[simp] theorem respond_cmd (r : Response) (s : State) : (respond r s).cmd = s.cmd := rfl
@[simp] theorem respond_caller (r : Response) (s : State) : (respond r s).caller = s.caller := rfl
@[simp] theorem respond_rsp (r : Response) (s : State) : (respond r s).rsp = s.rsp ++ [⟨s.caller, r⟩] := rfl
@[simp] theorem respond_slots (r : Response) (s : State) : (respond r s).slots = s.slots := rfl
@[simp] theorem respond_tx (r : Response) (s : State) : (respond r s).tx = s.tx := rfl
@[simp] theorem respond_rx (r : Response) (s : State) : (respond r s).rx = s.rx := rfl
@[simp] theorem respond_hits (r : Response) (s : State) : (respond r s).hits = s.hits := rfl
@[simp] theorem respond_evts (r : Response) (s : State) : (respond r s).evts = s.evts := rfl
@[simp] theorem respond_activity (r : Response) (s : State) : (respond r s).activity = s.activity := rfl
@[simp] theorem respond_draws (r : Response) (s : State) : (respond r s).draws = s.draws := rfl

/-! ## emitHits -/

@[simp] theorem emitHits_params (hs : List PixelHit) (s : State) : (emitHits hs s).params = s.params := rfl
@[simp] theorem emitHits_nextId (hs : List PixelHit) (s : State) : (emitHits hs s).nextId = s.nextId := rfl
@[simp] theorem emitHits_lastId (hs : List PixelHit) (s : State) : (emitHits hs s).lastId = s.lastId := rfl
@[simp] theorem emitHits_lastValid (hs : List PixelHit) (s : State) : (emitHits hs s).lastValid = s.lastValid := rfl
@[simp] theorem emitHits_batch (hs : List PixelHit) (s : State) : (emitHits hs s).batch = s.batch := rfl
@[simp] theorem emitHits_outLen (hs : List PixelHit) (s : State) : (emitHits hs s).outLen = s.outLen := rfl
@[simp] theorem emitHits_inLen (hs : List PixelHit) (s : State) : (emitHits hs s).inLen = s.inLen := rfl
@[simp] theorem emitHits_outbuf (hs : List PixelHit) (s : State) : (emitHits hs s).outbuf = s.outbuf := rfl
@[simp] theorem emitHits_inbuf (hs : List PixelHit) (s : State) : (emitHits hs s).inbuf = s.inbuf := rfl
@[simp] theorem emitHits_recIdx (hs : List PixelHit) (s : State) : (emitHits hs s).recIdx = s.recIdx := rfl
@[simp] theorem emitHits_wordPos (hs : List PixelHit) (s : State) : (emitHits hs s).wordPos = s.wordPos := rfl
@[simp] theorem emitHits_resume (hs : List PixelHit) (s : State) : (emitHits hs s).resume = s.resume := rfl
@[simp] theorem emitHits_decoder (hs : List PixelHit) (s : State) : (emitHits hs s).decoder = s.decoder := rfl
@[simp] theorem emitHits_payload (hs : List PixelHit) (s : State) : (emitHits hs s).payload = s.payload := rfl
@[simp] theorem emitHits_boardIndex (hs : List PixelHit) (s : State) : (emitHits hs s).boardIndex = s.boardIndex := rfl
@[simp] theorem emitHits_rcvIndex (hs : List PixelHit) (s : State) : (emitHits hs s).rcvIndex = s.rcvIndex := rfl
@[simp] theorem emitHits_event (hs : List PixelHit) (s : State) : (emitHits hs s).event = s.event := rfl
@[simp] theorem emitHits_cmd (hs : List PixelHit) (s : State) : (emitHits hs s).cmd = s.cmd := rfl
@[simp] theorem emitHits_caller (hs : List PixelHit) (s : State) : (emitHits hs s).caller = s.caller := rfl
@[simp] theorem emitHits_rsp (hs : List PixelHit) (s : State) : (emitHits hs s).rsp = s.rsp := rfl
@[simp] theorem emitHits_slots (hs : List PixelHit) (s : State) : (emitHits hs s).slots = s.slots := rfl
@[simp] theorem emitHits_tx (hs : List PixelHit) (s : State) : (emitHits hs s).tx = s.tx := rfl
@[simp] theorem emitHits_rx (hs : List PixelHit) (s : State) : (emitHits hs s).rx = s.rx := rfl
@[simp] theorem emitHits_hits (hs : List PixelHit) (s : State) : (emitHits hs s).hits = s.hits ++ hs := rfl
@[simp] theorem emitHits_evts (hs : List PixelHit) (s : State) : (emitHits hs s).evts = s.evts := rfl
@[simp] theorem emitHits_activity (hs : List PixelHit) (s : State) : (emitHits hs s).activity = s.activity := rfl
@[simp] theorem emitHits_draws (hs : List PixelHit) (s : State) : (emitHits hs s).draws = s.draws := rfl

/-! ## sendEvt -/

@[simp] theorem sendEvt_params (e : Evt) (s : State) : (sendEvt e s).params = s.params := rfl
@[simp] theorem sendEvt_nextId (e : Evt) (s : State) : (sendEvt e s).nextId = s.nextId := rfl
@[simp] theorem sendEvt_lastId (e : Evt) (s : State) : (sendEvt e s).lastId = s.lastId := rfl
@[simp] theorem sendEvt_lastValid (e : Evt) (s : State) : (sendEvt e s).lastValid = s.lastValid := rfl
@[simp] theorem sendEvt_batch (e : Evt) (s : State) : (sendEvt e s).batch = s.batch := rfl
@[simp] theorem sendEvt_outLen (e : Evt) (s : State) : (sendEvt e s).outLen = s.outLen := rfl
@[simp] theorem sendEvt_inLen (e : Evt) (s : State) : (sendEvt e s).inLen = s.inLen := rfl
@[simp] theorem sendEvt_outbuf (e : Evt) (s : State) : (sendEvt e s).outbuf = s.outbuf := rfl
@[simp] theorem sendEvt_inbuf (e : Evt) (s : State) : (sendEvt e s).inbuf = s.inbuf := rfl
@[simp] theorem sendEvt_recIdx (e : Evt) (s : State) : (sendEvt e s).recIdx = s.recIdx := rfl
@[simp] theorem sendEvt_wordPos (e : Evt) (s : State) : (sendEvt e s).wordPos = s.wordPos := rfl
@[simp] theorem sendEvt_resume (e : Evt) (s : State) : (sendEvt e s).resume = s.resume := rfl
@[simp] theorem sendEvt_decoder (e : Evt) (s : State) : (sendEvt e s).decoder = s.decoder := rfl
@[simp] theorem sendEvt_payload (e : Evt) (s : State) : (sendEvt e s).payload = s.payload := rfl
@[simp] theorem sendEvt_boardIndex (e : Evt) (s : State) : (sendEvt e s).boardIndex = s.boardIndex := rfl
@[simp] theorem sendEvt_rcvIndex (e : Evt) (s : State) : (sendEvt e s).rcvIndex = s.rcvIndex := rfl
@[simp] theorem sendEvt_event (e : Evt) (s : State) : (sendEvt e s).event = s.event := rfl
@[simp] theorem sendEvt_cmd (e : Evt) (s : State) : (sendEvt e s).cmd = s.cmd := rfl
@[simp] theorem sendEvt_caller (e : Evt) (s : State) : (sendEvt e s).caller = s.caller := rfl
@[simp] theorem sendEvt_rsp (e : Evt) (s : State) : (sendEvt e s).rsp = s.rsp := rfl
@[simp] theorem sendEvt_slots (e : Evt) (s : State) : (sendEvt e s).slots = s.slots := rfl
@[simp] theorem sendEvt_tx (e : Evt) (s : State) : (sendEvt e s).tx = s.tx := rfl
@[simp] theorem sendEvt_rx (e : Evt) (s : State) : (sendEvt e s).rx = s.rx := rfl
@[simp] theorem sendEvt_hits (e : Evt) (s : State) : (sendEvt e s).hits = s.hits := rfl
@[simp] theorem sendEvt_evts (e : Evt) (s : State) : (sendEvt e s).evts = s.evts ++ [e] := rfl
@[simp] theorem sendEvt_activity (e : Evt) (s : State) : (sendEvt e s).activity = s.activity := rfl
@[simp] theorem sendEvt_draws (e : Evt) (s : State) : (sendEvt e s).draws = s.draws := rfl

/-! ## sendBatch -/

@[simp] theorem sendBatch_params (s : State) : (sendBatch s).params = s.params := rfl
@[simp] theorem sendBatch_nextId (s : State) : (sendBatch s).nextId = s.nextId := rfl
@[simp] theorem sendBatch_lastId (s : State) : (sendBatch s).lastId = s.lastId := rfl
@[simp] theorem sendBatch_lastValid (s : State) : (sendBatch s).lastValid = s.lastValid := rfl
@[simp] theorem sendBatch_batch (s : State) : (sendBatch s).batch = s.batch := rfl
@[simp] theorem sendBatch_outLen (s : State) : (sendBatch s).outLen = s.outLen := rfl
@[simp] theorem sendBatch_inLen (s : State) : (sendBatch s).inLen = s.inLen := rfl
@[simp] theorem sendBatch_outbuf (s : State) : (sendBatch s).outbuf = s.outbuf := rfl
@[simp] theorem sendBatch_inbuf (s : State) : (sendBatch s).inbuf = s.inbuf := rfl
@[simp] theorem sendBatch_recIdx (s : State) : (sendBatch s).recIdx = s.recIdx := rfl
@[simp] theorem sendBatch_wordPos (s : State) : (sendBatch s).wordPos = s.wordPos := rfl
@[simp] theorem sendBatch_resume (s : State) : (sendBatch s).resume = s.resume := rfl
@[simp] theorem sendBatch_decoder (s : State) : (sendBatch s).decoder = s.decoder := rfl
@[simp] theorem sendBatch_payload (s : State) : (sendBatch s).payload = s.payload := rfl
@[simp] theorem sendBatch_boardIndex (s : State) : (sendBatch s).boardIndex = s.boardIndex := rfl
@[simp] theorem sendBatch_rcvIndex (s : State) : (sendBatch s).rcvIndex = s.rcvIndex := rfl
@[simp] theorem sendBatch_event (s : State) : (sendBatch s).event = s.event := rfl
@[simp] theorem sendBatch_cmd (s : State) : (sendBatch s).cmd = s.cmd := rfl
@[simp] theorem sendBatch_caller (s : State) : (sendBatch s).caller = s.caller := rfl
@[simp] theorem sendBatch_rsp (s : State) : (sendBatch s).rsp = s.rsp := rfl
@[simp] theorem sendBatch_slots (s : State) : (sendBatch s).slots = s.slots := rfl
@[simp] theorem sendBatch_tx (s : State) : (sendBatch s).tx = s.tx ++ [Memory.readBytes s.outbuf 0 s.outLen] := rfl
@[simp] theorem sendBatch_rx (s : State) : (sendBatch s).rx = s.rx := rfl
@[simp] theorem sendBatch_hits (s : State) : (sendBatch s).hits = s.hits := rfl
@[simp] theorem sendBatch_evts (s : State) : (sendBatch s).evts = s.evts := rfl
@[simp] theorem sendBatch_activity (s : State) : (sendBatch s).activity = s.activity := rfl
@[simp] theorem sendBatch_draws (s : State) : (sendBatch s).draws = s.draws := rfl

/-! ## afterReceive -/

@[simp] theorem afterReceive_params (s : State) : (afterReceive s).params = s.params := by
  unfold afterReceive; split <;> rfl
@[simp] theorem afterReceive_nextId (s : State) : (afterReceive s).nextId = s.nextId := by
  unfold afterReceive; split <;> rfl
@[simp] theorem afterReceive_lastId (s : State) : (afterReceive s).lastId = s.lastId := by
  unfold afterReceive; split <;> rfl
@[simp] theorem afterReceive_lastValid (s : State) : (afterReceive s).lastValid = s.lastValid := by
  unfold afterReceive; split <;> rfl
@[simp] theorem afterReceive_batch (s : State) : (afterReceive s).batch = s.batch := by
  unfold afterReceive; split <;> rfl
@[simp] theorem afterReceive_outLen (s : State) : (afterReceive s).outLen = s.outLen := by
  unfold afterReceive; split <;> rfl
@[simp] theorem afterReceive_inLen (s : State) : (afterReceive s).inLen = s.inLen := by
  unfold afterReceive; split <;> rfl
@[simp] theorem afterReceive_outbuf (s : State) : (afterReceive s).outbuf = s.outbuf := by
  unfold afterReceive; split <;> rfl
@[simp] theorem afterReceive_inbuf (s : State) : (afterReceive s).inbuf = s.inbuf := by
  unfold afterReceive; split <;> rfl
@[simp] theorem afterReceive_recIdx (s : State) : (afterReceive s).recIdx = s.recIdx := by
  unfold afterReceive; split <;> rfl
@[simp] theorem afterReceive_wordPos (s : State) : (afterReceive s).wordPos = s.wordPos := by
  unfold afterReceive; split <;> rfl
@[simp] theorem afterReceive_resume (s : State) : (afterReceive s).resume = s.resume := by
  unfold afterReceive; split <;> rfl
@[simp] theorem afterReceive_decoder (s : State) : (afterReceive s).decoder = s.decoder := by
  unfold afterReceive; split <;> rfl
@[simp] theorem afterReceive_payload (s : State) : (afterReceive s).payload = s.payload := by
  unfold afterReceive; split <;> rfl
@[simp] theorem afterReceive_boardIndex (s : State) : (afterReceive s).boardIndex = s.boardIndex := by
  unfold afterReceive; split <;> rfl
@[simp] theorem afterReceive_rcvIndex (s : State) : (afterReceive s).rcvIndex = s.rcvIndex := by
  unfold afterReceive; split <;> rfl
@[simp] theorem afterReceive_event (s : State) : (afterReceive s).event = s.event := by
  unfold afterReceive; split <;> rfl
@[simp] theorem afterReceive_cmd (s : State) : (afterReceive s).cmd = s.cmd := by
  unfold afterReceive; split <;> rfl
@[simp] theorem afterReceive_caller (s : State) : (afterReceive s).caller = s.caller := by
  unfold afterReceive; split <;> rfl
@[simp] theorem afterReceive_rsp (s : State) : (afterReceive s).rsp = s.rsp := by
  unfold afterReceive; split <;> rfl
@[simp] theorem afterReceive_slots (s : State) : (afterReceive s).slots = s.slots := by
  unfold afterReceive; split <;> rfl
@[simp] theorem afterReceive_tx (s : State) : (afterReceive s).tx = s.tx := by
  unfold afterReceive; split <;> rfl
@[simp] theorem afterReceive_rx (s : State) : (afterReceive s).rx = s.rx.tail := by
  unfold afterReceive; split <;> simp_all
@[simp] theorem afterReceive_hits (s : State) : (afterReceive s).hits = s.hits := by
  unfold afterReceive; split <;> rfl
@[simp] theorem afterReceive_evts (s : State) : (afterReceive s).evts = s.evts := by
  unfold afterReceive; split <;> rfl
@[simp] theorem afterReceive_activity (s : State) : (afterReceive s).activity = s.activity := by
  unfold afterReceive; split <;> rfl
@[simp] theorem afterReceive_draws (s : State) : (afterReceive s).draws = if s.rx = [] then s.draws + 1 else s.draws := by
  unfold afterReceive; split <;> simp_all

/-! ## dropBatch -/

@[simp] theorem dropBatch_params (s : State) : (dropBatch s).params = s.params := rfl
@[simp] theorem dropBatch_nextId (s : State) : (dropBatch s).nextId = s.nextId := rfl
@[simp] theorem dropBatch_lastId (s : State) : (dropBatch s).lastId = s.lastId := rfl
@[simp] theorem dropBatch_lastValid (s : State) : (dropBatch s).lastValid = s.lastValid := rfl
@[simp] theorem dropBatch_batch (s : State) : (dropBatch s).batch = [] := rfl
@[simp] theorem dropBatch_outLen (s : State) : (dropBatch s).outLen = 0 := rfl
@[simp] theorem dropBatch_inLen (s : State) : (dropBatch s).inLen = 0 := rfl
@[simp] theorem dropBatch_outbuf (s : State) : (dropBatch s).outbuf = s.outbuf := rfl
@[simp] theorem dropBatch_inbuf (s : State) : (dropBatch s).inbuf = s.inbuf := rfl
@[simp] theorem dropBatch_recIdx (s : State) : (dropBatch s).recIdx = 0 := rfl
@[simp] theorem dropBatch_wordPos (s : State) : (dropBatch s).wordPos = Config.pktHdrWords := rfl
@[simp] theorem dropBatch_resume (s : State) : (dropBatch s).resume = s.resume := rfl
@[simp] theorem dropBatch_decoder (s : State) : (dropBatch s).decoder = s.decoder := rfl
@[simp] theorem dropBatch_payload (s : State) : (dropBatch s).payload = s.payload := rfl
@[simp] theorem dropBatch_boardIndex (s : State) : (dropBatch s).boardIndex = s.boardIndex := rfl
@[simp] theorem dropBatch_rcvIndex (s : State) : (dropBatch s).rcvIndex = s.rcvIndex := rfl
@[simp] theorem dropBatch_event (s : State) : (dropBatch s).event = s.event := rfl
@[simp] theorem dropBatch_cmd (s : State) : (dropBatch s).cmd = s.cmd := rfl
@[simp] theorem dropBatch_caller (s : State) : (dropBatch s).caller = s.caller := rfl
@[simp] theorem dropBatch_rsp (s : State) : (dropBatch s).rsp = s.rsp := rfl
@[simp] theorem dropBatch_slots (s : State) : (dropBatch s).slots = s.slots := rfl
@[simp] theorem dropBatch_tx (s : State) : (dropBatch s).tx = s.tx := rfl
@[simp] theorem dropBatch_rx (s : State) : (dropBatch s).rx = s.rx := rfl
@[simp] theorem dropBatch_hits (s : State) : (dropBatch s).hits = s.hits := rfl
@[simp] theorem dropBatch_evts (s : State) : (dropBatch s).evts = s.evts := rfl
@[simp] theorem dropBatch_activity (s : State) : (dropBatch s).activity = s.activity := rfl
@[simp] theorem dropBatch_draws (s : State) : (dropBatch s).draws = s.draws := rfl

/-! ## acceptReply -/

@[simp] theorem acceptReply_params (ws : List Word) (s : State) : (acceptReply ws s).params = s.params := rfl
@[simp] theorem acceptReply_nextId (ws : List Word) (s : State) : (acceptReply ws s).nextId = s.nextId := rfl
@[simp] theorem acceptReply_lastId (ws : List Word) (s : State) : (acceptReply ws s).lastId = firstId ws := rfl
@[simp] theorem acceptReply_lastValid (ws : List Word) (s : State) : (acceptReply ws s).lastValid = true := rfl
@[simp] theorem acceptReply_batch (ws : List Word) (s : State) : (acceptReply ws s).batch = [] := rfl
@[simp] theorem acceptReply_outLen (ws : List Word) (s : State) : (acceptReply ws s).outLen = 0 := rfl
@[simp] theorem acceptReply_inLen (ws : List Word) (s : State) : (acceptReply ws s).inLen = 0 := rfl
@[simp] theorem acceptReply_outbuf (ws : List Word) (s : State) : (acceptReply ws s).outbuf = s.outbuf := rfl
@[simp] theorem acceptReply_inbuf (ws : List Word) (s : State) : (acceptReply ws s).inbuf = s.inbuf := rfl
@[simp] theorem acceptReply_recIdx (ws : List Word) (s : State) : (acceptReply ws s).recIdx = 0 := rfl
@[simp] theorem acceptReply_wordPos (ws : List Word) (s : State) : (acceptReply ws s).wordPos = Config.pktHdrWords := rfl
@[simp] theorem acceptReply_resume (ws : List Word) (s : State) : (acceptReply ws s).resume = s.resume := rfl
@[simp] theorem acceptReply_decoder (ws : List Word) (s : State) : (acceptReply ws s).decoder = s.decoder := rfl
@[simp] theorem acceptReply_payload (ws : List Word) (s : State) : (acceptReply ws s).payload = s.payload := rfl
@[simp] theorem acceptReply_boardIndex (ws : List Word) (s : State) : (acceptReply ws s).boardIndex = s.boardIndex := rfl
@[simp] theorem acceptReply_rcvIndex (ws : List Word) (s : State) : (acceptReply ws s).rcvIndex = s.rcvIndex := rfl
@[simp] theorem acceptReply_event (ws : List Word) (s : State) : (acceptReply ws s).event = s.event := rfl
@[simp] theorem acceptReply_cmd (ws : List Word) (s : State) : (acceptReply ws s).cmd = s.cmd := rfl
@[simp] theorem acceptReply_caller (ws : List Word) (s : State) : (acceptReply ws s).caller = s.caller := rfl
@[simp] theorem acceptReply_rsp (ws : List Word) (s : State) : (acceptReply ws s).rsp = s.rsp := rfl
@[simp] theorem acceptReply_slots (ws : List Word) (s : State) : (acceptReply ws s).slots = s.slots := rfl
@[simp] theorem acceptReply_tx (ws : List Word) (s : State) : (acceptReply ws s).tx = s.tx := rfl
@[simp] theorem acceptReply_rx (ws : List Word) (s : State) : (acceptReply ws s).rx = s.rx := rfl
@[simp] theorem acceptReply_hits (ws : List Word) (s : State) : (acceptReply ws s).hits = s.hits := rfl
@[simp] theorem acceptReply_evts (ws : List Word) (s : State) : (acceptReply ws s).evts = s.evts := rfl
@[simp] theorem acceptReply_activity (ws : List Word) (s : State) : (acceptReply ws s).activity = s.activity := rfl
@[simp] theorem acceptReply_draws (ws : List Word) (s : State) : (acceptReply ws s).draws = s.draws := rfl

/-! ## appendOp -/

@[simp] theorem appendOp_params (q : QueueOp) (s : State) : (appendOp q s).params = s.params := rfl
@[simp] theorem appendOp_nextId (q : QueueOp) (s : State) : (appendOp q s).nextId = assignedId s + 1#8 := rfl
@[simp] theorem appendOp_lastId (q : QueueOp) (s : State) : (appendOp q s).lastId = s.lastId := rfl
@[simp] theorem appendOp_lastValid (q : QueueOp) (s : State) : (appendOp q s).lastValid = s.lastValid := rfl
@[simp] theorem appendOp_batch (q : QueueOp) (s : State) : (appendOp q s).batch = s.batch ++ [q.record (assignedId s)] := rfl
@[simp] theorem appendOp_outLen (q : QueueOp) (s : State) : (appendOp q s).outLen = openOutLen s + 4 * (q.record (assignedId s)).req := rfl
@[simp] theorem appendOp_inLen (q : QueueOp) (s : State) : (appendOp q s).inLen = openInLen s + 4 * (q.record (assignedId s)).rsp := rfl
@[simp] theorem appendOp_outbuf (q : QueueOp) (s : State) : (appendOp q s).outbuf = Memory.writeBytes s.outbuf (openOutLen s) (requestBytes (q.record (assignedId s))) := rfl
@[simp] theorem appendOp_inbuf (q : QueueOp) (s : State) : (appendOp q s).inbuf = s.inbuf := rfl
@[simp] theorem appendOp_recIdx (q : QueueOp) (s : State) : (appendOp q s).recIdx = s.recIdx := rfl
@[simp] theorem appendOp_wordPos (q : QueueOp) (s : State) : (appendOp q s).wordPos = s.wordPos := rfl
@[simp] theorem appendOp_resume (q : QueueOp) (s : State) : (appendOp q s).resume = s.resume := rfl
@[simp] theorem appendOp_decoder (q : QueueOp) (s : State) : (appendOp q s).decoder = s.decoder := rfl
@[simp] theorem appendOp_payload (q : QueueOp) (s : State) : (appendOp q s).payload = s.payload := rfl
@[simp] theorem appendOp_boardIndex (q : QueueOp) (s : State) : (appendOp q s).boardIndex = s.boardIndex := rfl
@[simp] theorem appendOp_rcvIndex (q : QueueOp) (s : State) : (appendOp q s).rcvIndex = s.rcvIndex := rfl
@[simp] theorem appendOp_event (q : QueueOp) (s : State) : (appendOp q s).event = s.event := rfl
@[simp] theorem appendOp_cmd (q : QueueOp) (s : State) : (appendOp q s).cmd = s.cmd := rfl
@[simp] theorem appendOp_caller (q : QueueOp) (s : State) : (appendOp q s).caller = s.caller := rfl
@[simp] theorem appendOp_rsp (q : QueueOp) (s : State) : (appendOp q s).rsp = s.rsp := rfl
@[simp] theorem appendOp_slots (q : QueueOp) (s : State) : (appendOp q s).slots = s.slots := rfl
@[simp] theorem appendOp_tx (q : QueueOp) (s : State) : (appendOp q s).tx = s.tx := rfl
@[simp] theorem appendOp_rx (q : QueueOp) (s : State) : (appendOp q s).rx = s.rx := rfl
@[simp] theorem appendOp_hits (q : QueueOp) (s : State) : (appendOp q s).hits = s.hits := rfl
@[simp] theorem appendOp_evts (q : QueueOp) (s : State) : (appendOp q s).evts = s.evts := rfl
@[simp] theorem appendOp_activity (q : QueueOp) (s : State) : (appendOp q s).activity = s.activity := rfl
@[simp] theorem appendOp_draws (q : QueueOp) (s : State) : (appendOp q s).draws = s.draws := rfl

/-! ## resetEngine -/

@[simp] theorem resetEngine_params (s : State) : (resetEngine s).params = s.params := rfl
@[simp] theorem resetEngine_nextId (s : State) : (resetEngine s).nextId = s.params.resetTxid := rfl
@[simp] theorem resetEngine_lastId (s : State) : (resetEngine s).lastId = Config.freeLastId s.draws := rfl
@[simp] theorem resetEngine_lastValid (s : State) : (resetEngine s).lastValid = false := rfl
@[simp] theorem resetEngine_batch (s : State) : (resetEngine s).batch = [] := rfl
@[simp] theorem resetEngine_outLen (s : State) : (resetEngine s).outLen = 0 := rfl
@[simp] theorem resetEngine_inLen (s : State) : (resetEngine s).inLen = 0 := rfl
@[simp] theorem resetEngine_outbuf (s : State) : (resetEngine s).outbuf = [] := rfl
@[simp] theorem resetEngine_inbuf (s : State) : (resetEngine s).inbuf = [] := rfl
@[simp] theorem resetEngine_recIdx (s : State) : (resetEngine s).recIdx = 0 := rfl
@[simp] theorem resetEngine_wordPos (s : State) : (resetEngine s).wordPos = Config.pktHdrWords := rfl
@[simp] theorem resetEngine_resume (s : State) : (resetEngine s).resume = none := rfl
@[simp] theorem resetEngine_decoder (s : State) : (resetEngine s).decoder = s.decoder := rfl
@[simp] theorem resetEngine_payload (s : State) : (resetEngine s).payload = s.payload := rfl
@[simp] theorem resetEngine_boardIndex (s : State) : (resetEngine s).boardIndex = s.boardIndex := rfl
@[simp] theorem resetEngine_rcvIndex (s : State) : (resetEngine s).rcvIndex = s.rcvIndex := rfl
@[simp] theorem resetEngine_event (s : State) : (resetEngine s).event = s.event := rfl
@[simp] theorem resetEngine_cmd (s : State) : (resetEngine s).cmd = s.cmd := rfl
@[simp] theorem resetEngine_caller (s : State) : (resetEngine s).caller = s.caller := rfl
@[simp] theorem resetEngine_rsp (s : State) : (resetEngine s).rsp = s.rsp := rfl
@[simp] theorem resetEngine_slots (s : State) : (resetEngine s).slots = s.slots := rfl
@[simp] theorem resetEngine_tx (s : State) : (resetEngine s).tx = s.tx := rfl
@[simp] theorem resetEngine_rx (s : State) : (resetEngine s).rx = s.rx := rfl
@[simp] theorem resetEngine_hits (s : State) : (resetEngine s).hits = s.hits := rfl
@[simp] theorem resetEngine_evts (s : State) : (resetEngine s).evts = s.evts := rfl
@[simp] theorem resetEngine_activity (s : State) : (resetEngine s).activity = .command := rfl
@[simp] theorem resetEngine_draws (s : State) : (resetEngine s).draws = s.draws + 1 := rfl

/-! ## runDecode -/

@[simp] theorem runDecode_params (p : List Byte) (bi ri : Nat) (s : State) : (runDecode p bi ri s).params = s.params := rfl
@[simp] theorem runDecode_nextId (p : List Byte) (bi ri : Nat) (s : State) : (runDecode p bi ri s).nextId = s.nextId := rfl
@[simp] theorem runDecode_lastId (p : List Byte) (bi ri : Nat) (s : State) : (runDecode p bi ri s).lastId = s.lastId := rfl
@[simp] theorem runDecode_lastValid (p : List Byte) (bi ri : Nat) (s : State) : (runDecode p bi ri s).lastValid = s.lastValid := rfl
@[simp] theorem runDecode_batch (p : List Byte) (bi ri : Nat) (s : State) : (runDecode p bi ri s).batch = s.batch := rfl
@[simp] theorem runDecode_outLen (p : List Byte) (bi ri : Nat) (s : State) : (runDecode p bi ri s).outLen = s.outLen := rfl
@[simp] theorem runDecode_inLen (p : List Byte) (bi ri : Nat) (s : State) : (runDecode p bi ri s).inLen = s.inLen := rfl
@[simp] theorem runDecode_outbuf (p : List Byte) (bi ri : Nat) (s : State) : (runDecode p bi ri s).outbuf = s.outbuf := rfl
@[simp] theorem runDecode_inbuf (p : List Byte) (bi ri : Nat) (s : State) : (runDecode p bi ri s).inbuf = s.inbuf := rfl
@[simp] theorem runDecode_recIdx (p : List Byte) (bi ri : Nat) (s : State) : (runDecode p bi ri s).recIdx = s.recIdx := rfl
@[simp] theorem runDecode_wordPos (p : List Byte) (bi ri : Nat) (s : State) : (runDecode p bi ri s).wordPos = s.wordPos := rfl
@[simp] theorem runDecode_resume (p : List Byte) (bi ri : Nat) (s : State) : (runDecode p bi ri s).resume = s.resume := rfl
@[simp] theorem runDecode_decoder (p : List Byte) (bi ri : Nat) (s : State) : (runDecode p bi ri s).decoder = (decodeStream p bi ri).decoder := rfl
@[simp] theorem runDecode_payload (p : List Byte) (bi ri : Nat) (s : State) : (runDecode p bi ri s).payload = p := rfl
@[simp] theorem runDecode_boardIndex (p : List Byte) (bi ri : Nat) (s : State) : (runDecode p bi ri s).boardIndex = bi := rfl
@[simp] theorem runDecode_rcvIndex (p : List Byte) (bi ri : Nat) (s : State) : (runDecode p bi ri s).rcvIndex = ri := rfl
@[simp] theorem runDecode_event (p : List Byte) (bi ri : Nat) (s : State) : (runDecode p bi ri s).event = s.event := rfl
@[simp] theorem runDecode_cmd (p : List Byte) (bi ri : Nat) (s : State) : (runDecode p bi ri s).cmd = s.cmd := rfl
@[simp] theorem runDecode_caller (p : List Byte) (bi ri : Nat) (s : State) : (runDecode p bi ri s).caller = s.caller := rfl
@[simp] theorem runDecode_rsp (p : List Byte) (bi ri : Nat) (s : State) : (runDecode p bi ri s).rsp = s.rsp := rfl
@[simp] theorem runDecode_slots (p : List Byte) (bi ri : Nat) (s : State) : (runDecode p bi ri s).slots = s.slots := rfl
@[simp] theorem runDecode_tx (p : List Byte) (bi ri : Nat) (s : State) : (runDecode p bi ri s).tx = s.tx := rfl
@[simp] theorem runDecode_rx (p : List Byte) (bi ri : Nat) (s : State) : (runDecode p bi ri s).rx = s.rx := rfl
@[simp] theorem runDecode_hits (p : List Byte) (bi ri : Nat) (s : State) : (runDecode p bi ri s).hits = s.hits ++ (decodeStream p bi ri).hits := rfl
@[simp] theorem runDecode_evts (p : List Byte) (bi ri : Nat) (s : State) : (runDecode p bi ri s).evts = s.evts := rfl
@[simp] theorem runDecode_activity (p : List Byte) (bi ri : Nat) (s : State) : (runDecode p bi ri s).activity = s.activity := rfl
@[simp] theorem runDecode_draws (p : List Byte) (bi ri : Nat) (s : State) : (runDecode p bi ri s).draws = s.draws := rfl

/-! ## State.resetFor -/

@[simp] theorem resetFor_nextId (p : Params) : (State.resetFor p).nextId = p.resetTxid := rfl
@[simp] theorem resetFor_lastValid (p : Params) : (State.resetFor p).lastValid = false := rfl
@[simp] theorem resetFor_batch (p : Params) : (State.resetFor p).batch = [] := rfl
@[simp] theorem resetFor_outLen (p : Params) : (State.resetFor p).outLen = 0 := rfl
@[simp] theorem resetFor_inLen (p : Params) : (State.resetFor p).inLen = 0 := rfl
@[simp] theorem resetFor_outbuf (p : Params) : (State.resetFor p).outbuf = [] := rfl
@[simp] theorem resetFor_inbuf (p : Params) : (State.resetFor p).inbuf = [] := rfl
@[simp] theorem resetFor_recIdx (p : Params) : (State.resetFor p).recIdx = 0 := rfl
@[simp] theorem resetFor_wordPos (p : Params) : (State.resetFor p).wordPos = 0 := rfl
@[simp] theorem resetFor_resume (p : Params) : (State.resetFor p).resume = none := rfl
@[simp] theorem resetFor_decoder (p : Params) : (State.resetFor p).decoder = DecoderState.initial := rfl
@[simp] theorem resetFor_payload (p : Params) : (State.resetFor p).payload = [] := rfl
@[simp] theorem resetFor_boardIndex (p : Params) : (State.resetFor p).boardIndex = 0 := rfl
@[simp] theorem resetFor_rcvIndex (p : Params) : (State.resetFor p).rcvIndex = 0 := rfl
@[simp] theorem resetFor_event (p : Params) : (State.resetFor p).event = none := rfl
@[simp] theorem resetFor_cmd (p : Params) : (State.resetFor p).cmd = [] := rfl
@[simp] theorem resetFor_caller (p : Params) : (State.resetFor p).caller = 0 := rfl
@[simp] theorem resetFor_rsp (p : Params) : (State.resetFor p).rsp = [] := rfl
@[simp] theorem resetFor_slots (p : Params) : (State.resetFor p).slots = [] := rfl
@[simp] theorem resetFor_tx (p : Params) : (State.resetFor p).tx = [] := rfl
@[simp] theorem resetFor_rx (p : Params) : (State.resetFor p).rx = [] := rfl
@[simp] theorem resetFor_hits (p : Params) : (State.resetFor p).hits = [] := rfl
@[simp] theorem resetFor_evts (p : Params) : (State.resetFor p).evts = [] := rfl
@[simp] theorem resetFor_activity (p : Params) : (State.resetFor p).activity = .command := rfl
@[simp] theorem resetFor_draws (p : Params) : (State.resetFor p).draws = 0 := rfl
@[simp] theorem resetFor_params (p : Params) : (State.resetFor p).params = p := rfl
@[simp] theorem resetFor_lastId (p : Params) : (State.resetFor p).lastId = 0#8 := rfl

end Sys2Proof.Machine
end

