-- ==== Sys2Proof/Laws/Ops.lean ====
section
/-! SUPPORT. The laws of the engine's operations: one reply header, the walk over a batch, FLUSH, the operand check and the append. -/

namespace Sys2Proof.Machine

set_option Elab.async false

/-- The version check on numbers. -/
theorem unpack_version_iff (w : Word) : (unpackHeader w).version = Config.protoVersion ↔ versionOf w = 2 := by
  have := unpackHeader_toNat w
  rw [← BitVec.toNat_inj]; simp [Config.protoVersion, versionOf]; omega

/-- The id check on numbers. -/
theorem unpack_id_iff (w : Word) (t : Byte) : (unpackHeader w).txnId = t ↔ idOf w = t.toNat := by
  have := unpackHeader_toNat w
  rw [← BitVec.toNat_inj, idOf]; omega

/-- The op kind check on numbers. -/
theorem unpack_kind_iff (w : Word) (k : BitVec 4) : (unpackHeader w).opKind = k ↔ kindOf w = k.toNat := by
  have := unpackHeader_toNat w
  rw [← BitVec.toNat_inj, kindOf]; omega

/-- The word count check on numbers. -/
theorem unpack_count_iff (w : Word) (n : BitVec 12) : (unpackHeader w).wordCount = n ↔ countOf w = n.toNat := by
  have := unpackHeader_toNat w
  rw [← BitVec.toNat_inj, countOf]; omega

/-- The info code as a number. -/
theorem unpack_code (w : Word) : (unpackHeader w).infoCode = BitVec.ofNat 4 (codeOf w) := by
  apply BitVec.eq_of_toNat_eq; have := unpackHeader_toNat w
  rw [BitVec.toNat_ofNat, codeOf]; omega

/-- SUCCESS raises nothing. -/
theorem infoError_none (w : Word) : infoError (unpackHeader w).infoCode w = none ↔ codeOf w = 0 := by
  rw [unpack_code]
  have h : codeOf w < 16 := by unfold codeOf; omega
  generalize codeOf w = c at *
  interval_cases c <;> simp [infoError]

/-- Which error a code raises (41_transport_engine.md R154). -/
theorem infoError_some (w : Word) (e : Error) : infoError (unpackHeader w).infoCode w = some e ↔ CodeFault w e := by
  rw [unpack_code, CodeFault]
  have h : codeOf w < 16 := by unfold codeOf; omega
  generalize codeOf w = c at *
  interval_cases c <;> simp [infoError, eq_comm]

/-- A header passes exactly when it is right for its record. -/
theorem headerError_none (w : Word) (r : TxnRecord) : headerError w r = none ↔ RightHeader w r := by
  simp only [headerError, RightHeader, Answers]
  split
  · rename_i h; rw [Ne, unpack_version_iff] at h; simp [h]
  split
  · rename_i h; rw [Ne, unpack_id_iff] at h; simp [h]
  split
  · rename_i h; rw [Ne, unpack_kind_iff] at h; simp [h]
  rename_i h1 h2 h3
  rw [not_ne_iff, unpack_version_iff] at h1
  rw [not_ne_iff, unpack_id_iff] at h2
  rw [not_ne_iff, unpack_kind_iff] at h3
  split
  · rename_i e h
    have : ¬ codeOf w = 0 := fun hc => by rw [← infoError_none] at hc; rw [hc] at h; cases h
    simp [this]
  · rename_i h
    rw [infoError_none] at h
    split
    · rename_i hc; rw [Ne, unpack_count_iff] at hc; simp [hc]
    · rename_i hc; rw [not_ne_iff, unpack_count_iff] at hc; simp [*]

/-- Which error a header raises (41_transport_engine.md R152 to R155). -/
theorem headerError_some (w : Word) (r : TxnRecord) (e : Error) :
    headerError w r = some e ↔ EarlyFault w r e ∨ LateFault w r e := by
  simp only [headerError, EarlyFault, LateFault, Answers]
  split
  · rename_i h; rw [Ne, unpack_version_iff] at h; simp [h, eq_comm]
  split
  · rename_i h1 h; rw [Ne, unpack_id_iff] at h; rw [not_ne_iff, unpack_version_iff] at h1
    simp [h, h1]; exact eq_comm
  split
  · rename_i h1 h2 h; rw [Ne, unpack_kind_iff] at h; rw [not_ne_iff, unpack_version_iff] at h1
    rw [not_ne_iff, unpack_id_iff] at h2
    simp [h, h1, h2]; exact eq_comm
  rename_i h1 h2 h3
  rw [not_ne_iff, unpack_version_iff] at h1
  rw [not_ne_iff, unpack_id_iff] at h2
  rw [not_ne_iff, unpack_kind_iff] at h3
  simp only [h1, h2, h3, ne_eq, not_true_eq_false, false_and, and_false, or_self, false_or, true_and, and_self]
  split
  · rename_i e' h
    have : ¬ codeOf w = 0 := fun hc => by rw [← infoError_none] at hc; rw [hc] at h; cases h
    rw [infoError_some] at h
    simp only [this, false_and, or_false, Option.some.injEq]
    rw [← infoError_some] at h ⊢; rw [h]; simp
  · rename_i h
    have hn : ¬ CodeFault w e := fun hc => by rw [← infoError_some] at hc; rw [hc] at h; cases h
    rw [infoError_none] at h
    simp only [hn, h, false_or, true_and]
    split
    · rename_i hc; have hc' : ¬ countOf w = r.wordCount.toNat := fun h' => hc ((unpack_count_iff _ _).mpr h')
      simp [hc'] <;> exact eq_comm
    · rename_i hc; rw [not_ne_iff, unpack_count_iff] at hc; simp [hc]

/-- DATA(r) is the number of data words in the reply. -/
theorem data_eq (r : TxnRecord) : r.data = replyData r := by
  unfold TxnRecord.data replyData dataWords; cases r.opKind <;> rfl

/-- The header of a right reply. -/
theorem goodHeader_eq (r : TxnRecord) :
    BitVec.ofNat 32 (headerNumber r.opKind r.wordCount.toNat r.txnId.toNat 0) = headerWord r.opKind r.wordCount r.txnId 0#4 := by
  rw [headerWord_eq]; rfl

/-- The header of a right reply passes. -/
theorem headerError_good (r : TxnRecord) : headerError (headerWord r.opKind r.wordCount r.txnId 0#4) r = none := by
  simp [headerError, unpack_headerWord, infoError]

/-- The header of a right reply is right. -/
theorem rightHeader_good (r : TxnRecord) : RightHeader (headerWord r.opKind r.wordCount r.txnId 0#4) r :=
  (headerError_none _ _).mp (headerError_good r)

/-- Right replies are stored one after the other and the walk goes on behind them. -/
theorem checkBatch_good (pairs : List (TxnRecord × List Word)) (before tail : List Word) (rs : List TxnRecord) (sl : Slots)
    (hd : RightData pairs) :
    checkBatch (before ++ (goodReplies pairs ++ tail)) before.length (pairs.map Prod.fst ++ rs) sl =
      checkBatch (before ++ (goodReplies pairs ++ tail)) (before ++ goodReplies pairs).length rs (storedAll pairs sl) := by
  induction pairs generalizing before sl with
  | nil => simp [goodReplies, storedAll]
  | cons p pairs ih =>
    have hp := hd p (by simp)
    have hd' : RightData pairs := fun q hq => hd q (by simp [hq])
    simp only [List.map_cons, List.cons_append, checkBatch]
    have hw : (before ++ (goodReplies (p :: pairs) ++ tail))[before.length]? =
        some (headerWord p.1.opKind p.1.wordCount p.1.txnId 0#4) := by
      simp [goodReplies, goodReply, goodHeader_eq]
    have hr : recordReply (before ++ (goodReplies (p :: pairs) ++ tail)) before.length p.1 = .ok p.2 := by
      simp only [recordReply, hw, recordReplyAt, headerError_good]
      rw [if_neg]
      · simp only [Except.ok.injEq]
        rw [List.drop_append, List.drop_of_length_le (by omega), data_eq, ← hp]
        simp [goodReplies, goodReply]
      · rw [data_eq, ← hp]; simp [goodReplies, goodReply]; omega
    rw [hr]
    simp only
    have e : before ++ (goodReplies (p :: pairs) ++ tail) =
        (before ++ goodReply p.1 p.2) ++ (goodReplies pairs ++ tail) := by
      simp [goodReplies]
    have l : before.length + 1 + p.1.data = (before ++ goodReply p.1 p.2).length := by
      rw [data_eq, ← hp]; simp [goodReply]; omega
    rw [e, l, ih _ _ hd']
    simp [goodReplies, storedAll]

/-- The words of right replies, the first header split off. -/
theorem goodReplies_head (p : TxnRecord × List Word) (pairs : List (TxnRecord × List Word)) :
    goodReplies (p :: pairs) = headerWord p.1.opKind p.1.wordCount p.1.txnId 0#4 :: (p.2 ++ goodReplies pairs) := by
  simp [goodReplies, goodReply, goodHeader_eq]

/-- When a reply is a duplicate (41_transport_engine.md R151). -/
theorem isDuplicate_iff (w : Word) (more : List Word) (s : State) :
    isDuplicate (w :: more) s = true ↔ s.lastValid = true ∧ idOf w = s.lastId.toNat := by
  simp only [isDuplicate, firstId, Bool.and_eq_true, beq_iff_eq]
  rw [← unpack_id_iff]; rfl

/-- A fresh reply is none. -/
theorem isDuplicate_fresh (ws : List Word) (hne : ws ≠ []) (s : State) (h : Fresh s ws) : isDuplicate ws s = false := by
  match ws, hne with
  | w :: tl, _ =>
    rw [Bool.eq_false_iff, Ne, isDuplicate_iff]
    rintro ⟨h1, h2⟩; exact h h1 w tl rfl h2

/-- One receive, in the words of the claims: the next delivery leaves DGRAM_RX, or one free value is drawn. -/
theorem afterReceive_eq (s : State) : afterReceive s = { s with rx := s.rx.tail, draws := drawsAfterReceive s } := by
  unfold afterReceive drawsAfterReceive
  split <;> rename_i h
  · rw [if_neg (by simp [h]), h]; rfl
  · rw [if_pos h, h]; cases s; simp_all

/-- Sending the batch and then receiving. -/
theorem afterReceive_sendBatch (s : State) : afterReceive (sendBatch s) = { s with
    tx := s.tx ++ [Memory.readBytes s.outbuf 0 s.outLen], rx := s.rx.tail, draws := drawsAfterReceive s } := by
  rw [afterReceive_eq]; rfl

/-- EXECUTE on a datagram of words that is no duplicate: the walk over the batch decides. -/
theorem execute_datagram (s : State) (ws : List Word) (bs : List Byte) (hb : s.batch ≠ [])
    (hrx : received s = .datagram bs) (hbs : bs = ws.flatMap bigEndian) (hne : ws ≠ []) (hf : Fresh s ws) :
    exec .execute s = match checkBatch ws 0 s.batch s.slots with
      | (sl, some e) => .next (answered (executed s bs sl s.lastId s.lastValid) (.error e))
      | (sl, none) => .next (answered (executed s bs sl (firstId ws) true) (.ok .unit)) := by
  have hlen : bs.length = 4 * ws.length := by rw [hbs, bigEndian_eq, length_flatMap_beBytes]
  have hws : replyWords bs = ws := by rw [hbs, bigEndian_eq, replyWords_flatMap]
  have hbl : badLength bs = false := by
    have : 0 < ws.length := List.length_pos_iff.mpr hne
    simp [badLength, hlen, Config.pktHdrWords]; omega
  have hdup := isDuplicate_fresh ws hne
  simp only [exec, execExecute, flush]
  rw [if_neg (by simpa using hb)]
  simp only [hrx, afterReceive_sendBatch, flushReply, hws, hbl]
  simp only [Bool.false_eq_true, if_false]
  rw [hdup _ (by intro hv; exact hf hv)]
  simp only [Bool.false_eq_true, if_false, Config.pktHdrWords]
  cases hc : checkBatch ws 0 s.batch s.slots with
  | mk sl oe => cases oe <;> rfl

/-- The carried count as a number. -/
theorem recordCount_toNat {k : OpKind} {n : Nat} (h : usesCount k = true → n ≤ 0xFFF) :
    (recordCount k n).toNat = carriedCount k n := by
  cases k <;> simp [recordCount, carriedCount, usesCount] at h ⊢ <;> omega

/-- Good operands keep the word count within 0xFFF. -/
theorem good_bound {k : OpKind} {n : Nat} {wdata : List Word} (h : GoodOperands k n wdata) : usesCount k = true → n ≤ 0xFFF := by
  cases k <;> simp_all [GoodOperands, usesCount]

/-- Good operands have the right number of write words. -/
theorem good_length {k : OpKind} {n : Nat} {wdata : List Word} (h : GoodOperands k n wdata) : wdata.length = wdataWords k n := by
  cases k <;> simp_all [GoodOperands, wdataWords]

/-- Good operands pass the check of R141. -/
theorem checkOperands_good {k : OpKind} {n : Nat} {addr : Word} {wdata : List Word} {slot : Option Nat}
    (h : GoodOperands k n wdata) :
    checkOperands k.code n addr wdata slot = .ok ⟨k, recordCount k n, addr, wdata, slot⟩ := by
  simp only [checkOperands, ofCode_code]
  have h1 := good_bound h
  rw [if_neg (fun hc => by have := h1 hc.1; have := hc.2; simp only [Config.maxWordCount] at *; omega)]
  rw [if_neg (not_not.mpr (good_length h))]

/-- REQ in bytes. -/
theorem req_good {k : OpKind} {n : Nat} (h : usesCount k = true → n ≤ 0xFFF) :
    4 * reqWords k (recordCount k n).toNat = requestSize k n := by
  rw [recordCount_toNat h]
  cases k <;> simp [reqWords, requestSize, carriedCount] <;> omega

/-- RSP in bytes. -/
theorem rsp_good {k : OpKind} {n : Nat} (h : usesCount k = true → n ≤ 0xFFF) :
    4 * rspWords k (recordCount k n).toNat = replySize k n := by
  rw [recordCount_toNat h]
  cases k <;> simp [rspWords, replySize, carriedCount] <;> omega

/-- The carried count as a field. -/
theorem recordCount_eq (k : OpKind) (n : Nat) : recordCount k n = BitVec.ofNat 12 (carriedCount k n) := by
  cases k <;> simp [recordCount, carriedCount]

/-- The id of R146. -/
theorem assignedId_eq (s : State) : assignedId s = nextTxnId s := by
  simp [assignedId, nextTxnId]

/-- The request bytes are those of the request packet. -/
theorem requestBytes_eq {k : OpKind} {n : Nat} {addr : Word} {wdata : List Word} {slot : Option Nat} (id : Byte)
    (h : GoodOperands k n wdata) :
    requestBytes (QueueOp.record ⟨k, recordCount k n, addr, wdata, slot⟩ id) =
      (requestPacket k n id addr wdata).flatMap bigEndian := by
  have hh : requestHeader k (recordCount k n) id = BitVec.ofNat 32 (headerNumber k (carriedCount k n) id.toNat 15) := by
    rw [requestHeader, headerWord_eq, recordCount_toNat (good_bound h)]; rfl
  simp only [requestBytes, requestWords, requestPacket, bigEndian_eq, QueueOp.record, hh]
  cases k <;> simp_all [GoodOperands]

/-- Their number. -/
theorem requestPacket_length {k : OpKind} {n : Nat} {addr : Word} {wdata : List Word} (id : Byte)
    (h : GoodOperands k n wdata) :
    ((requestPacket k n id addr wdata).flatMap bigEndian).length = requestSize k n := by
  rw [bigEndian_eq, length_flatMap_beBytes]
  cases k <;> simp_all [GoodOperands, requestPacket, requestSize] <;> omega

/-- A record has REQ request words. -/
theorem requestWords_length (r : TxnRecord) (h : r.wdata.length = wdataWords r.opKind r.wordCount.toNat) : (requestWords r).length = r.req := by
  simp only [requestWords, TxnRecord.req]
  cases hk : r.opKind <;> simp [hk, reqWords, wdataWords] at h ⊢ <;> omega

/-- A record has 4 REQ request bytes. -/
theorem requestBytes_length (r : TxnRecord) (h : r.wdata.length = wdataWords r.opKind r.wordCount.toNat) : (requestBytes r).length = 4 * r.req := by
  rw [requestBytes, length_flatMap_beBytes, requestWords_length r h]

/-- What QUEUE accepts has the right write words and the count of R102. -/
theorem checkOperands_inv {op : BitVec 4} {n : Nat} {addr : Word} {wdata : List Word} {slot : Option Nat} {q : QueueOp}
    (h : checkOperands op n addr wdata slot = .ok q) :
    q.wdata.length = wdataWords q.opKind q.wordCount.toNat ∧ (usesCount q.opKind = false → q.wordCount = recordCount q.opKind 0) := by
  simp only [checkOperands] at h
  split at h
  · cases h
  · split at h
    · cases h
    · rename_i hk
      split at h
      · cases h
      · rename_i k _ hl
        cases h
        simp only at hl ⊢
        have hl' : wdata.length = wdataWords k n := by simpa using hl
        have hk' : usesCount k = true → n ≤ 0xFFF := by simpa [Config.maxWordCount] using hk
        constructor
        · rw [hl']
          cases k <;> simp [wdataWords, recordCount, usesCount] at hk' ⊢ <;> omega
        · intro hu; cases k <;> simp [usesCount, recordCount] at hu ⊢

/-- FLUSH empties the batch. -/
theorem flush_batch (s : State) : (flush s).state.batch = [] := by
  unfold flush
  split
  · rename_i h; simpa using h
  · split
    · rfl
    · simp only [flushReply]
      split
      · rfl
      · split
        · rfl
        · split <;> rfl

/-- EXECUTE is FLUSH and the response. -/
theorem execute_flush (s : State) : exec .execute s = .next (answered (flush s).state
    (match (flush s).error with | some e => .error e | none => .ok .unit)) := by
  simp only [exec, execExecute]
  cases h : flush s with
  | mk t e => cases e <;> rfl

/-- What FLUSH may change. -/
theorem flush_frame (s : State) : (flush s).state = { s with
    lastId := (flush s).state.lastId
    lastValid := (flush s).state.lastValid
    batch := []
    outLen := (flush s).state.outLen
    inLen := (flush s).state.inLen
    inbuf := (flush s).state.inbuf
    recIdx := (flush s).state.recIdx
    wordPos := (flush s).state.wordPos
    slots := (flush s).state.slots
    tx := (flush s).state.tx
    rx := (flush s).state.rx
    draws := (flush s).state.draws } := by
  unfold flush
  split
  · rename_i h
    have : s.batch = [] := by simpa using h
    cases s; simp_all
  · rw [afterReceive_eq]
    split
    · rfl
    · simp only [flushReply]
      split
      · rfl
      · split
        · rfl
        · split <;> rfl

/-- What FLUSH sends and takes. -/
theorem flush_tx (s : State) :
    (s.batch = [] ∧ (flush s).state.tx = s.tx ∧ (flush s).state.rx = s.rx ∧ (flush s).state.draws = s.draws) ∨
    (s.batch ≠ [] ∧ (flush s).state.tx = s.tx ++ [Memory.readBytes s.outbuf 0 s.outLen] ∧ (flush s).state.rx = s.rx.tail ∧
      (flush s).state.draws = drawsAfterReceive s) := by
  unfold flush
  split
  · rename_i h; exact Or.inl ⟨by simpa using h, rfl, rfl, rfl⟩
  · rename_i h
    refine Or.inr ⟨by simpa using h, ?_⟩
    rw [afterReceive_sendBatch]
    split
    · exact ⟨rfl, rfl, rfl⟩
    · simp only [flushReply]
      split
      · exact ⟨rfl, rfl, rfl⟩
      · split
        · exact ⟨rfl, rfl, rfl⟩
        · split <;> exact ⟨rfl, rfl, rfl⟩

/-- FLUSH leaves parameters, hits, responses and events, and only adds to DGRAM_TX. -/
theorem flush_grow (s : State) : (flush s).state.params = s.params ∧ (flush s).state.hits = s.hits ∧ (flush s).state.rsp = s.rsp ∧ (flush s).state.evts = s.evts ∧ s.tx <+: (flush s).state.tx := by
  have h := flush_frame s
  refine ⟨?_, ?_, ?_, ?_, ?_⟩
  · rw [h]
  · rw [h]
  · rw [h]
  · rw [h]
  · rcases flush_tx s with ⟨_, h, _⟩ | ⟨_, h, _⟩ <;> rw [h]; simp

/-- FLUSH leaves the caller. -/
theorem flush_caller (s : State) : (flush s).state.caller = s.caller := by rw [flush_frame s]

/-- FLUSH leaves the decoder. -/
theorem flush_decoder (s : State) : (flush s).state.decoder = s.decoder ∧ (flush s).state.payload = s.payload ∧ (flush s).state.boardIndex = s.boardIndex ∧ (flush s).state.rcvIndex = s.rcvIndex ∧ (flush s).state.event = s.event := by
  have h := flush_frame s
  refine ⟨?_, ?_, ?_, ?_, ?_⟩ <;> rw [h]

/-- A FLUSH that fails leaves the LAST registers. -/
theorem flush_error_last (s : State) (e : Error) (h : (flush s).error = some e) :
    (flush s).state.lastId = s.lastId ∧ (flush s).state.lastValid = s.lastValid := by
  revert h
  unfold flush
  split
  · intro h; cases h
  · split
    · intro _; simp
    · simp only [flushReply]
      split
      · intro _; simp
      · split
        · intro h; cases h
        · split
          · intro _; simp
          · intro h; cases h

/-- A slot no record names is not written. -/
theorem checkBatch_slots (ws : List Word) (rs : List TxnRecord) (name : Nat) : ∀ (p : Nat) (sl : Slots),
    (∀ r ∈ rs, r.slot ≠ some name) → Slots.read (checkBatch ws p rs sl).1 name = Slots.read sl name := by
  induction rs with
  | nil => intro p sl _; rfl
  | cons r rs ih =>
    intro p sl h
    simp only [checkBatch]
    split
    · rfl
    · rw [ih _ _ (fun x hx => h x (by simp [hx]))]
      unfold Slots.store
      split
      · rfl
      · rename_i n hn
        split
        · rfl
        · exact Slots.read_write_other _ _ _ _ (fun e => h r (by simp) (by rw [hn, e]))

/-- A slot no record names is not written by FLUSH. -/
theorem flush_slots (s : State) (name : Nat) (hn : ∀ r ∈ s.batch, r.slot ≠ some name) :
    Slots.read (flush s).state.slots name = Slots.read s.slots name := by
  unfold flush
  split
  · rfl
  · split
    · simp
    · rename_i bs _
      have h' := checkBatch_slots (replyWords bs) s.batch name Config.pktHdrWords s.slots hn
      simp only [flushReply]
      split
      · simp
      · split
        · simp
        · split
          · rename_i sl e hc
            simp at hc
            rw [hc] at h'
            exact h'
          · rename_i sl hc
            simp at hc
            rw [hc] at h'
            exact h'

/-- The walk keeps the slots canonical. -/
theorem checkBatch_wf (ws : List Word) (rs : List TxnRecord) : ∀ (p : Nat) (sl : Slots), Slots.wf sl → Slots.wf (checkBatch ws p rs sl).1 := by
  induction rs with
  | nil => intro p sl h; exact h
  | cons r rs ih =>
    intro p sl h
    simp only [checkBatch]
    split
    · exact h
    · exact ih _ _ (Slots.store_wf _ _ _ h)

/-- FLUSH keeps the slots canonical. -/
theorem flush_wf (s : State) (h : Slots.wf s.slots) : Slots.wf (flush s).state.slots := by
  unfold flush
  split
  · exact h
  · split
    · simpa using h
    · simp only [flushReply]
      split
      · simpa using h
      · split
        · simpa using h
        · have := checkBatch_wf (replyWords (by assumption)) s.batch Config.pktHdrWords s.slots h
          split <;> rename_i hc <;> simp [sendBatch] at hc <;> rw [hc] at this <;> simpa using this

/-- The walk as it stands at the first record after some right replies. -/
theorem checkBatch_run (s : State) (pairs : List (TxnRecord × List Word)) (r : TxnRecord) (later : List TxnRecord)
    (tail : List Word) (hb : s.batch = pairs.map Prod.fst ++ r :: later) (hd : RightData pairs) :
    checkBatch (goodReplies pairs ++ tail) 0 s.batch s.slots =
      match recordReply (goodReplies pairs ++ tail) (goodReplies pairs).length r with
      | .error e => (storedAll pairs s.slots, some e)
      | .ok data => checkBatch (goodReplies pairs ++ tail) ((goodReplies pairs).length + 1 + r.data) later
          (Slots.store (storedAll pairs s.slots) r.slot data) := by
  have := checkBatch_good pairs [] tail (r :: later) s.slots hd
  simp only [List.nil_append, List.length_nil] at this
  rw [hb, this]; rfl

/-- A store that does not name a slot, or has no data, leaves it. -/
theorem read_store_other (sl : Slots) (slot : Option Nat) (data : List Word) (name : Nat) (h : slot = some name → data = []) :
    Slots.read (Slots.store sl slot data) name = Slots.read sl name := by
  unfold Slots.store
  split
  · rfl
  · rename_i n
    split
    · rfl
    · rename_i hd
      exact Slots.read_write_other _ _ _ _ (fun e => hd (h (by rw [e])))

/-- A right header with its data gives the data. -/
theorem recordReplyAt_good (s : State) (r : TxnRecord) (before data after : List Word) (w : Word)
    (hb : s.inbuf = (before ++ w :: data ++ after).flatMap bigEndian) (hl : before.length = s.wordPos)
    (hd : data.length = replyData r) (h : RightHeader w' r) :
    recordReplyAt w' (replyWords s.inbuf) s.wordPos r = .ok data := by
  rw [hb, bigEndian_eq, replyWords_flatMap]
  simp only [recordReplyAt, (headerError_none w' r).mpr h]
  rw [data_eq, ← hd, ← hl, if_neg (by simp; omega)]
  simp

/-- A header word is run as the reply header whose word it is. -/
theorem exec_header (i : Instr) (w : Word) (s : State) (hs : i.space = some .header) (he : encode i = some (bigEndian w)) :
    exec i s = .next (resolveHeader w s) := by
  have inj : ∀ w', beBytes w' = bigEndian w → w' = w := by
    intro w' h
    rw [bigEndian_eq] at h
    have := congrArg replyWords (show [w'].flatMap beBytes = [w].flatMap beBytes by simp [h])
    rw [replyWords_flatMap, replyWords_flatMap] at this
    exact List.cons.inj this |>.1
  cases i <;> simp [Instr.space, encode] at hs he <;> rw [← inj _ he] <;> rfl

/-- FAIL in the statement's terms. -/
theorem failRecord_eq (k : Nat) (r : TxnRecord) (e : Error) (s : State) : failRecord k r e s = walkFailed s e := by
  simp [failRecord, endFlush, dropBatch, walkFailed, respond, Config.pktHdrWords]

/-- The end of a FLUSH that accepted. -/
theorem endFlush_none_eq (s : State) : endFlush none s = match s.resume with
    | none => respond (.ok .unit) { s with activity := .command, resume := none }
    | some q => acceptOp q { s with activity := .command, resume := none } := by
  simp only [endFlush]; cases s.resume <;> rfl

/-- Nothing overflows an empty batch. -/
theorem no_overflow_empty (s : State) (q : QueueOp) (h : s.batch = []) : wouldOverflow s q = false := by simp [wouldOverflow, h]

/-- Replacing an entry by one with the same image leaves the image of the list. -/
theorem map_set_same {α β : Type} (f : α → β) (l : List α) (i : Nat) (a b : α) (h : l[i]? = some a) (hf : f b = f a) : (l.set i b).map f = l.map f := by
  apply List.ext_getElem?
  intro j
  simp only [List.getElem?_map, List.getElem?_set]
  split
  · rename_i hij; subst hij
    split
    · rw [h]; simp [hf]
    · rename_i hl; rw [List.getElem?_eq_none (by omega)]
  · rfl

end Sys2Proof.Machine
end

