-- ==== Sys2Proof/Laws/PerInstr.lean ====
section
/-! SUPPORT. Per-instruction laws of the syntax: which instructions have an encoding, and how many bytes it has. -/

namespace Sys2Proof.Laws

set_option Elab.async false

/-- The bytes of an instruction's encoding: four for a header word, the length column of 30_encoding.md R112 for a chip word,
one for an UNKNOWN one, none for a command. -/
def encodedLength : Instr → Nat
  | .read _ _ _ => 4
  | .write _ _ _ => 4
  | .niRead _ _ _ => 4
  | .niWrite _ _ _ => 4
  | .rmwBits _ _ _ => 4
  | .rmwSum _ _ _ => 4
  | .idleTxn _ _ _ => 4
  | .idle => 1
  | .busyOn => 1
  | .busyOff => 1
  | .chipHeader _ _ => 2
  | .chipTrailer _ => 1
  | .emptyFrame _ _ => 2
  | .regionHeader _ => 1
  | .dataShort _ _ => 2
  | .dataLong _ _ _ => 3
  | .unknown80_9F _ => 1
  | .unknownF2_F3 _ => 1
  | .unknownF4_F7 _ => 1
  | .unknownF8_FB _ => 1
  | .unknownFC_FD _ => 1
  | .unknownFE _ => 1
  | .queue _ _ _ _ _ => 0
  | .execute => 0
  | .encodeHeader _ _ _ => 0
  | .decodeHeader _ => 0
  | .decodeFrameNet _ => 0
  | .decodeFrameUsb _ _ _ => 0
  | .decodeChipStream _ _ _ => 0
  | .decodeEvent _ _ _ _ => 0
  | .reset => 0

/-- An instruction has no encoding exactly when it is a host command, and its encoding has the table's length. -/
def EncodedBytes.Statement (i : Instr) : Prop :=
  (i.isCommand = true ↔ encode i = none) ∧ (i.space = none ↔ encode i = none) ∧
    ∀ bs, encode i = some bs → bs.length = encodedLength i

theorem EncodedBytes.read (n : BitVec 12) (t : BitVec 8) (c : BitVec 4) : EncodedBytes.Statement (.read n t c) := by
  simp [EncodedBytes.Statement, Instr.isCommand, Instr.space, encode, encodedLength, beBytes]

theorem EncodedBytes.write (n : BitVec 12) (t : BitVec 8) (c : BitVec 4) : EncodedBytes.Statement (.write n t c) := by
  simp [EncodedBytes.Statement, Instr.isCommand, Instr.space, encode, encodedLength, beBytes]

theorem EncodedBytes.niRead (n : BitVec 12) (t : BitVec 8) (c : BitVec 4) : EncodedBytes.Statement (.niRead n t c) := by
  simp [EncodedBytes.Statement, Instr.isCommand, Instr.space, encode, encodedLength, beBytes]

theorem EncodedBytes.niWrite (n : BitVec 12) (t : BitVec 8) (c : BitVec 4) : EncodedBytes.Statement (.niWrite n t c) := by
  simp [EncodedBytes.Statement, Instr.isCommand, Instr.space, encode, encodedLength, beBytes]

theorem EncodedBytes.rmwBits (n : BitVec 12) (t : BitVec 8) (c : BitVec 4) : EncodedBytes.Statement (.rmwBits n t c) := by
  simp [EncodedBytes.Statement, Instr.isCommand, Instr.space, encode, encodedLength, beBytes]

theorem EncodedBytes.rmwSum (n : BitVec 12) (t : BitVec 8) (c : BitVec 4) : EncodedBytes.Statement (.rmwSum n t c) := by
  simp [EncodedBytes.Statement, Instr.isCommand, Instr.space, encode, encodedLength, beBytes]

theorem EncodedBytes.idleTxn (n : BitVec 12) (t : BitVec 8) (c : BitVec 4) : EncodedBytes.Statement (.idleTxn n t c) := by
  simp [EncodedBytes.Statement, Instr.isCommand, Instr.space, encode, encodedLength, beBytes]

theorem EncodedBytes.idle : EncodedBytes.Statement .idle := by
  simp [EncodedBytes.Statement, Instr.isCommand, Instr.space, encode, encodedLength]

theorem EncodedBytes.busyOn : EncodedBytes.Statement .busyOn := by
  simp [EncodedBytes.Statement, Instr.isCommand, Instr.space, encode, encodedLength]

theorem EncodedBytes.busyOff : EncodedBytes.Statement .busyOff := by
  simp [EncodedBytes.Statement, Instr.isCommand, Instr.space, encode, encodedLength]

theorem EncodedBytes.chipHeader (c : BitVec 4) (bc : BitVec 8) : EncodedBytes.Statement (.chipHeader c bc) := by
  simp [EncodedBytes.Statement, Instr.isCommand, Instr.space, encode, encodedLength]

theorem EncodedBytes.chipTrailer (f : BitVec 4) : EncodedBytes.Statement (.chipTrailer f) := by
  simp [EncodedBytes.Statement, Instr.isCommand, Instr.space, encode, encodedLength]

theorem EncodedBytes.emptyFrame (c : BitVec 4) (bc : BitVec 8) : EncodedBytes.Statement (.emptyFrame c bc) := by
  simp [EncodedBytes.Statement, Instr.isCommand, Instr.space, encode, encodedLength]

theorem EncodedBytes.regionHeader (r : BitVec 5) : EncodedBytes.Statement (.regionHeader r) := by
  simp [EncodedBytes.Statement, Instr.isCommand, Instr.space, encode, encodedLength]

theorem EncodedBytes.dataShort (ld : BitVec 4) (a : BitVec 10) : EncodedBytes.Statement (.dataShort ld a) := by
  simp [EncodedBytes.Statement, Instr.isCommand, Instr.space, encode, encodedLength, dataBytes]

theorem EncodedBytes.dataLong (ld : BitVec 4) (a : BitVec 10) (hm : BitVec 7) : EncodedBytes.Statement (.dataLong ld a hm) := by
  simp [EncodedBytes.Statement, Instr.isCommand, Instr.space, encode, encodedLength, dataBytes]

theorem EncodedBytes.unknown80_9F (b0 : Byte) : EncodedBytes.Statement (.unknown80_9F b0) := by
  simp [EncodedBytes.Statement, Instr.isCommand, Instr.space, encode, encodedLength]

theorem EncodedBytes.unknownF2_F3 (b0 : Byte) : EncodedBytes.Statement (.unknownF2_F3 b0) := by
  simp [EncodedBytes.Statement, Instr.isCommand, Instr.space, encode, encodedLength]

theorem EncodedBytes.unknownF4_F7 (b0 : Byte) : EncodedBytes.Statement (.unknownF4_F7 b0) := by
  simp [EncodedBytes.Statement, Instr.isCommand, Instr.space, encode, encodedLength]

theorem EncodedBytes.unknownF8_FB (b0 : Byte) : EncodedBytes.Statement (.unknownF8_FB b0) := by
  simp [EncodedBytes.Statement, Instr.isCommand, Instr.space, encode, encodedLength]

theorem EncodedBytes.unknownFC_FD (b0 : Byte) : EncodedBytes.Statement (.unknownFC_FD b0) := by
  simp [EncodedBytes.Statement, Instr.isCommand, Instr.space, encode, encodedLength]

theorem EncodedBytes.unknownFE (b0 : Byte) : EncodedBytes.Statement (.unknownFE b0) := by
  simp [EncodedBytes.Statement, Instr.isCommand, Instr.space, encode, encodedLength]

theorem EncodedBytes.queue (op : BitVec 4) (n : Nat) (addr : Word) (wdata : List Word) (slot : Option Nat) : EncodedBytes.Statement (.queue op n addr wdata slot) := by
  simp [EncodedBytes.Statement, Instr.isCommand, Instr.space, encode]

theorem EncodedBytes.execute : EncodedBytes.Statement .execute := by
  simp [EncodedBytes.Statement, Instr.isCommand, Instr.space, encode]

theorem EncodedBytes.encodeHeader (n : Nat) (op : BitVec 4) (t : Nat) : EncodedBytes.Statement (.encodeHeader n op t) := by
  simp [EncodedBytes.Statement, Instr.isCommand, Instr.space, encode]

theorem EncodedBytes.decodeHeader (w : Word) : EncodedBytes.Statement (.decodeHeader w) := by
  simp [EncodedBytes.Statement, Instr.isCommand, Instr.space, encode]

theorem EncodedBytes.decodeFrameNet (buf : List Byte) : EncodedBytes.Statement (.decodeFrameNet buf) := by
  simp [EncodedBytes.Statement, Instr.isCommand, Instr.space, encode]

theorem EncodedBytes.decodeFrameUsb (buf : List Byte) (fw : Nat) (ht : Nat) : EncodedBytes.Statement (.decodeFrameUsb buf fw ht) := by
  simp [EncodedBytes.Statement, Instr.isCommand, Instr.space, encode]

theorem EncodedBytes.decodeChipStream (buf : List Byte) (bi : Nat) (ri : Nat) : EncodedBytes.Statement (.decodeChipStream buf bi ri) := by
  simp [EncodedBytes.Statement, Instr.isCommand, Instr.space, encode]

theorem EncodedBytes.decodeEvent (fam : BoardFamily) (buf : List Byte) (bi : Nat) (ri : Nat) : EncodedBytes.Statement (.decodeEvent fam buf bi ri) := by
  simp [EncodedBytes.Statement, Instr.isCommand, Instr.space, encode]

theorem EncodedBytes.reset : EncodedBytes.Statement .reset := by
  simp [EncodedBytes.Statement, Instr.isCommand, Instr.space, encode]

/-- The law for every instruction. -/
theorem encodedBytes (i : Instr) : EncodedBytes.Statement i := by
  cases i
  case read => exact EncodedBytes.read _ _ _
  case write => exact EncodedBytes.write _ _ _
  case niRead => exact EncodedBytes.niRead _ _ _
  case niWrite => exact EncodedBytes.niWrite _ _ _
  case rmwBits => exact EncodedBytes.rmwBits _ _ _
  case rmwSum => exact EncodedBytes.rmwSum _ _ _
  case idleTxn => exact EncodedBytes.idleTxn _ _ _
  case idle => exact EncodedBytes.idle
  case busyOn => exact EncodedBytes.busyOn
  case busyOff => exact EncodedBytes.busyOff
  case chipHeader => exact EncodedBytes.chipHeader _ _
  case chipTrailer => exact EncodedBytes.chipTrailer _
  case emptyFrame => exact EncodedBytes.emptyFrame _ _
  case regionHeader => exact EncodedBytes.regionHeader _
  case dataShort => exact EncodedBytes.dataShort _ _
  case dataLong => exact EncodedBytes.dataLong _ _ _
  case unknown80_9F => exact EncodedBytes.unknown80_9F _
  case unknownF2_F3 => exact EncodedBytes.unknownF2_F3 _
  case unknownF4_F7 => exact EncodedBytes.unknownF4_F7 _
  case unknownF8_FB => exact EncodedBytes.unknownF8_FB _
  case unknownFC_FD => exact EncodedBytes.unknownFC_FD _
  case unknownFE => exact EncodedBytes.unknownFE _
  case queue => exact EncodedBytes.queue _ _ _ _ _
  case execute => exact EncodedBytes.execute
  case encodeHeader => exact EncodedBytes.encodeHeader _ _ _
  case decodeHeader => exact EncodedBytes.decodeHeader _
  case decodeFrameNet => exact EncodedBytes.decodeFrameNet _
  case decodeFrameUsb => exact EncodedBytes.decodeFrameUsb _ _ _
  case decodeChipStream => exact EncodedBytes.decodeChipStream _ _ _
  case decodeEvent => exact EncodedBytes.decodeEvent _ _ _ _
  case reset => exact EncodedBytes.reset

end Sys2Proof.Laws
end

