-- ==== Sys2Proof/Laws/Step.lean ====
section
/-! SUPPORT. What a step can do, said once: by what it fetches, and for each command. -/

namespace Sys2Proof.Machine

set_option Elab.async false

/-- One step of a run. -/
theorem runSteps_succ {s t : State} (h : step s = .next t) (k : Nat) : runSteps (k + 1) s = runSteps k t := by
  simp [runSteps, h]

/-- A step at the record whose turn it is. -/
theorem step_reply (s : State) (r : TxnRecord) (ha : s.activity = .reply) (hr : s.batch[s.recIdx]? = some r) :
    step s = .next (match recordReply (replyWords s.inbuf) s.wordPos r with
      | .error e => walkFailed s e
      | .ok data => { s with
        batch := s.batch.set s.recIdx { r with infoCode := some (unpackHeader ((replyWords s.inbuf).getD s.wordPos 0#32)).infoCode, state := .resolved }
        slots := Slots.store s.slots r.slot data
        recIdx := s.recIdx + 1
        wordPos := s.wordPos + 1 + r.data }) := by
  have hf : fetch s = fetchReply s := by simp [fetch, ha]
  simp only [step, hf, fetchReply, hr, recordReply]
  cases hw : (replyWords s.inbuf)[s.wordPos]? with
  | none => simp [failRecord_eq]
  | some w =>
    have hres : resolveHeader w s = (match recordReplyAt w (replyWords s.inbuf) s.wordPos r with
      | .error e => walkFailed s e
      | .ok data => { s with
        batch := s.batch.set s.recIdx { r with infoCode := some (unpackHeader w).infoCode, state := .resolved }
        slots := Slots.store s.slots r.slot data
        recIdx := s.recIdx + 1
        wordPos := s.wordPos + 1 + r.data }) := by
      simp only [resolveHeader, hr]
      cases recordReplyAt w (replyWords s.inbuf) s.wordPos r <;> simp [failRecord_eq]
    have hget : (replyWords s.inbuf).getD s.wordPos 0#32 = w := by simp [List.getD, hw]
    rw [hget]
    simp only
    rw [← hres]
    cases hd : decodeHeaderWord w with
    | error e => rfl
    | ok i =>
      simp only
      have hx : ∀ k n t c, headerWord k n t c = w → exec (k.instr n t c) s = .next (resolveHeader w s) := by
        intro k n t c h; subst h; cases k <;> rfl
      simp only [decodeHeaderWord] at hd
      split at hd
      · cases hd
      split at hd
      · cases hd
      rename_i h1 _ k h2
      cases hd
      exact hx _ _ _ _ (headerWord_fields w k (not_not.mp h1) h2)

/-- The step after the last record. -/
theorem step_reply_done (s : State) (ha : s.activity = .reply) (hr : s.batch[s.recIdx]? = none) :
    step s = .next (endFlush none (acceptReply (replyWords s.inbuf) s)) := by
  simp only [step, fetch, ha, fetchReply, hr]

/-- A step of a decode by what the payload holds at CURSOR. -/
theorem step_stream (s : State) (ha : s.activity = .stream) : step s =
    match decodeChipBytes (s.payload.drop s.decoder.cursor) with
    | .ok (i, _) => exec i s
    | .error .endOfPayload => .next (decodeEnded s (endVerdict s.decoder))
    | .error (.outOfData b0) => .next (decodeEnded s (.outOfData s.decoder.cursor b0)) := by
  have hf : fetch s = fetchChip s := by simp [fetch, ha]
  simp only [step, hf, fetchChip, endStream_eq]
  cases decodeChipBytes (s.payload.drop s.decoder.cursor) with
  | ok p => rfl
  | error e => cases e <;> rfl

/-- A step of a decode is one pass of the loop. -/
theorem step_stream_word (s : State) (ha : s.activity = .stream) (hl : s.decoder.cursor < s.payload.length) :
    step s = .next (match streamWord s.payload s.boardIndex s.rcvIndex s.decoder with
      | .advance d hs => { s with decoder := d, hits := s.hits ++ hs }
      | .abort v => decodeEnded s v) := by
  rw [step_stream s ha]
  have hdrop := List.drop_eq_getElem_cons hl
  have hb0 : byteAt s.payload s.decoder.cursor = s.payload[s.decoder.cursor] := by
    simp [byteAt, List.getD, List.getElem?_eq_getElem hl]
  rw [hdrop]
  simp only [decodeChipBytes, streamWord, hb0]
  generalize hg : s.payload[s.decoder.cursor] = b0
  have h1 : (s.payload.drop (s.decoder.cursor + 1)).getD 0 0 = byteAt s.payload (s.decoder.cursor + 1) := by
    simp [byteAt, List.getD]
  have h2 : (s.payload.drop (s.decoder.cursor + 1)).getD 1 0 = byteAt s.payload (s.decoder.cursor + 2) := by
    simp [byteAt, List.getD]
  rw [h1, h2, List.length_drop]
  by_cases hu : classify b0 = .unknown
  · rw [if_pos hu, if_neg (by rw [hu]; simp [WordType.length])]
    have hex : ∀ b0, classify b0 = .unknown → exec (unknownInstr b0) s = .next (decodeEnded s (.unknownWord s.decoder.cursor b0)) := by
      intro b0 _
      unfold unknownInstr
      repeat' split
      all_goals simp [exec, execUnknown80_9F, execUnknownF2_F3, execUnknownF4_F7, execUnknownF8_FB, execUnknownFC_FD, execUnknownFE, wordUnknown, runWord, endStream_eq]
    simp only [hu, chipInstr, hex b0 hu, wordUnknown]
  · rw [if_neg hu]
    by_cases hc : s.decoder.cursor + (classify b0).length > s.payload.length
    · rw [if_pos (by omega), if_pos hc]
    · rw [if_neg (by omega), if_neg hc]
      simp only
      refine Eq.trans ?_ (congrArg Host.Outcome.next (moveCursor_run _ _ _))
      cases hb : classify b0 <;> first | exact absurd hb hu | rfl

/-- Everything a step that goes on can have done. -/
theorem step_cases {s t : State} (h : step s = .next t) :
    (s.activity = .command ∧ s.cmd = [] ∧ t = s) ∨
    (∃ c rest, s.activity = .command ∧ s.cmd = c :: rest ∧ c.instr.isCommand = true ∧ c.caller < s.params.nHosts ∧
      exec c.instr { s with cmd := rest, caller := c.caller } = .next t) ∨
    (∃ d hs, s.activity = .stream ∧ s.decoder.cursor < s.payload.length ∧
      streamWord s.payload s.boardIndex s.rcvIndex s.decoder = .advance d hs ∧
      t = { s with decoder := d, hits := s.hits ++ hs }) ∨
    (∃ v, s.activity = .stream ∧ t = decodeEnded s v) ∨
    (∃ r data code, s.activity = .reply ∧ s.batch[s.recIdx]? = some r ∧
      recordReply (replyWords s.inbuf) s.wordPos r = .ok data ∧
      t = { s with
        batch := s.batch.set s.recIdx { r with infoCode := some code, state := .resolved }
        slots := Slots.store s.slots r.slot data
        recIdx := s.recIdx + 1
        wordPos := s.wordPos + 1 + r.data }) ∨
    (∃ e, s.activity = .reply ∧ t = walkFailed s e) ∨
    (s.activity = .reply ∧ s.batch[s.recIdx]? = none ∧ t = endFlush none (acceptReply (replyWords s.inbuf) s)) := by
  cases ha : s.activity with
  | command =>
    simp only [step, fetch, ha, fetchCommand] at h
    cases hc : s.cmd with
    | nil => rw [hc] at h; cases h; exact .inl ⟨rfl, rfl, rfl⟩
    | cons c rest =>
      rw [hc] at h
      refine .inr (.inl ⟨c, rest, rfl, rfl, ?_⟩)
      cases hi : c.instr.isCommand with
      | true =>
        by_cases hn : c.caller < s.params.nHosts
        · simp only [hi, if_true, hn] at h; exact ⟨rfl, hn, h⟩
        · simp [hi, hn] at h
      | false => simp [hi] at h
  | stream =>
    by_cases hl : s.decoder.cursor < s.payload.length
    · rw [step_stream_word s ha hl] at h
      cases hw : streamWord s.payload s.boardIndex s.rcvIndex s.decoder with
      | advance d hs => rw [hw] at h; cases h; refine .inr (.inr (.inl ⟨d, hs, rfl, hl, rfl, ?_⟩)); rw [← ha]
      | abort v => rw [hw] at h; cases h; exact .inr (.inr (.inr (.inl ⟨v, rfl, rfl⟩)))
    · rw [step_stream s ha, List.drop_of_length_le (by omega)] at h
      cases h
      exact .inr (.inr (.inr (.inl ⟨_, rfl, rfl⟩)))
  | reply =>
    cases hr : s.batch[s.recIdx]? with
    | none => rw [step_reply_done s ha hr] at h; cases h; simp
    | some r =>
      rw [step_reply s r ha hr] at h
      cases hc : recordReply (replyWords s.inbuf) s.wordPos r with
      | error e => rw [hc] at h; cases h; exact .inr (.inr (.inr (.inr (.inr (.inl ⟨e, rfl, rfl⟩)))))
      | ok data =>
        rw [hc] at h; cases h
        refine .inr (.inr (.inr (.inr (.inl ⟨r, data, (unpackHeader ((replyWords s.inbuf).getD s.wordPos 0#32)).infoCode, rfl, rfl, hc, ?_⟩)))); rw [← ha]

/-- Everything a QUEUE can have done. -/
theorem queue_cases {op : BitVec 4} {n : Nat} {addr : Word} {wdata : List Word} {slot : Option Nat} {s t : State}
    (h : exec (.queue op n addr wdata slot) s = .next t) :
    (∃ e, t = respond (.error e) s) ∨
    (∃ e, s.batch ≠ [] ∧ (flush s).error = some e ∧ t = respond (.error e) (flush s).state) ∨
    (∃ q, checkOperands op n addr wdata slot = .ok q ∧ tooLarge s.params q = false ∧
      ((wouldOverflow s q = false ∧ t = acceptOp q s) ∨
       (s.batch ≠ [] ∧ (flush s).error = none ∧ t = acceptOp q (flush s).state))) := by
  simp only [exec, execQueue] at h
  cases hc : checkOperands op n addr wdata slot with
  | error e => rw [hc] at h; cases h; exact .inl ⟨e, rfl⟩
  | ok q =>
    rw [hc] at h
    simp only at h
    split at h
    · cases h; exact .inl ⟨_, rfl⟩
    rename_i htl
    split at h
    · rename_i hwo
      have hb : s.batch ≠ [] := by intro hb; simp [wouldOverflow, hb] at hwo
      cases hf : flush s with
      | mk u oe =>
        rw [hf] at h
        cases oe with
        | some e => cases h; exact .inr (.inl ⟨e, hb, rfl, rfl⟩)
        | none => cases h; exact .inr (.inr ⟨q, rfl, by simpa using htl, .inr ⟨hb, rfl, rfl⟩⟩)
    · rename_i hwo
      cases h; exact .inr (.inr ⟨q, rfl, by simpa using htl, .inl ⟨by simpa using hwo, rfl⟩⟩)

/-- A frame decode that goes on is a response. -/
theorem frame_cases {r : FrameResult} {s t : State} (h : frameOutcome r s = .next t) :
    ∃ resp, t = respond resp s := by
  cases r with
  | ok i l u => cases h; exact ⟨_, rfl⟩
  | error e i => cases h; exact ⟨_, rfl⟩
  | refused w => cases h

/-- Everything a DECODE_EVENT that goes on can have done. -/
theorem event_cases {fam : BoardFamily} {buf : List Byte} {bi ri : Nat} {s t : State}
    (h : exec (.decodeEvent fam buf bi ri) s = .next t) :
    (∃ e info, t = respond (.error e) (sendEvt ⟨false, some e, info, none⟩ s)) ∨
    (∃ info lo hi, parseFrame s.params fam buf = .ok info lo hi ∧
      t = respond (streamResponse (decodeRecord (payloadOf buf lo hi) bi ri))
        (sendEvt ⟨(decodeRecord (payloadOf buf lo hi) bi ri).success, none, some info, some (decodeRecord (payloadOf buf lo hi) bi ri)⟩
          (runDecode (payloadOf buf lo hi) bi ri s))) := by
  simp only [exec, execDecodeEvent] at h
  cases hp : parseFrame s.params fam buf with
  | refused w => rw [hp] at h; cases h
  | error e info => rw [hp] at h; cases h; exact .inl ⟨e, info, rfl⟩
  | ok info lo hi => rw [hp] at h; cases h; exact .inr ⟨info, lo, hi, rfl, rfl⟩

/-- Everything a host command that goes on can have done. -/
theorem command_cases {i : Instr} {s t : State} (hi : i.isCommand = true) (h : exec i s = .next t) :
    (∃ r, t = respond r s) ∨
    (∃ r, t = respond r (flush s).state) ∨
    (∃ q op n addr wdata slot, checkOperands op n addr wdata slot = .ok q ∧ tooLarge s.params q = false ∧
      ((wouldOverflow s q = false ∧ t = acceptOp q s) ∨ (t = acceptOp q (flush s).state))) ∨
    (∃ r p bi ri, t = respond r (runDecode p bi ri s)) ∨
    (∃ r e, t = respond r (sendEvt e s)) ∨
    (∃ r e p bi ri, t = respond r (sendEvt e (runDecode p bi ri s))) ∨
    t = respond (.ok .unit) (resetEngine s) := by
  cases i with
  | queue op n addr wdata slot =>
    rcases queue_cases h with ⟨e, h⟩ | ⟨e, _, _, h⟩ | ⟨q, h1, h2, h3⟩
    · exact .inl ⟨_, h⟩
    · exact .inr (.inl ⟨_, h⟩)
    · refine .inr (.inr (.inl ⟨q, op, n, addr, wdata, slot, h1, h2, ?_⟩))
      rcases h3 with h3 | ⟨_, _, h3⟩
      · exact .inl h3
      · exact .inr h3
  | execute =>
    rw [execute_flush] at h; cases h
    exact .inr (.inl ⟨_, rfl⟩)
  | encodeHeader n op x =>
    simp only [exec, execEncodeHeader] at h
    split at h <;> cases h <;> exact .inl ⟨_, rfl⟩
  | decodeHeader w => cases h; exact .inl ⟨_, rfl⟩
  | decodeFrameNet buf => exact .inl (frame_cases h)
  | decodeFrameUsb buf fw ht => exact .inl (frame_cases h)
  | decodeChipStream p bi ri => cases h; exact .inr (.inr (.inr (.inl ⟨_, p, bi, ri, rfl⟩)))
  | decodeEvent fam buf bi ri =>
    rcases event_cases h with ⟨e, info, h⟩ | ⟨info, lo, hi, _, h⟩
    · exact .inr (.inr (.inr (.inr (.inl ⟨_, _, h⟩))))
    · exact .inr (.inr (.inr (.inr (.inr (.inl ⟨_, _, _, _, _, h⟩)))))
  | reset => cases h; exact .inr (.inr (.inr (.inr (.inr (.inr rfl)))))
  | _ => cases hi

end Sys2Proof.Machine
end

