-- ==== Sys2Proof/Tests/Slice0.lean ====
section
/-! SUPPORT. The tests: ill-formed terms, words written out from 30_encoding.md, small steps whose results stand in
95_test_vectors.md or in the examples of the rules, and for each statement with hypotheses a witness that meets them. -/

namespace Sys2Proof.Tests

open Sys2Proof.Machine

set_option Elab.async false

/-! ## Helpers -/

/-- The next state of an instruction passes a test. -/
def runs (i : Instr) (s : State) (p : State → Bool) : Bool :=
  match exec i s with
  | .next t => p t
  | .fault _ => false
  | .refused _ => false

/-- The next state of a step passes a test. -/
def steps (s : State) (p : State → Bool) : Bool :=
  match step s with
  | .next t => p t
  | .fault _ => false
  | .refused _ => false

/-- The response is the last message on RSP. -/
def answers (r : Response) (t : State) : Bool := t.rsp == [⟨0, r⟩]

/-- The words as a datagram on the wire. -/
def onWire (ws : List Word) : List Byte := ws.flatMap bigEndian

/-- A pending record with slot 0. -/
def record (k : OpKind) (n : BitVec 12) (wdata : List Word) : TxnRecord := ⟨n, k, 0#8, 0x10#32, wdata, some 0, none, .pending⟩

/-- The start state of vectors E30 to E45: RESET, then QUEUE READ, 1, 0x10, [], slot 0. -/
def pendingRead : State :=
  { State.reset with
    nextId := 1#8
    batch := [record .read 1#12 []]
    outLen := 8
    inLen := 8
    outbuf := [(0, 0x20#8), (1, 0x01#8), (3, 0x0F#8), (7, 0x10#8)] }

/-- The same with words coming in on DGRAM_RX. -/
def replying (ws : List Word) : State := { pendingRead with rx := [.datagram (onWire ws)] }

/-- A walk over a reply that stands at its first word, with one record. -/
def walking (r : TxnRecord) (ws : List Word) : State :=
  { State.reset with activity := .reply, batch := [r], inbuf := onWire ws }

/-- The record is resolved and slot 0 holds the words. -/
def resolved (ws : List Word) (t : State) : Bool :=
  t.batch.map (fun r => r.state) == [TxnState.resolved] && Slots.read t.slots 0 == ws && t.recIdx == 1

/-- A started decoder with chip 0 and region 0. -/
def started : State :=
  { State.reset with
    activity := .stream
    decoder := { DecoderState.initial with started := true, chip := some 0#4, region := some 0#5, newEvent := true } }

/-- A hit of board 0, receiver 0. -/
def hit (c : BitVec 4) (r : Option (BitVec 5)) (d : Option (BitVec 9)) (a : BitVec 11) (f : QualityFlag) : PixelHit :=
  ⟨0, 0, c, r, d, a, f⟩

/-- The state with a USB table that gives N words for firmware 1, header type 0, and a defined 3-word decode for it. -/
def usbState (n : UsbHdrLen) : State :=
  State.resetFor (Params.given 1 [⟨1, 0, n⟩] [1])

/-- The block after reset with four callers and USB tables that define nothing. -/
def bare : State := State.resetFor (Params.given 4 [] [])

/-- Words as a USB buffer has them, least significant byte first. -/
def usbBytes (ws : List Word) : List Byte := ws.flatMap (fun w => (bigEndian w).reverse)

/-- The base frame of 95_test_vectors.md section 2.6, with header word 0 and trailer word 1 given. -/
def usbFrame (h0 t1 : Word) : List Byte := usbBytes [h0, 1#32, 0#32, 0x10#32, 0#32, 28#32, t1]

/-- The frame of vector U17, for a 3-word header. -/
def usbFrame3 (t1 : Word) : List Byte := usbBytes [0xFFFFFFFF#32, 0#32, 0#32, 20#32, t1]

/-- A network frame of 65 bytes with a trailer byte. -/
def netFrame (t : Byte) : List Byte := List.replicate 64 0#8 ++ [t]

/-! ## Well-formedness: each check refuses an ill-formed term -/

theorem test_wf_unknown80_9F : (Instr.unknown80_9F 0xA0#8).wf = false := by decide
theorem test_wf_unknownF2_F3 : (Instr.unknownF2_F3 0xF1#8).wf = false := by decide
theorem test_wf_unknownF4_F7 : (Instr.unknownF4_F7 0xF8#8).wf = false := by decide
theorem test_wf_unknownF8_FB : (Instr.unknownF8_FB 0xFC#8).wf = false := by decide
theorem test_wf_unknownFC_FD : (Instr.unknownFC_FD 0xFE#8).wf = false := by decide
theorem test_wf_unknownFE : (Instr.unknownFE 0xFF#8).wf = false := by decide

/-! ## Decoding: words written out bit by bit from 30_encoding.md R91, R92, R112 and R113 -/

/-- version 0010, count 000000000001, id 00000101, kind 0000, code 1111 (vector H1). -/
theorem test_decode_read : decodeTableWord 32 0b00100000000000010000010100001111 = some (.read 1#12 5#8 15#4) := by decide
theorem test_decode_write : decodeTableWord 32 0b00101111111111111111111100011111 = some (.write 0xFFF#12 0xFF#8 15#4) := by decide
theorem test_decode_niRead : decodeTableWord 32 0b00100000000000010000000000101111 = some (.niRead 1#12 0#8 15#4) := by decide
theorem test_decode_niWrite : decodeTableWord 32 0b00100000000000101000000000110000 = some (.niWrite 2#12 0x80#8 0#4) := by decide
theorem test_decode_rmwBits : decodeTableWord 32 0b00100000000000010001000001001111 = some (.rmwBits 1#12 0x10#8 15#4) := by decide
theorem test_decode_rmwSum : decodeTableWord 32 0b00100010001101000101011001010111 = some (.rmwSum 0x234#12 0x56#8 7#4) := by decide
theorem test_decode_idleTxn : decodeTableWord 32 0b00100000000000000000010111110000 = some (.idleTxn 0#12 5#8 0#4) := by decide
/-- Version 3 (R96), and op kind 0110 (R93). -/
theorem test_decode_rejects : decodeTableWord 32 0x30010000 = none ∧ decodeTableWord 32 0x20010060 = none := by decide
theorem test_decode_idle : decodeTableWord 8 0b11111111 = some .idle := by decide
theorem test_decode_busyOn : decodeTableWord 8 0b11110001 = some .busyOn := by decide
theorem test_decode_busyOff : decodeTableWord 8 0b11110000 = some .busyOff := by decide
/-- 1010 0011, then the bunch counter 10000111 as the second byte. -/
theorem test_decode_chipHeader : decodeTableWord 16 0b1000011110100011 = some (.chipHeader 3#4 0x87#8) := by decide
theorem test_decode_chipTrailer : decodeTableWord 8 0b10111001 = some (.chipTrailer 9#4) := by decide
theorem test_decode_emptyFrame : decodeTableWord 16 0b0000011111100011 = some (.emptyFrame 3#4 7#8) := by decide
theorem test_decode_regionHeader : decodeTableWord 8 0b11011111 = some (.regionHeader 31#5) := by decide
/-- 01 1010 01, then 00000011: ld 1010, a 01 00000011. -/
theorem test_decode_dataShort : decodeTableWord 16 0b0000001101101001 = some (.dataShort 10#4 0x103#10) := by decide
/-- 00 1111 11, 11111111, then 1 0000101: bit 7 of the third byte is ignored (R117). -/
theorem test_decode_dataLong : decodeTableWord 24 0b100001011111111100111111 = some (.dataLong 15#4 0x3FF#10 5#7) := by decide
theorem test_decode_unknown80_9F : decodeTableWord 8 0x9F = some (.unknown80_9F 0x9F#8) := by decide
theorem test_decode_unknownF2_F3 : decodeTableWord 8 0xF2 = some (.unknownF2_F3 0xF2#8) := by decide
theorem test_decode_unknownF4_F7 : decodeTableWord 8 0xF5 = some (.unknownF4_F7 0xF5#8) := by decide
theorem test_decode_unknownF8_FB : decodeTableWord 8 0xFB = some (.unknownF8_FB 0xFB#8) := by decide
theorem test_decode_unknownFC_FD : decodeTableWord 8 0xFD = some (.unknownFC_FD 0xFD#8) := by decide
theorem test_decode_unknownFE : decodeTableWord 8 0xFE = some (.unknownFE 0xFE#8) := by decide

/-! ## Reply headers, one step each (vectors E30, E38; layouts of 30_encoding.md R101) -/

theorem test_read : runs (.read 1#12 0#8 0#4) (walking (record .read 1#12 []) [0x20010000#32, 0xDEADBEEF#32])
    (resolved [0xDEADBEEF#32]) = true := by decide
theorem test_read_badHeader : runs (.read 1#12 0#8 1#4) (walking (record .read 1#12 []) [0x20010001#32, 0xDEADBEEF#32])
    (answers (.error (.badHeader 0x20010001#32))) = true := by decide
theorem test_write : runs (.write 1#12 0#8 0#4) (walking (record .write 1#12 [7#32]) [0x20010010#32]) (resolved []) = true := by decide
theorem test_niRead : runs (.niRead 2#12 0#8 0#4) (walking (record .niRead 2#12 []) [0x20020020#32, 1#32, 2#32])
    (resolved [1#32, 2#32]) = true := by decide
theorem test_niWrite : runs (.niWrite 1#12 0#8 0#4) (walking (record .niWrite 1#12 [7#32]) [0x20010030#32]) (resolved []) = true := by
  decide
theorem test_rmwBits : runs (.rmwBits 1#12 0#8 0#4) (walking (record .rmwBits 1#12 [1#32, 2#32]) [0x20010040#32, 9#32])
    (resolved [9#32]) = true := by decide
theorem test_rmwSum : runs (.rmwSum 1#12 0#8 0#4) (walking (record .rmwSum 1#12 [5#32]) [0x20010050#32, 9#32])
    (resolved [9#32]) = true := by decide
theorem test_idleTxn : runs (.idleTxn 0#12 0#8 0#4) (walking (record .idle 0#12 []) [0x200000F0#32]) (resolved []) = true := by decide

/-! ## Chip words, one step each (examples of 43_bitstream_decoder.md; vectors of 95_test_vectors.md section 2.7) -/

theorem test_idle : runs .idle State.reset (fun t => t.decoder == { DecoderState.initial with cursor := 1 }) = true := by decide
theorem test_busyOn : runs .busyOn started (fun t => t.decoder == { started.decoder with cursor := 1 }) = true := by decide
theorem test_busyOff : runs .busyOff started (fun t => t.decoder == { started.decoder with cursor := 1 }) = true := by decide
theorem test_chipHeader : runs (.chipHeader 0#4 5#8) State.reset (fun t => t.decoder == { DecoderState.initial with
    started := true, chip := some 0#4, bunch := some 5#8, newEvent := true, cursor := 2 }) = true := by decide
theorem test_emptyFrame : runs (.emptyFrame 3#4 7#8) State.reset (fun t => t.decoder == { DecoderState.initial with
    started := true, finished := true, chip := some 3#4, bunch := some 7#8, cursor := 2 }) = true := by decide
/-- Vector S22's trailer, and S16. -/
theorem test_chipTrailer : runs (.chipTrailer 15#4) started (fun t =>
    t.decoder.finished && t.decoder.chip == none && t.decoder.trlFlags == some 15#4) = true := by decide
theorem test_chipTrailer_before : runs (.chipTrailer 0#4) State.reset (fun t => t.rsp.any (fun m => match m.response with
    | .error (.chipStream (.trailerBeforeHeader c) _) => c == 0
    | _ => false)) = true := by decide
theorem test_regionHeader : runs (.regionHeader 31#5) started (fun t => t.decoder.region == some 31#5) = true := by decide
theorem test_dataShort : runs (.dataShort 0#4 0x10#10) started (fun t =>
    t.hits == [hit 0#4 (some 0#5) (some 0#9) 0x10#11 .ok] && t.decoder.cursor == 2) = true := by decide
/-- Cluster expansion, L1.6. -/
theorem test_dataLong : runs (.dataLong 0#4 0x20#10 5#7) started (fun t => t.hits ==
    [hit 0#4 (some 0#5) (some 0#9) 0x20#11 .ok, hit 0#4 (some 0#5) (some 0#9) 0x21#11 .ok,
      hit 0#4 (some 0#5) (some 0#9) 0x23#11 .ok]) = true := by decide
/-- A cluster past address 1023: base OK, the neighbour at 1030 BAD_ADDRESS (43_bitstream_decoder.md R239, 44_hit_quality_validator.md
R265). -/
theorem test_dataLong_edge : runs (.dataLong 15#4 1023#10 0x40#7) { started with decoder := { started.decoder with region := some 31#5 } }
    (fun t => t.hits == [hit 0#4 (some 31#5) (some 511#9) 1023#11 .ok, hit 0#4 (some 31#5) (some 511#9) 1030#11 .badAddress] &&
      t.decoder.corrupt) = true := by decide

/-- The decode ends with UNKNOWN_WORD at offset 0. -/
def unknownAt0 (b : Byte) (t : State) : Bool := t.rsp.any (fun m => match m.response with
  | .error (.chipStream (.unknownWord c b0) _) => c == 0 && b0 == b
  | _ => false)

theorem test_unknown80_9F : runs (.unknown80_9F 0x80#8) started (unknownAt0 0x80#8) = true := by decide
theorem test_unknownF2_F3 : runs (.unknownF2_F3 0xF2#8) started (unknownAt0 0xF2#8) = true := by decide
theorem test_unknownF4_F7 : runs (.unknownF4_F7 0xF4#8) started (unknownAt0 0xF4#8) = true := by decide
theorem test_unknownF8_FB : runs (.unknownF8_FB 0xF8#8) started (unknownAt0 0xF8#8) = true := by decide
theorem test_unknownFC_FD : runs (.unknownFC_FD 0xFC#8) started (unknownAt0 0xFC#8) = true := by decide
theorem test_unknownFE : runs (.unknownFE 0xFE#8) started (unknownAt0 0xFE#8) = true := by decide

/-! ## Commands (vectors of 95_test_vectors.md) -/

/-- E1: OK(0), NEXT 1, OUT 8, IN 8, OUTBUF 20 01 00 0F 00 00 00 10. -/
theorem test_queue_read : runs (.queue 0#4 1 0x10#32 [] (some 0)) State.reset (fun t =>
    answers (.ok (.txnId 0#8)) t && t.nextId == 1#8 && t.outLen == 8 && t.inLen == 8 &&
      Memory.readBytes t.outbuf 0 8 == [0x20#8, 0x01#8, 0x00#8, 0x0F#8, 0x00#8, 0x00#8, 0x00#8, 0x10#8]) = true := by decide
/-- E4: OUT 12, IN 8, OUTBUF 20 01 00 5F 00 00 04 00 00 00 00 05. -/
theorem test_queue_rmwSum : runs (.queue 5#4 0 0x400#32 [5#32] none) State.reset (fun t =>
    answers (.ok (.txnId 0#8)) t && t.outLen == 12 && t.inLen == 8 && Memory.readBytes t.outbuf 0 12 ==
      [0x20#8, 0x01#8, 0x00#8, 0x5F#8, 0x00#8, 0x00#8, 0x04#8, 0x00#8, 0x00#8, 0x00#8, 0x00#8, 0x05#8]) = true := by decide
/-- E30. -/
theorem test_execute : runs .execute (replying [0x20010000#32, 0xDEADBEEF#32]) (fun t => answers (.ok .unit) t &&
    Slots.read t.slots 0 == [0xDEADBEEF#32] && t.lastId == 0#8 && t.lastValid && t.batch == [] && t.outLen == 0) = true := by decide
/-- E44: id and info both wrong, the id check comes first. -/
theorem test_execute_order : runs .execute (replying [0x20010103#32, 0xDEADBEEF#32]) (fun t =>
    answers (.error (.idMismatch 0x20010103#32)) t && t.slots == [] && t.batch == [] && !t.lastValid) = true := by decide
/-- H4 and H10. -/
theorem test_encodeHeader : runs (.encodeHeader 2 3#4 0x80) State.reset (answers (.ok (.header 0x2002803F#32))) = true := by decide
theorem test_encodeHeader_reserved : runs (.encodeHeader 1 0xE#4 0) State.reset (answers (.error (.invalidOperation 14))) = true := by
  decide
/-- H12. -/
theorem test_decodeHeader : runs (.decodeHeader 0x12345678#32) State.reset
    (answers (.ok (.fields ⟨1#4, 0x234#12, 0x56#8, 7#4, 8#4⟩))) = true := by decide
/-- N5: both flags. -/
theorem test_decodeFrameNet : runs (.decodeFrameNet (netFrame 3#8)) State.reset (fun t => t.rsp.any (fun m => match m.response with
    | .error (.netTrailerError b info) => b == 3#8 && info.headerError && info.linkDecoderError
    | _ => false)) = true := by decide
/-- N8: 0B 00 00 00 at 4, 04 03 02 01 at 12. -/
theorem test_decodeFrameNet_words : runs (.decodeFrameNet ([0#8, 0#8, 0#8, 0#8, 0x0B#8, 0#8, 0#8, 0#8, 0#8, 0#8, 0#8, 0#8, 4#8, 3#8,
    2#8, 1#8] ++ List.replicate 48 0#8 ++ [0#8])) State.reset (fun t => t.rsp.any (fun m => match m.response with
    | .ok (.frame (.net info) lo hi) => info.blockFlags == 0xB#32 && info.overflow && info.timeout && info.endOfRun &&
      info.channel == 0x01020304#32 && lo == 64 && hi == 64
    | _ => false)) = true := by decide
/-- U1. -/
theorem test_decodeFrameUsb : runs (.decodeFrameUsb (usbFrame 0x408#32 0xBFBFBFBF#32) 1 0) (usbState .five) (fun t =>
    t.rsp.any (fun m => match m.response with
    | .ok (.frame (.usb info) lo hi) => info.trigType == some 1#3 && info.almostFull == some false && info.bufferDepth == some 0#4 &&
      info.eventId == 1#48 && info.timestamp == 0x10#48 && info.eventSize == 28#32 && lo == 20 && hi == 20
    | _ => false)) = true := by decide
/-- U16: nine words. -/
theorem test_decodeFrameUsb_nine : runs (.decodeFrameUsb (usbBytes [0x2848#32, 0xABCDEF#32, 0x12#32, 0x345678#32, 9#32, 100#32,
    200#32, 300#32, 400#32, 44#32, 0xBFBFBFBF#32]) 1 0) (usbState .nine) (fun t => t.rsp.any (fun m => match m.response with
    | .ok (.frame (.usb info) lo hi) => info.almostFull == some true && info.trigType == some 2#3 && info.bufferDepth == some 1#4 &&
      info.eventId == 0x12ABCDEF#48 && info.timestamp == 0x09345678#48 && info.chipBusyCount == some 200#32 &&
      info.extTriggerCount == some 400#32 && lo == 36 && hi == 36
    | _ => false)) = true := by decide
/-- The golden path, L1.5, and stuck detection, L1.7. -/
theorem test_decodeChipStream : runs (.decodeChipStream [0xA0#8, 0x05#8, 0xC0#8, 0x40#8, 0x10#8, 0xB0#8] 0 0) State.reset (fun t =>
    t.hits == [hit 0#4 (some 0#5) (some 0#9) 0x10#11 .ok] &&
      answers (.ok (.stream ⟨true, .success, 6, true, true, false, 0, none, some 5#8, some 0#4⟩)) t) = true := by decide
theorem test_decodeChipStream_stuck : runs (.decodeChipStream [0xA0#8, 0x05#8, 0xC0#8, 0x40#8, 0x10#8, 0x40#8, 0x0F#8, 0xB0#8] 0 0)
    State.reset (fun t => t.hits.map (fun h => h.flag) == [.ok, .stuck] && answers (.error (.chipStream .corrupt
      ⟨false, .corrupt, 8, true, true, true, 1, none, some 5#8, some 0#4⟩)) t) = true := by decide
/-- The frame of N11: payload A0 05 B0. -/
theorem test_decodeEvent : runs (.decodeEvent .net (List.replicate 64 0#8 ++ [0xA0#8, 0x05#8, 0xB0#8, 0x00#8]) 0 0) State.reset (fun t =>
    t.evts.map (fun e => (e.success, e.frameError)) == [(true, none)] && t.decoder.cursor == 3) = true := by decide
theorem test_decodeEvent_frame : runs (.decodeEvent .net (netFrame 1#8) 0 0) State.reset (fun t =>
    t.evts.map (fun e => (e.success, e.decoder)) == [(false, none)] && t.hits == []) = true := by decide
/-- 70_reset_and_hazards.md R321. -/
theorem test_reset : runs .reset pendingRead (fun t => answers (.ok .unit) t && t.nextId == 0#8 && !t.lastValid && t.batch == [] &&
    t.outLen == 0 && t.inLen == 0 && t.outbuf == []) = true := by decide

/-! ## Fetching -/

/-- 00_scope.md R7, R8: the first caller is one of the callers whatever N_HOSTS is, caller 4 of four callers is none. -/
theorem test_firstCaller : steps { State.reset with cmd := [⟨0, .reset⟩] } (answers (.ok .unit)) = true := by decide
theorem test_noSuchCaller : step { bare with cmd := [⟨4, .reset⟩] } = .fault (.noSuchCaller 4) := rfl

/-- A table word placed by withFetchWord is run by the very next step. -/
theorem test_withFetchWord_chip : steps (State.reset.withFetchWord 8 0xA3) (fun t => t.decoder.chip == some 3#4) = true := by decide
theorem test_withFetchWord_header : steps (State.reset.withFetchWord 32 0x20010000) (fun t =>
    t.batch.map (fun r => r.state) == [.resolved]) = true := by decide

/-! ## Witnesses: a concrete state and operands that meet all hypotheses of each statement together -/

/-- A second record, and a batch of two whose first reply is right. -/
def second : TxnRecord := ⟨1#12, .write, 1#8, 0x20#32, [7#32], none, none, .pending⟩
def pairs1 : List (TxnRecord × List Word) := [(record .read 1#12 [], [0xAAAA#32])]
def twoWith (ws : List Word) : State :=
  { pendingRead with
    batch := [record .read 1#12 [], second]
    nextId := 2#8
    outLen := 20
    inLen := 12
    lastValid := true
    lastId := 0xFF#8
    rx := [.datagram (onWire ws)] }

/-- A reply whose first id is not LAST_ID is fresh. -/
theorem fresh_of {s : State} {ws : List Word} (w : Word) (h : ws.head? = some w) (hi : idOf w ≠ s.lastId.toNat) : Fresh s ws := by
  rintro _ w' tl rfl
  cases h
  exact hi

theorem witness_ChipWordsRoundTrip : (Instr.dataLong 15#4 0x3FF#10 0x7F#7).wf = true ∧
    (Instr.dataLong 15#4 0x3FF#10 0x7F#7).space = some .chip ∧
    encode (Instr.dataLong 15#4 0x3FF#10 0x7F#7) = some [0x3F#8, 0xFF#8, 0x7F#8] := by decide
theorem witness_HeaderWordsRoundTrip : (Instr.rmwSum 0xFFF#12 0xFF#8 7#4).space = some .header ∧
    encode (Instr.rmwSum 0xFFF#12 0xFF#8 7#4) = some [0x2F#8, 0xFF#8, 0xFF#8, 0x57#8] := by decide
theorem witness_ChipDecodeExact : decode .chip [0xC0#8] = .ok (.regionHeader 0#5, []) ∧
    decode .chip [0x00#8, 0x20#8, 0x85#8] = .ok (.dataLong 0#4 0x20#10 5#7, []) ∧
    ([] : List Byte).length + 1 < wordBytes 0xA0 ∧ [0#8].length + 1 < wordBytes 0 ∧
    wordBytes 0xFE ≤ ([] : List Byte).length + 1 ∧ wordBytes 0x3F ≤ [0#8, 0#8].length + 1 := by decide
theorem witness_HeaderDecodeExact : decode .header [0x20#8, 0x01#8, 0x05#8, 0x0F#8] = .ok (.read 1#12 5#8 15#4, []) ∧
    [0x20#8, 0x01#8, 0x05#8].length < 4 ∧ versionOf 0x1FFFFFFF#32 ≠ 2 ∧ versionOf 0x30000000#32 ≠ 2 ∧
    (versionOf 0x20000060#32 = 2 ∧ 6 ≤ kindOf 0x20000060#32 ∧ kindOf 0x20000060#32 ≤ 14) ∧
    (versionOf 0x200000E0#32 = 2 ∧ 6 ≤ kindOf 0x200000E0#32 ∧ kindOf 0x200000E0#32 ≤ 14) ∧
    (versionOf 0x20000050#32 = 2 ∧ kindOf 0x20000050#32 < 6) ∧ (versionOf 0x200000F0#32 = 2 ∧ kindOf 0x200000F0#32 = 15) := by
  decide
theorem witness_PackUnpack : encodedHeader 0xFFF OpKind.write.code 0xFF = .ok 0x2FFFFF1F#32 := by decide
theorem witness_EncodeHeaderBuildsWord : 0xFFF ≤ 0xFFF ∧ 0xFF ≤ 0xFF := by decide
theorem witness_EncodeHeaderRejects : 0xFFF < 0x1000 ∧ (0xFFF ≤ 0xFFF ∧ 6 ≤ (6#4).toNat ∧ (14#4).toNat ≤ 14) ∧
    (0xFFF ≤ 0xFFF ∧ ((5#4).toNat < 6 ∨ (5#4).toNat = 15) ∧ 0xFF < 0x100) ∧ ((15#4).toNat < 6 ∨ (15#4).toNat = 15) := by decide
theorem witness_HeaderVersionIsTwo :
    (exec (.encodeHeader 1 0#4 5) State.reset = .next (answered State.reset (.ok (.header 0x2001050F#32)))) ∧
    (twoWith [0x20010000#32, 0xAAAA#32, 0x10010110#32]).batch = pairs1.map Prod.fst ++ second :: [] ∧ RightData pairs1 ∧
    received (twoWith [0x20010000#32, 0xAAAA#32, 0x10010110#32]) =
      .datagram ((goodReplies pairs1 ++ 0x10010110#32 :: []).flatMap bigEndian) ∧
    Fresh (twoWith [0x20010000#32, 0xAAAA#32, 0x10010110#32]) (goodReplies pairs1 ++ 0x10010110#32 :: []) ∧
    versionOf 0x10010110#32 ≠ 2 := by
  exact ⟨rfl, rfl, by unfold RightData; decide, rfl, fresh_of 0x20010000#32 (by decide) (by decide), by decide⟩

/-- QUEUE READ of one word on the empty batch and beside a pending record, and one that fits exactly (E10). -/
theorem witness_QueueAppendsRecord : (GoodOperands .read 1 [] ∧ GoodOperands .read 349 [] ∧ GoodOperands .rmwBits 0 [1#32, 2#32]) ∧
    Memory.wf pendingRead.outbuf ∧ requestSize .read 349 ≤ State.reset.params.packetBudget ∧
    replySize .read 349 = State.reset.params.packetBudget ∧ (pendingRead.batch ≠ [] →
      pendingRead.outLen + requestSize .read 1 ≤ pendingRead.params.packetBudget ∧
        pendingRead.inLen + replySize .read 1 ≤ pendingRead.params.packetBudget) := by
  refine ⟨⟨⟨by decide, rfl⟩, ⟨by decide, rfl⟩, rfl⟩, by decide, by decide, by decide, by decide⟩
theorem witness_QueueInvalidOperation : (6 ≤ (6#4).toNat ∧ (14#4).toNat ≤ 14) ∧ ((3#4).toNat ≤ 3 ∧ 0xFFF < 0x1000) ∧
    (1#4 = OpKind.write.code ∧ ((1#4).toNat ≤ 3 → 2 ≤ 0xFFF) ∧ ¬ GoodOperands .write 2 [1#32]) := by
  refine ⟨by decide, by decide, rfl, by decide, ?_⟩
  intro h
  exact absurd h.2 (by decide)
theorem witness_QueueCapacityExceeded : GoodOperands .read 350 [] ∧ State.reset.params.packetBudget < replySize .read 350 :=
  ⟨⟨by decide, rfl⟩, by decide⟩
theorem witness_QueueFlushesFirst : GoodOperands .read 349 [] ∧ requestSize .read 349 ≤ pendingRead.params.packetBudget ∧
    replySize .read 349 ≤ pendingRead.params.packetBudget ∧ pendingRead.batch ≠ [] ∧
    pendingRead.params.packetBudget < pendingRead.inLen + replySize .read 349 := by
  refine ⟨⟨by decide, rfl⟩, by decide, by decide, by decide, by decide⟩
theorem witness_StepKeepsFirstIdDistinct : FirstIdDistinct { twoWith [] with cmd := [⟨0, .execute⟩] } ∧
    ∃ t, step { twoWith [] with cmd := [⟨0, .execute⟩] } = .next t := by
  refine ⟨?_, _, rfl⟩
  intro _ r h
  cases h
  decide

theorem witness_ExecuteWithoutReply : State.reset.batch = [] ∧
    (pendingRead.batch ≠ [] ∧ received { pendingRead with rx := [.timeout] } = .timeout) ∧
    received { pendingRead with rx := [.datagram [0x20#8]] } = .datagram (onWire [] ++ [0x20#8]) ∧
    (onWire [] ++ [0x20#8]).length % 4 ≠ 0 ∧ (onWire []).length < 4 := by decide
theorem witness_ExecuteDuplicate : (twoWith [0x2001FF00#32]).batch ≠ [] ∧
    received (twoWith [0x2001FF00#32]) = .datagram ((0x2001FF00#32 :: []).flatMap bigEndian) ∧
    (twoWith [0x2001FF00#32]).lastValid = true ∧ idOf 0x2001FF00#32 = (twoWith []).lastId.toNat := by decide
theorem witness_ExecuteAcceptsBatch :
    (twoWith [0x20010000#32, 0xAAAA#32, 0x20010110#32, 9#32]).batch = (pairs1 ++ [(second, [])]).map Prod.fst ∧
    RightData (pairs1 ++ [(second, [])]) ∧ received (twoWith [0x20010000#32, 0xAAAA#32, 0x20010110#32, 9#32]) =
      .datagram ((goodReplies (pairs1 ++ [(second, [])]) ++ [9#32]).flatMap bigEndian) ∧
    (record .read 1#12 []).txnId ≠ (twoWith []).lastId ∧ Slots.wf (twoWith []).slots ∧ (record .read 1#12 []).slot = some 0 ∧
    ∀ x ∈ [(second, ([] : List Word))], x.1.slot = some 0 → x.2 = [] := by
  refine ⟨rfl, by unfold RightData; decide, rfl, by decide, by decide, rfl, by decide⟩
theorem witness_ExecuteChecksVersionIdKind :
    received (twoWith [0x20010000#32, 0xAAAA#32]) = .datagram ((goodReplies pairs1).flatMap bigEndian) ∧
    Fresh (twoWith []) (goodReplies pairs1) ∧ RightData pairs1 ∧ (twoWith []).batch = pairs1.map Prod.fst ++ second :: [] ∧
    EarlyFault 0x30010110#32 second (.versionMismatch 0x30010110#32) ∧ EarlyFault 0x20010210#32 second (.idMismatch 0x20010210#32) ∧
    EarlyFault 0x20010120#32 second (.opKindMismatch 0x20010120#32) := by
  exact ⟨rfl, fresh_of 0x20010000#32 (by decide) (by decide), by unfold RightData; decide, rfl, .inl (by decide),
    .inr (.inl (by decide)), .inr (.inr (by decide))⟩
theorem witness_ExecuteChecksCodeCountData :
    (twoWith []).batch = pairs1.map Prod.fst ++ second :: [] ∧ received (twoWith [0x20010000#32, 0xAAAA#32, 0x20010111#32]) =
      .datagram ((goodReplies pairs1 ++ 0x20010111#32 :: []).flatMap bigEndian) ∧
    Fresh (twoWith []) (goodReplies pairs1 ++ 0x20010111#32 :: []) ∧ RightData pairs1 ∧
    LateFault 0x20010111#32 second (.badHeader 0x20010111#32) ∧ LateFault 0x20010117#32 second (.rxBufferUnderflow 0x20010117#32) ∧
    LateFault 0x20010118#32 second (.unexpectedInfoCode 0x20010118#32) ∧
    LateFault 0x2001011F#32 second (.unexpectedInfoCode 0x2001011F#32) ∧
    LateFault 0x20020110#32 second (.wordCountMismatch 0x20020110#32) ∧
    (RightHeader 0x20010000#32 (record .read 1#12 []) ∧ ([] : List Word).length < replyData (record .read 1#12 [])) := by
  exact ⟨rfl, rfl, fresh_of 0x20010000#32 (by decide) (by decide), by unfold RightData; decide,
    ⟨⟨by decide, by decide, by decide⟩, .inl (.inl (by decide))⟩,
    ⟨⟨by decide, by decide, by decide⟩, .inl (.inr (.inr (.inr (.inr (.inr (.inr (.inl (by decide))))))))⟩,
    ⟨⟨by decide, by decide, by decide⟩, .inl (.inr (.inr (.inr (.inr (.inr (.inr (.inr (by decide))))))))⟩,
    ⟨⟨by decide, by decide, by decide⟩, .inl (.inr (.inr (.inr (.inr (.inr (.inr (.inr (by decide))))))))⟩,
    ⟨⟨by decide, by decide, by decide⟩, .inr (by decide)⟩, ⟨⟨by decide, by decide, by decide⟩, by decide, by decide⟩, by decide⟩
theorem witness_FlushSendsOneDatagram : pendingRead.batch ≠ [] ∧ State.reset.batch = [] ∧ Instr.idle ≠ .execute ∧
    (∀ op n addr wdata slot, Instr.idle ≠ .queue op n addr wdata slot) ∧ ∃ t, exec .idle State.reset = .next t :=
  ⟨by decide, rfl, by decide, (fun _ _ _ _ _ h => by cases h), _, rfl⟩
/-- The state after E1 meets the engine's invariant. -/
theorem witness_ExecuteEmptiesBatch : EngineInv pendingRead ∧ pendingRead.batch ≠ [] ∧
    ∀ r ∈ pendingRead.batch, r.slot ≠ some 1 := by
  refine ⟨?_, by decide, by decide⟩
  constructor <;> decide

theorem witness_ReplyHeaderResolves : (walking (record .read 1#12 []) [0x20010000#32, 5#32, 6#32]).batch[0]? =
      some (record .read 1#12 []) ∧
    (walking (record .read 1#12 []) [0x20010000#32, 5#32, 6#32]).inbuf = ([] ++ 0x20010000#32 :: [5#32] ++ [6#32]).flatMap bigEndian ∧
    ([] : List Word).length = State.reset.wordPos ∧ [5#32].length = replyData (record .read 1#12 []) := by decide
theorem witness_ReplyHeaderFails : (Instr.read 1#12 1#8 0#4).space = some .header ∧
    encode (.read 1#12 1#8 0#4) = some (bigEndian 0x20010100#32) ∧ State.reset.batch[State.reset.recIdx]? = none ∧
    EarlyFault 0x20010100#32 (record .read 1#12 []) (.idMismatch 0x20010100#32) ∧
    (RightHeader 0x20010000#32 (record .read 1#12 []) ∧
      [0x20010000#32].length < State.reset.wordPos + 1 + replyData (record .read 1#12 [])) := by
  refine ⟨rfl, by decide, rfl, .inr (.inl (by decide)), ⟨⟨by decide, by decide, by decide⟩, by decide, by decide⟩, by decide⟩
theorem witness_ReplyWalkIsExecute : (replying [0x20010000#32, 5#32]).batch ≠ [] ∧ (replying []).activity = .command ∧
    (replying []).resume = none ∧ received (replying [0x20010000#32, 5#32]) =
      .datagram ((0x20010000#32 :: [5#32]).flatMap bigEndian) ∧ Fresh (replying []) (0x20010000#32 :: [5#32]) := by
  refine ⟨by decide, rfl, rfl, rfl, ?_⟩
  intro h
  cases h

theorem witness_IdleAndBusyWords : Instr.busyOff = .idle ∨ Instr.busyOff = .busyOn ∨ Instr.busyOff = .busyOff := by decide
theorem witness_ChipTrailerCases : State.reset.decoder.started = false ∧
    ({ started.decoder with finished := true }.started = true ∧ { started.decoder with finished := true }.finished = true) ∧
    (started.decoder.started = true ∧ started.decoder.finished = false) := by decide
theorem witness_RegionHeaderCases : (0xC0#8).toNat = 0xC0 + (0#5).toNat ∧ (0xDF#8).toNat = 0xC0 + (31#5).toNat ∧
    State.reset.decoder.started = false ∧ started.decoder.started = true := by decide
theorem witness_DataWordsNeedStarted : (∃ ld a, Instr.dataShort 0#4 0#10 = .dataShort ld a) ∧ State.reset.decoder.started = false ∧
    ({ started.decoder with chip := none }.started = true ∧ { started.decoder with chip := none }.chip = none) :=
  ⟨⟨_, _, rfl⟩, by decide, by decide⟩
theorem witness_DataShortEmitsRuledHit : started.decoder.started = true := by decide
theorem witness_DataLongEmitsRuledHits : started.decoder.started = true := by decide
theorem witness_ClusterOrder : started.decoder.started = true ∧ started.decoder.chip = some 0#4 ∧ (0#4 : BitVec 4) ≠ 15#4 := by decide
theorem witness_UnknownWordAborts : (0x80 ≤ (0x80#8).toNat ∧ (0x9F#8).toNat ≤ 0x9F) ∧ (0xF2 ≤ (0xF2#8).toNat ∧ (0xF3#8).toNat ≤ 0xF3) ∧
    (0xF4 ≤ (0xF4#8).toNat ∧ (0xF7#8).toNat ≤ 0xF7) ∧ (0xF8 ≤ (0xF8#8).toNat ∧ (0xFB#8).toNat ≤ 0xFB) ∧
    (0xFC ≤ (0xFC#8).toNat ∧ (0xFD#8).toNat ≤ 0xFD) ∧ (0xFE#8).toNat = 0xFE ∧
    (Instr.unknownFE 0xFE#8 = .unknownFC_FD 0xFE#8 ∨ Instr.unknownFE 0xFE#8 = .unknownFE 0xFE#8) := by decide
/-- Vectors S10 and S13. -/
theorem witness_CutOffWordEndsDecode : started.activity = .stream ∧
    ({ started with payload := [0xA0#8] }.payload.drop started.decoder.cursor = 0xA0#8 :: [] ∧
      ([] : List Byte).length + 1 < wordBytes (0xA0#8).toNat) ∧ [0#8].length + 1 < wordBytes (0x00#8).toNat := by decide
theorem witness_EndOfPayloadVerdict : started.activity = .stream ∧ started.payload.length ≤ started.decoder.cursor ∧
    ({ started.decoder with finished := true }.finished = true ∧ { started.decoder with finished := true }.corrupt = false) ∧
    started.decoder.finished = false ∧ DecoderState.initial.started = false ∧
    ({ started.decoder with finished := true, corrupt := true }.finished = true ∧
      { started.decoder with finished := true, corrupt := true }.corrupt = true) := by decide
theorem witness_StreamWalkIsDecode : State.reset.activity = .command ∧ State.reset.event = none := by decide
theorem witness_ClusterNotStuckInside : started.decoder.started = true ∧ started.decoder.chip = some 0#4 ∧
    (0#4 : BitVec 4) ≠ 15#4 := by decide
/-- A lower, an equal and a higher second address. -/
theorem witness_StuckDetection : (14#4 : BitVec 4) ≠ 15#4 ∧ started.decoder.region = some 0#5 ∧
    (∃ t u v, exec (.chipHeader 14#4 5#8) started = .next t ∧ exec (.dataShort 0#4 0x10#10) t = .next u ∧
      exec (.dataShort 0#4 0x10#10) u = .next v) ∧ (0x10#10).toNat ≤ (0x10#10).toNat ∧ (0x10#10).toNat < (0x11#10).toNat :=
  ⟨by decide, rfl, ⟨_, _, _, rfl, rfl, rfl⟩, by decide, by decide⟩

theorem witness_StepKeepsHitInv : (∀ h ∈ [hit 0#4 (some 0#5) (some 0#9) 0x10#11 .ok], HitInv h) ∧
    ∃ t, step { started with payload := [0x40#8, 0x10#8], hits := [hit 0#4 (some 0#5) (some 0#9) 0x10#11 .ok] } = .next t := by
  refine ⟨?_, _, rfl⟩
  intro h hh
  cases hh with
  | head => constructor <;> decide
  | tail _ h => cases h
theorem witness_StepKeepsDecoderInv : DecoderInv { started with payload := [0x40#8, 0x10#8] } ∧
    ∃ t, step { started with payload := [0x40#8, 0x10#8] } = .next t := by
  refine ⟨?_, _, rfl⟩
  constructor <;> decide
theorem witness_StepKeepsEngineInv : EngineInv { pendingRead with cmd := [⟨0, .queue 15#4 0 0#32 [] none⟩] } ∧
    ∃ t, step { pendingRead with cmd := [⟨0, .queue 15#4 0 0#32 [] none⟩] } = .next t := by
  refine ⟨?_, _, rfl⟩
  constructor <;> decide

theorem witness_NetFrameVerdict : 65 ≤ (netFrame 0#8).length ∧ byteNumber (netFrame 0#8) ((netFrame 0#8).length - 1) = 0 ∧
    65 ≤ (netFrame 4#8).length ∧ byteNumber (netFrame 4#8) ((netFrame 4#8).length - 1) ≠ 0 := by decide
theorem witness_NetFrameWords : (List.replicate 64 0#8 : List Byte).length < 65 ∧ 65 ≤ (netFrame 0#8).length := by decide
theorem witness_UsbFrameAccepted : UsbWords (usbState .five) 1 0 5 ∧ 4 * 5 + 8 = (usbFrame 0x1E848#32 0xBFBFBFBF#32).length ∧
    GoodUsbHeader (usbFrame 0x1E848#32 0xBFBFBFBF#32) ∧ UsbWords (usbState .nine) 1 0 9 ∧
    le32Number (usbFrame 0x1E848#32 0xBFBFBFBF#32) ((usbFrame 0x1E848#32 0xBFBFBFBF#32).length - 4) = 0xBFBFBFBF := by
  refine ⟨.inr (.inl ⟨rfl, rfl⟩), by decide, ⟨⟨by decide, by decide, by decide⟩, by decide, by decide, by decide, by decide⟩,
    .inr (.inr ⟨rfl, rfl⟩), by decide⟩
theorem witness_UsbLegacyFrameAccepted : UsbWords (usbState .three) 1 0 3 ∧ 1 ∈ (usbState .three).params.legacy3Fw ∧
    20 ≤ (usbFrame3 0xBFBFBFBF#32).length ∧
    le32Number (usbFrame3 0xBFBFBFBF#32) ((usbFrame3 0xBFBFBFBF#32).length - 4) = 0xBFBFBFBF :=
  ⟨.inl ⟨rfl, rfl⟩, by decide, by decide, by decide⟩
/-- One frame for each of the five checks (vectors U2, U5, U6, U7, U10). -/
theorem witness_UsbHeaderChecksInOrder (info : UsbInfo) : UsbWords (usbState .five) 1 0 5 ∧
    4 * 5 + 8 ≤ (usbFrame 0x409#32 0#32).length ∧
    UsbHeaderFault (usbFrame 0x409#32 0#32) info (.usbHeaderWord0 0x409#32 info) ∧
    UsbHeaderFault (usbBytes [0x408#32, 0x01000001#32]) info (.usbHeaderTopByte 1 0x01000001#32 info) ∧
    UsbHeaderFault (usbBytes [0x408#32, 1#32, 0xFF000000#32]) info (.usbHeaderTopByte 2 0xFF000000#32 info) ∧
    UsbHeaderFault (usbBytes [0x408#32, 1#32, 0#32, 0x80000010#32]) info (.usbHeaderTopByte 3 0x80000010#32 info) ∧
    UsbHeaderFault (usbFrame 0xC08#32 0#32) info (.usbTriggerType 0xC08#32 info) := by
  have good : GoodWord0 0x408 ∧ GoodWord0 0xC08 := ⟨⟨by decide, by decide, by decide⟩, by decide, by decide, by decide⟩
  refine ⟨.inr (.inl ⟨rfl, rfl⟩), by decide, .inl ⟨fun h => absurd h.1 (by decide), rfl⟩,
    .inr ⟨good.1, .inl ⟨by decide, rfl⟩⟩, .inr ⟨good.1, .inr ⟨by decide, .inl ⟨by decide, rfl⟩⟩⟩,
    .inr ⟨good.1, .inr ⟨by decide, .inr ⟨by decide, .inl ⟨by decide, rfl⟩⟩⟩⟩,
    .inr ⟨good.2, .inr ⟨by decide, .inr ⟨by decide, .inr ⟨by decide, by decide, by decide, rfl⟩⟩⟩⟩⟩
theorem witness_UsbTrailerMarkerChecked :
    (∃ info lo hi, exec (.decodeFrameUsb (usbFrame 0x408#32 0xBFBFBFBF#32) 1 0) (usbState .five) =
      .next (answered (usbState .five) (.ok (.frame (.usb info) lo hi)))) ∧
    UsbWords (usbState .five) 1 0 5 ∧ 4 * 5 + 8 ≤ (usbFrame 0x408#32 0xBFBFBFBE#32).length ∧
    GoodUsbHeader (usbFrame 0x408#32 0xBFBFBFBE#32) ∧
    le32Number (usbFrame 0x408#32 0xBFBFBFBE#32) ((usbFrame 0x408#32 0xBFBFBFBE#32).length - 4) ≠ 0xBFBFBFBF := by
  refine ⟨⟨_, _, _, rfl⟩, .inr (.inl ⟨rfl, rfl⟩), by decide,
    ⟨⟨by decide, by decide, by decide⟩, by decide, by decide, by decide, by decide⟩, by decide⟩
theorem witness_UsbRefusalsAndTruncation : (∀ row ∈ bare.params.usbHdrWords, ¬ (row.fw = 1 ∧ row.ht = 0)) ∧
    (UsbWords (usbState .five) 1 0 5 ∧ (List.replicate 27 0#8 : List Byte).length < 4 * 5 + 8) ∧
    (UsbWords (State.resetFor (Params.given 1 [⟨1, 0, .three⟩] [])) 1 0 3 ∧
      20 ≤ (usbFrame3 0#32).length ∧ 1 ∉ (Params.given 1 [⟨1, 0, .three⟩] []).legacy3Fw) :=
  ⟨by decide, ⟨.inr (.inl ⟨rfl, rfl⟩), by decide⟩, .inl ⟨rfl, rfl⟩, by decide, by decide⟩
theorem witness_DecodeEventPipeline :
    exec (frameCommand (.usb 1 0) []) bare = .refused (.unknownHeaderLayout 1 0) ∧
    (∃ e, exec (frameCommand .net (netFrame 1#8)) State.reset = .next (answered State.reset (.error e))) ∧
    exec (frameCommand .net []) State.reset = .next (answered State.reset (.error (.truncated 0))) ∧
    (∃ info lo hi, exec (frameCommand .net (netFrame 0#8)) State.reset = .next (answered State.reset (.ok (.frame info lo hi)))) ∧
    (65 ≤ (netFrame 0#8).length ∧ byteNumber (netFrame 0#8) ((netFrame 0#8).length - 1) = 0) ∧
    (UsbWords (usbState .five) 1 0 5 ∧ 4 * 5 + 8 ≤ (usbFrame 0x408#32 0xBFBFBFBF#32).length ∧
      GoodUsbHeader (usbFrame 0x408#32 0xBFBFBFBF#32) ∧
      le32Number (usbFrame 0x408#32 0xBFBFBFBF#32) ((usbFrame 0x408#32 0xBFBFBFBF#32).length - 4) = 0xBFBFBFBF) := by
  refine ⟨rfl, ⟨_, rfl⟩, rfl, ⟨_, _, _, rfl⟩, by decide, .inr (.inl ⟨rfl, rfl⟩), by decide,
    ⟨⟨by decide, by decide, by decide⟩, by decide, by decide, by decide, by decide⟩, by decide⟩

theorem witness_StepRunsFetched :
    ({ bare with cmd := [⟨3, .execute⟩] }.cmd = ⟨3, .execute⟩ :: [] ∧ Instr.execute.isCommand = true ∧ 3 < bare.params.nHosts ∧
      bare.params.nHosts ≤ 4) ∧
    Instr.idle.isCommand = false ∧ State.reset.cmd = [] ∧
    (started.activity = .stream ∧ decode .chip ({ started with payload := [0xFF#8] }.payload.drop started.decoder.cursor) =
      .ok (.idle, [])) ∧
    ((walking (record .read 1#12 []) [0x20010000#32, 5#32]).activity = .reply ∧
      (walking (record .read 1#12 []) [0x20010000#32, 5#32]).inbuf = ([] ++ 0x20010000#32 :: [5#32]).flatMap bigEndian ∧
      decode .header (bigEndian 0x20010000#32) = .ok (.read 1#12 0#8 0#4, [])) ∧
    decodeTableWord 8 0xC5 = some (.regionHeader 5#5) ∧ decodeTableWord 32 0x2001050F = some (.read 1#12 5#8 15#4) := by decide
theorem witness_OneOutcomePerCommand : (Instr.decodeFrameUsb [] 1 0).isCommand = true := by decide
theorem witness_UnitsShareNoState :
    ((Instr.decodeHeader 0#32).isCommand = true ∧ Instr.decodeHeader 0#32 ≠ .execute ∧ Instr.decodeHeader 0#32 ≠ .reset ∧
      (∀ op n addr wdata slot, Instr.decodeHeader 0#32 ≠ .queue op n addr wdata slot) ∧
      ∃ t, exec (.decodeHeader 0#32) State.reset = .next t) ∧
    (∃ t, exec .execute State.reset = .next t) ∧ (∃ t, exec .reset State.reset = .next t) ∧
    (∃ t, exec (.queue 15#4 0 0#32 [] none) State.reset = .next t) ∧
    ((Instr.read 1#12 0#8 0#4).space = some .header ∧ ∃ t, exec (.read 1#12 0#8 0#4) State.reset = .next t) ∧
    (Instr.idle.space = some .chip ∧ ∃ t, exec .idle State.reset = .next t) := by
  refine ⟨⟨rfl, by decide, by decide, (fun _ _ _ _ _ h => by cases h), _, rfl⟩, ⟨_, rfl⟩, ⟨_, rfl⟩, ⟨_, rfl⟩, ⟨rfl, _, rfl⟩, rfl, _, rfl⟩
theorem witness_OutputsOnlyGrow : ∃ t, step { started with payload := [0x40#8, 0x10#8] } = .next t := ⟨_, rfl⟩
/-- Chip 14 is legal, 15 is not; address 1023 is in range, 1024 is not; a hit is stuck against the same address. -/
theorem witness_FlagPriority : (14#4 : BitVec 4) ≠ 15#4 ∧ (1023#11).toNat ≤ 1023 ∧ 1023 < (1024#11).toNat ∧
    StuckAgainst { started.decoder with newEvent := false, prev := some ⟨some 0#5, some 0#9, 0x10#11⟩ }
      (hit 0#4 (some 0#5) (some 0#9) 0x10#11 .stuck) ∧
    ¬ StuckAgainst { started.decoder with newEvent := false, prev := some ⟨some 0#5, some 0#9, 0x10#11⟩ }
      (hit 0#4 (some 0#5) (some 0#9) 0x11#11 .ok) := by
  refine ⟨by decide, by decide, by decide, ⟨rfl, by decide, _, rfl, rfl, rfl, by decide⟩, ?_⟩
  rintro ⟨_, _, p, hp, _, _, h⟩
  cases hp
  exact absurd h (by decide)

end Sys2Proof.Tests
end

section
/-! # One outcome per command

The proof of O57 (00_scope.md R13): a host command goes on or refuses with one of the two refusals of 60_exceptions.md R295,
and one that goes on has put one message for its caller on RSP. -/

namespace Sys2Proof.Machine

/-- QUEUE never stops. -/
theorem queue_goesOn (op : BitVec 4) (n : Nat) (addr : Word) (wdata : List Word) (slot : Option Nat) (s : State) :
    ∃ t, exec (.queue op n addr wdata slot) s = .next t := by
  simp only [exec, execQueue]
  cases checkOperands op n addr wdata slot with
  | error e => exact ⟨_, rfl⟩
  | ok q =>
    dsimp only
    split
    · exact ⟨_, rfl⟩
    split
    · rcases flush s with ⟨t, _ | e⟩ <;> exact ⟨_, rfl⟩
    · exact ⟨_, rfl⟩

/-- ENCODE_HEADER never stops. -/
theorem encodeHeader_goesOn (n : Nat) (op : BitVec 4) (txnId : Nat) (s : State) :
    ∃ t, exec (.encodeHeader n op txnId) s = .next t := by
  simp only [exec, execEncodeHeader]
  cases encodedHeader n op txnId <;> exact ⟨_, rfl⟩

/-- A frame command goes on, or ends with the refusal its parse gives. -/
theorem frameCommand_goesOn_or_refuses (fam : BoardFamily) (buf : List Byte) (s : State) :
    (∃ t, exec (frameCommand fam buf) s = .next t) ∨
      ∃ w, parseFrame s.params fam buf = .refused w ∧ exec (frameCommand fam buf) s = .refused w := by
  rw [frame_exec]
  cases parseFrame s.params fam buf with
  | ok info lo hi => exact .inl ⟨_, rfl⟩
  | error e info => exact .inl ⟨_, rfl⟩
  | refused w => exact .inr ⟨w, rfl, rfl⟩

/-- DECODE_EVENT goes on, or ends with the refusal its frame's parse gives. -/
theorem decodeEvent_goesOn_or_refuses (fam : BoardFamily) (buf : List Byte) (bi ri : Nat) (s : State) :
    (∃ t, exec (.decodeEvent fam buf bi ri) s = .next t) ∨
      ∃ w, parseFrame s.params fam buf = .refused w ∧ exec (.decodeEvent fam buf bi ri) s = .refused w := by
  simp only [exec, execDecodeEvent]
  cases parseFrame s.params fam buf with
  | ok info lo hi => exact .inl ⟨_, rfl⟩
  | error e info => exact .inl ⟨_, rfl⟩
  | refused w => exact .inr ⟨w, rfl, rfl⟩

/-- A host command never faults: it goes on, or it refuses because a frame's parse does. -/
theorem command_goesOn_or_refuses {i : Instr} (hi : i.isCommand = true) (s : State) :
    (∃ t, exec i s = .next t) ∨
      ∃ fam buf w, parseFrame s.params fam buf = .refused w ∧ exec i s = .refused w := by
  cases i with
  | queue op n addr wdata slot => exact .inl (queue_goesOn op n addr wdata slot s)
  | execute => exact .inl ⟨_, execute_flush s⟩
  | encodeHeader n op txnId => exact .inl (encodeHeader_goesOn n op txnId s)
  | decodeHeader w => exact .inl ⟨_, rfl⟩
  | decodeFrameNet buf => exact (frameCommand_goesOn_or_refuses .net buf s).imp_right fun h => ⟨_, _, h⟩
  | decodeFrameUsb buf fw ht => exact (frameCommand_goesOn_or_refuses (.usb fw ht) buf s).imp_right fun h => ⟨_, _, h⟩
  | decodeChipStream p bi ri => exact .inl ⟨_, rfl⟩
  | decodeEvent fam buf bi ri => exact (decodeEvent_goesOn_or_refuses fam buf bi ri s).imp_right fun h => ⟨_, _, h⟩
  | reset => exact .inl ⟨_, rfl⟩
  | _ => cases hi

/-- FLUSH itself sends no response. -/
@[simp] theorem flush_rsp (s : State) : (flush s).state.rsp = s.rsp := by rw [flush_frame s]

/-- An accepted operation is answered with its id. -/
theorem acceptOp_rsp (q : QueueOp) (s : State) :
    (acceptOp q s).rsp = s.rsp ++ [⟨s.caller, .ok (.txnId (assignedId s))⟩] := rfl

/-- A host command that goes on has put exactly one message on RSP, for its caller. -/
theorem command_rsp {i : Instr} {s t : State} (hi : i.isCommand = true) (h : exec i s = .next t) :
    ∃ r, t.rsp = s.rsp ++ [⟨s.caller, r⟩] := by
  rcases command_cases hi h with ⟨r, rfl⟩ | ⟨r, rfl⟩ | ⟨q, _, _, _, _, _, _, _, ⟨_, rfl⟩ | rfl⟩ | ⟨r, p, bi, ri, rfl⟩ |
    ⟨r, e, rfl⟩ | ⟨r, e, p, bi, ri, rfl⟩ | rfl
  · exact ⟨r, rfl⟩
  · exact ⟨r, by rw [respond_rsp, flush_rsp, flush_caller]⟩
  · exact ⟨_, acceptOp_rsp q s⟩
  · exact ⟨_, by rw [acceptOp_rsp, flush_rsp, flush_caller]⟩
  · exact ⟨r, rfl⟩
  · exact ⟨r, rfl⟩
  · exact ⟨r, rfl⟩
  · exact ⟨_, rfl⟩

/-- Settles O57: a command goes on or refuses; its one message is OK or a typed error, and a refusal comes from a frame's
parse, which refuses for the two reasons of R295 alone. -/
theorem oneOutcomePerCommand : Obligations.OneOutcomePerCommand := by
  intro i s hi
  rcases command_goesOn_or_refuses hi s with ⟨t, ht⟩ | ⟨fam, buf, w, hw, hx⟩
  · obtain ⟨r, hr⟩ := command_rsp hi ht
    cases r with
    | ok v => exact .inl ⟨t, v, ht, hr⟩
    | error e => exact .inr (.inl ⟨t, e, ht, hr⟩)
  · rcases frame_three s.params fam buf w hw with ⟨fw, ht, rfl⟩ | ⟨fw, rfl⟩
    · exact .inr (.inr (.inl ⟨fw, ht, hx⟩))
    · exact .inr (.inr (.inr ⟨fw, hx⟩))

end Sys2Proof.Machine
end

section
/-! # The classifier's table

The proof of O5 (30_encoding.md R112): the rows of the table are ranges of the first byte, `classify` answers the row its
byte lies in, and no byte lies in two rows (R114), so that each type stands for exactly its own range. -/

namespace Sys2Proof.Machine

/-- The b0 range column of R112's table. -/
def rowRange : WordType → Nat → Prop
  | .idle, n => n = 0xFF
  | .busyOn, n => n = 0xF1
  | .busyOff, n => n = 0xF0
  | .chipHeader, n => 0xA0 ≤ n ∧ n ≤ 0xAF
  | .chipTrailer, n => 0xB0 ≤ n ∧ n ≤ 0xBF
  | .emptyFrame, n => 0xE0 ≤ n ∧ n ≤ 0xEF
  | .regionHeader, n => 0xC0 ≤ n ∧ n ≤ 0xDF
  | .dataShort, n => 0x40 ≤ n ∧ n ≤ 0x7F
  | .dataLong, n => n ≤ 0x3F
  | .unknown, n => (0x80 ≤ n ∧ n ≤ 0x9F) ∨ (0xF2 ≤ n ∧ n ≤ 0xFE)

/-- A test of all bits from bit `n` up is a test of the quotient by `2 ^ n`. -/
theorem extractLsb'_top_eq_iff {w n k : Nat} (hw : n + k = w) (x : BitVec w) (c : BitVec k) :
    x.extractLsb' n k = c ↔ x.toNat / 2 ^ n = c.toNat := by
  have hq : x.toNat / 2 ^ n < 2 ^ k := Nat.div_lt_of_lt_mul (by rw [← pow_add, hw]; exact x.isLt)
  rw [← BitVec.toNat_inj, BitVec.extractLsb'_toNat, Nat.shiftRight_eq_div_pow, Nat.mod_eq_of_lt hq]

/-- Masking off the low `n` bits rounds down to a multiple of `2 ^ n`. -/
theorem and_highMask_eq_iff {w : Nat} (n : Nat) (x p : BitVec w) :
    x &&& BitVec.allOnes w <<< n = p ↔ x.toNat / 2 ^ n * 2 ^ n = p.toNat := by
  have hx : x.toNat / 2 ^ n * 2 ^ n < 2 ^ w := (Nat.div_mul_le_self _ _).trans_lt x.isLt
  rw [← BitVec.shiftLeft_ushiftRight, ← BitVec.toNat_inj, BitVec.toNat_shiftLeft, BitVec.toNat_ushiftRight,
    Nat.shiftRight_eq_div_pow, Nat.shiftLeft_eq, Nat.mod_eq_of_lt hx]

/-- The first byte lies in the row of its type: each test of `classify` is a range of numbers. -/
theorem classify_rowRange (b0 : Byte) : rowRange (classify b0) b0.toNat := by
  have exact_iff (c : Byte) : b0 = c ↔ b0.toNat = c.toNat := BitVec.toNat_inj.symm
  have hb := b0.isLt
  simp only [classify, exact_iff, extractLsb'_top_eq_iff, Nat.reduceAdd, BitVec.toNat_ofNat]
  split_ifs <;> simp only [rowRange] <;> omega

/-- The rows are disjoint (R114). -/
theorem rowRange_disjoint {t u : WordType} {n : Nat} (ht : rowRange t n) (hu : rowRange u n) : t = u := by
  cases t <;> cases u <;> simp only [rowRange, reduceCtorEq] at * <;> omega

/-- A type is the answer for the bytes of its row and for no others. -/
theorem classify_eq_iff (b0 : Byte) (t : WordType) : classify b0 = t ↔ rowRange t b0.toNat :=
  ⟨fun h => h ▸ classify_rowRange b0, rowRange_disjoint (classify_rowRange b0)⟩

/-- The pattern `1010xxxx`, `1011xxxx` or `1110xxxx`: a test of the upper four bits. -/
theorem maskF0_iff (b0 p : Byte) : b0 &&& 0xF0#8 = p ↔ b0.toNat / 16 * 16 = p.toNat := and_highMask_eq_iff 4 b0 p

/-- The pattern `110xxxxx`: a test of the upper three bits. -/
theorem maskE0_iff (b0 p : Byte) : b0 &&& 0xE0#8 = p ↔ b0.toNat / 32 * 32 = p.toNat := and_highMask_eq_iff 5 b0 p

/-- The pattern `01xxxxxx` or `00xxxxxx`: a test of the upper two bits. -/
theorem maskC0_iff (b0 p : Byte) : b0 &&& 0xC0#8 = p ↔ b0.toNat / 64 * 64 = p.toNat := and_highMask_eq_iff 6 b0 p

/-- Settles O5: each type is its row's range, each row's bit pattern is that range, and the lengths are the table's. -/
theorem classifierTable : Obligations.ClassifierTable := by
  intro b0
  have row := classify_eq_iff b0
  refine ⟨row .idle, row .busyOn, row .busyOff, row .chipHeader, row .chipTrailer, row .emptyFrame, row .regionHeader,
    row .dataShort, row .dataLong, row .unknown, ?_, ?_, ?_, ?_, ?_, ?_, rfl, rfl, rfl, rfl, rfl, rfl, rfl, rfl, rfl⟩
  all_goals
    simp only [maskF0_iff, maskE0_iff, maskC0_iff, BitVec.toNat_ofNat]
    omega

end Sys2Proof.Machine
end

section
/-! # DECODE_HEADER

The proof of O8 (40_transport_codec.md R131). -/

namespace Sys2Proof.Machine

/-- DECODE_HEADER answers the UNPACK of its word (R129), whatever the word and the state. -/
theorem exec_decodeHeader (w : Word) (s : State) :
    exec (.decodeHeader w) s = .next (answered s (.ok (.fields (unpackHeader w)))) := rfl

/-- Settles O8: the answer is the word's UNPACK, whose five fields are the word's bit ranges as numbers. -/
theorem decodeHeaderSplitsWord : Obligations.DecodeHeaderSplitsWord :=
  fun w s => ⟨unpackHeader w, exec_decodeHeader w s, unpackHeader_toNat w⟩

end Sys2Proof.Machine
end

section
/-! # The USB trailer marker

The proof of O53 (42_board_frame_parser.md R197): every header length ends in the one trailer check, an accepted frame has
passed it, and a frame that no earlier check stops is decided by it. -/

namespace Sys2Proof.Machine

/-- DECODE_FRAME_USB by what its parse gives. -/
theorem exec_decodeFrameUsb (buf : List Byte) (fw ht : Nat) (s : State) :
    exec (.decodeFrameUsb buf fw ht) s = frameOutcome (parseUsb s.params buf fw ht) s := frame_exec (.usb fw ht) buf s

/-- An answered state tells its answer. -/
theorem answered_inj {s : State} {r r' : Response} (h : answered s r = answered s r') : r = r' := by
  simpa [answered] using congrArg State.rsp h

/-- A frame decode is answered with OK exactly when its parse accepts, with the parse's info and payload range. -/
theorem frameOutcome_ok_iff (r : FrameResult) (info : FrameInfo) (lo hi : Nat) (s : State) :
    frameOutcome r s = .next (answered s (.ok (.frame info lo hi))) ↔ r = .ok info lo hi := by
  refine ⟨fun h => ?_, fun h => h ▸ rfl⟩
  cases r with
  | ok info' lo' hi' => cases answered_inj (Host.Outcome.next.inj h); rfl
  | error e info' => cases answered_inj (Host.Outcome.next.inj h)
  | refused why => cases h

/-- The trailer check accepts exactly the frames with the marker, with the info it was given. -/
theorem usbTrailer_ok_iff (n : Nat) (buf : List Byte) (info : UsbInfo) (fi : FrameInfo) (lo hi : Nat) :
    usbTrailer n buf info = .ok fi lo hi ↔
      usbT1 buf = Config.usbTrailerSentinel ∧ .usb info = fi ∧ 4 * n = lo ∧ buf.length - 8 = hi := by
  unfold usbTrailer
  split <;> simp_all

/-- Without the marker the trailer check is UsbTrailerMarker, with trailer word 1. -/
theorem usbTrailer_bad_marker (n : Nat) {buf : List Byte} (info : UsbInfo) (h : usbT1 buf ≠ Config.usbTrailerSentinel) :
    usbTrailer n buf info = .error (.usbTrailerMarker (usbT1 buf) info) (some (.usb info)) := if_pos h

/-- An accepted USB frame was accepted by the trailer check, over an info that reports trailer word 1. -/
theorem parseUsb_ok_trailer {p : Params} {buf : List Byte} {fw ht lo hi : Nat} {fi : FrameInfo}
    (h : parseUsb p buf fw ht = .ok fi lo hi) :
    ∃ n info, info.trailerMarker = usbT1 buf ∧ usbTrailer n buf info = .ok fi lo hi := by
  unfold parseUsb at h
  split at h
  · cases h
  unfold parseUsbAs at h
  split at h
  · cases h
  split at h <;> split at h
  · exact ⟨_, _, rfl, h⟩
  · cases h
  · cases h
  · exact ⟨_, _, rfl, h⟩
  · cases h
  · exact ⟨_, _, rfl, h⟩

/-- A USB frame that no check before the trailer's stops is decided by the trailer check, whatever its header length. -/
theorem parseUsb_eq_usbTrailer {s : State} {buf : List Byte} {fw ht n : Nat} (hw : UsbWords s fw ht n)
    (hlen : 4 * n + 8 ≤ buf.length) (h3 : n = 3 → fw ∈ s.params.legacy3Fw) (hgood : n ≠ 3 → GoodUsbHeader buf) :
    ∃ info : UsbInfo, info.trailerMarker = usbT1 buf ∧ parseUsb s.params buf fw ht = usbTrailer n buf info := by
  rcases hw with ⟨hl, rfl⟩ | ⟨hl, rfl⟩ | ⟨hl, rfl⟩ <;> simp only [parseUsb, hl]
  · refine ⟨usbInfo3 fw buf, rfl, ?_⟩
    rw [parseUsbAs_three _ _ _ hlen, if_pos (h3 rfl)]
  · refine ⟨usbInfo false buf, rfl, ?_⟩
    rw [parseUsbAs_five _ _ _ hlen, headerError_usb_none _ _ (hgood (by decide))]
  · refine ⟨usbInfo true buf, rfl, ?_⟩
    rw [parseUsbAs_nine _ _ _ hlen, headerError_usb_none _ _ (hgood (by decide))]

/-- Settles O53: an accepted frame has passed the trailer check, and a frame that reaches it without the marker fails it. -/
theorem usbTrailerMarkerChecked : Obligations.UsbTrailerMarkerChecked := by
  refine ⟨fun buf fw ht lo hi info s h => ?_, fun buf fw ht n s hw hlen h3 hgood hbad => ?_⟩
  · rw [exec_decodeFrameUsb, frameOutcome_ok_iff] at h
    obtain ⟨n, checked, hinfo, hok⟩ := parseUsb_ok_trailer h
    obtain ⟨hmark, hsame, -, -⟩ := (usbTrailer_ok_iff _ _ _ _ _ _).mp hok
    cases hsame
    exact ⟨(usbT1_iff buf).mp hmark, hinfo.trans hmark⟩
  · obtain ⟨info, hinfo, hparse⟩ := parseUsb_eq_usbTrailer hw hlen h3 hgood
    have hmark : usbT1 buf ≠ Config.usbTrailerSentinel := mt (usbT1_iff buf).mp hbad
    rw [exec_decodeFrameUsb, hparse, usbTrailer_bad_marker n info hmark, ← usbT1_eq]
    exact ⟨info, hinfo, rfl⟩

end Sys2Proof.Machine
end

section
/-! # Region headers

The proof of O32 (43_bitstream_decoder.md R229), and what it needs of every chip word: how a one-byte word decodes, what a
word that emits no hits does, and what an aborting word answers. -/

namespace Sys2Proof.Machine

/-- A one-byte word decodes to the instruction of its type, whatever follows it. -/
theorem decodeChip_oneByte {b0 : Byte} {t : WordType} (ht : classify b0 = t) (hlen : t.length = 1) (rest : List Byte) :
    decode .chip (b0 :: rest) = .ok (chipInstr t b0 (rest.getD 0 0) (rest.getD 1 0), rest) := by
  rw [decodeChip_word ht (by omega), hlen]
  rfl

/-- A word that emits no hits changes the DecoderState alone. -/
theorem runWord_advance_nil (n : Nat) (d : DecoderState) (s : State) :
    runWord n (.advance d []) s = { s with decoder := { d with cursor := d.cursor + n } } := by
  simp [runWord, emitHits]

/-- A word whose rule aborts answers the error of its verdict. -/
theorem abortsWith_of_abort {i : Instr} {s : State} {n : Nat} {v : Verdict} (hv : v ≠ .success)
    (hexec : exec i s = .next (runWord n (.abort v) s)) : AbortsWith i s v := by
  rw [runWord, endStream_eq] at hexec
  refine ⟨_, streamRecord v s.decoder, hexec, rfl, beq_false_of_ne hv, rfl, ?_⟩
  simp [decodeEnded, streamRecord, hv]

/-- REGION_HEADER by its rule. -/
theorem exec_regionHeader (r : BitVec 5) (s : State) :
    exec (.regionHeader r) s = .next (runWord 1 (wordRegionHeader r s.decoder) s) := rfl

/-- A REGION_HEADER before the first chip aborts. -/
theorem wordRegionHeader_unstarted {d : DecoderState} (h : d.started = false) (r : BitVec 5) :
    wordRegionHeader r d = .abort (.regionBeforeHeader d.cursor) := if_pos h

/-- A REGION_HEADER after the first chip sets REGION. -/
theorem wordRegionHeader_started {d : DecoderState} (h : d.started = true) (r : BitVec 5) :
    wordRegionHeader r d = .advance { d with region := some r } [] := if_neg (by simp [h])

/-- The region of the first byte 110rrrrr. -/
theorem regionField_of_toNat {b0 : Byte} {r : BitVec 5} (h : b0.toNat = 0xC0 + r.toNat) : regionField b0 = r := by
  have hr := r.isLt
  apply BitVec.eq_of_toNat_eq
  rw [regionField, BitVec.extractLsb'_toNat, Nat.shiftRight_zero, h]
  omega

/-- The first byte 110rrrrr opens a REGION_HEADER. -/
theorem classify_regionHeader {b0 : Byte} {r : BitVec 5} (h : b0.toNat = 0xC0 + r.toNat) : classify b0 = .regionHeader := by
  have hr := r.isLt
  exact (classify_eq_iff b0 .regionHeader).mpr ⟨by omega, by omega⟩

/-- Settles O32: the word's byte decodes to it, and STARTED alone decides between its two rules. -/
theorem regionHeaderCases : Obligations.RegionHeaderCases := by
  intro r s rest b0
  refine ⟨fun hb => ?_, fun hs => ?_, fun hs => ?_⟩
  · rw [decodeChip_oneByte (classify_regionHeader hb) rfl, chipInstr, regionField_of_toNat hb]
  · exact abortsWith_of_abort nofun (by rw [exec_regionHeader, wordRegionHeader_unstarted hs])
  · rw [exec_regionHeader, wordRegionHeader_started hs, runWord_advance_nil]

end Sys2Proof.Machine
end

section
/-! # IDLE, BUSY_ON and BUSY_OFF

The proof of O29 (43_bitstream_decoder.md R223 to R225): the three words have no rule beyond CURSOR, so the loop over a payload
of IDLE bytes reaches its end with the DecoderState it began with. -/

namespace Sys2Proof.Machine

/-- One pass of the loop at an IDLE byte only moves CURSOR. -/
theorem streamWord_idle {p : List Byte} {d : DecoderState} (hlt : d.cursor < p.length) (hbyte : byteAt p d.cursor = 0xFF#8)
    (bi ri : Nat) : streamWord p bi ri d = .advance { d with cursor := d.cursor + 1 } [] := by
  have hidle : classify 0xFF#8 = .idle := rfl
  have hfits : ¬ d.cursor + WordType.idle.length > p.length := Nat.not_lt.mpr hlt
  simp only [streamWord, hbyte, hidle]
  rw [if_neg nofun, if_neg hfits]
  rfl

/-- The loop over IDLE bytes runs to the payload's end, and only CURSOR moves. -/
theorem streamLoop_idle {p : List Byte} (hp : ∀ c < p.length, byteAt p c = 0xFF#8) (bi ri : Nat) (hs : List PixelHit) (fuel : Nat) :
    ∀ d : DecoderState, d.cursor + fuel = p.length →
      streamLoop p bi ri fuel d hs = ⟨{ d with cursor := p.length }, hs, endVerdict d⟩ := by
  induction fuel with
  | zero =>
    intro d hd
    rw [← hd]
    rfl
  | succ fuel ih =>
    intro d hd
    have hlt : d.cursor < p.length := by omega
    rw [streamLoop, if_pos hlt, streamWord_idle hlt (hp _ hlt)]
    simp only [List.append_nil]
    exact ih _ (by simp only; omega)

/-- A decode of IDLE bytes alone. -/
theorem decodeStream_idle (n bi ri : Nat) :
    decodeStream (List.replicate n 0xFF#8) bi ri = ⟨{ DecoderState.initial with cursor := n }, [], .notStarted⟩ := by
  have hbytes : ∀ c < (List.replicate n 0xFF#8).length, byteAt (List.replicate n 0xFF#8) c = 0xFF#8 := by
    intro c hc
    rw [byteAt, List.getD_eq_getElem _ _ hc, List.getElem_replicate]
  rw [decodeStream, streamLoop_idle hbytes bi ri [] _ _ (Nat.zero_add _), List.length_replicate]
  rfl

/-- The record of a decode of IDLE bytes alone. -/
theorem decodeRecord_idle (n bi ri : Nat) : decodeRecord (List.replicate n 0xFF#8) bi ri =
    streamRecord .notStarted { DecoderState.initial with cursor := n } := by
  rw [decodeRecord, decodeStream_idle]

/-- DECODE_CHIP_STREAM by the run of its payload. -/
theorem exec_decodeChipStream (p : List Byte) (bi ri : Nat) (s : State) :
    exec (.decodeChipStream p bi ri) s = .next (respond (streamResponse (decodeRecord p bi ri)) (runDecode p bi ri s)) := rfl

/-- Settles O29: each word is its byte, none has a rule beyond CURSOR, and a payload of IDLE bytes leaves STARTED clear. -/
theorem idleAndBusyWords : Obligations.IdleAndBusyWords := by
  refine ⟨fun rest => ⟨?_, ?_, ?_⟩, fun i s hi => ?_, fun n bi ri s => ?_⟩
  · exact decodeChip_oneByte (t := .idle) rfl rfl rest
  · exact decodeChip_oneByte (t := .busyOn) rfl rfl rest
  · exact decodeChip_oneByte (t := .busyOff) rfl rfl rest
  · have hquiet := congrArg (Host.Outcome.next (φ := Fault) (ρ := Refusal)) (runWord_advance_nil 1 s.decoder s)
    rcases hi with rfl | rfl | rfl <;> exact hquiet
  · refine ⟨_, streamRecord .notStarted { DecoderState.initial with cursor := n }, exec_decodeChipStream _ _ _ _, ?_, ?_,
      rfl, rfl, rfl, rfl⟩
    · rw [respond_hits, runDecode_hits, decodeStream_idle, List.append_nil]
    · rw [respond_rsp, decodeRecord_idle]
      rfl

end Sys2Proof.Machine
end

section
/-! # Data words

The proofs of O33 (43_bitstream_decoder.md R230) and O36 (R238): a data word is the STARTED check and then the validator on a
non-empty list of addresses, whose hits share all fields but the address, the flag and their order. -/

namespace Sys2Proof.Machine

/-- A data word runs the common rule on its first address and the others. -/
theorem exec_dataWord {i : Instr} (hi : (∃ ld a, i = .dataShort ld a) ∨ (∃ ld a hm, i = .dataLong ld a hm)) (s : State) :
    ∃ n ld x xs, exec i s = .next (runWord n (dataHits s.boardIndex s.rcvIndex ld (x :: xs) s.decoder) s) := by
  rcases hi with ⟨ld, a, rfl⟩ | ⟨ld, a, hm, rfl⟩ <;> exact ⟨_, ld, _, _, rfl⟩

/-- A data word before the first chip aborts. -/
theorem dataHits_unstarted {d : DecoderState} (h : d.started = false) (bi ri : Nat) (ld : BitVec 4) (xs : List (BitVec 11)) :
    dataHits bi ri ld xs d = .abort (.dataBeforeHeader d.cursor) := if_pos h

section
variable {bi ri : Nat} {chip : Option (BitVec 4)} {region : Option (BitVec 5)} {dc : Option (BitVec 9)} {xs : List (BitVec 11)}
  {d : DecoderState}

/-- Without a legal chip every hit is BAD_CHIP_ID, whatever else is wrong with it (R261, R262). -/
theorem validate_flag_of_badChip (hbad : badChip chip = true) :
    ∀ h ∈ (validateAll bi ri chip region dc xs d).2, h.flag = .badChipId := by
  induction xs generalizing d with
  | nil => nofun
  | cons x xs ih =>
    refine List.forall_mem_cons.mpr ⟨?_, ih⟩
    simp [builtHit, boundsFlag, hbad]

/-- One hit for each address. -/
theorem validate_length : (validateAll bi ri chip region dc xs d).2.length = xs.length := by
  simpa using congrArg List.length (validate_fields bi ri chip region dc xs d)

/-- The hits of one word share chip, region and double column. -/
theorem validate_shared {h : PixelHit} (hh : h ∈ (validateAll bi ri chip region dc xs d).2) :
    h.chipId = storedChip chip ∧ h.region = region ∧ h.dcol = dc := by
  have hfields := List.mem_map_of_mem (f := fun h => (h.chipId, h.region, h.dcol, h.address)) hh
  rw [validate_fields, List.mem_map] at hfields
  obtain ⟨x, -, hx⟩ := hfields
  simp only [Prod.mk.injEq] at hx
  obtain ⟨hchip, hregion, hdcol, -⟩ := hx
  exact ⟨hchip.symm, hregion.symm, hdcol.symm⟩

/-- With a legal chip the hits have the word's addresses, in order (R233). -/
theorem validate_addresses (hlegal : badChip chip = false) :
    (validateAll bi ri chip region dc xs d).2.map (fun h => h.address.toNat) = xs.map BitVec.toNat := by
  have hfields := congrArg (List.map fun f => f.2.2.2.toNat) (validate_fields bi ri chip region dc xs d)
  simpa [Function.comp_def, storedAddress, hlegal] using hfields

end

/-- A chip id that is not 15 is legal. -/
theorem badChip_some {c : BitVec 4} (hc : c ≠ 15#4) : badChip (some c) = false := by
  simp [badChip, Config.illegalChipId, hc]

/-- A legal chip id is stored as it is. -/
theorem storedChip_some {c : BitVec 4} (hc : c ≠ 15#4) : storedChip (some c) = c := by
  simp [storedChip, badChip_some hc]

/-- A cluster has its base address and one address for each set bit of the hit map. -/
theorem clusterAddresses_length (a : BitVec 10) (hm : BitVec 7) :
    (clusterAddresses a hm).length = 1 + ([0, 1, 2, 3, 4, 5, 6].filter (fun i => hm.toNat / 2 ^ i % 2 = 1)).length := by
  rw [← List.length_map (f := BitVec.toNat), cluster_numbers, clusterNumbers, List.length_cons, List.length_map, Nat.add_comm]

/-- A cluster has at most eight addresses. -/
theorem clusterAddresses_length_le (a : BitVec 10) (hm : BitVec 7) : (clusterAddresses a hm).length ≤ 8 := by
  rw [clusterAddresses, List.length_cons, List.length_map]
  exact Nat.succ_le_succ (List.length_filter_le _ (List.range 7))

/-- Settles O33: STARTED decides between the abort and the validator, and the validator gives a hit for the first address at
least, every one of them BAD_CHIP_ID when there is no chip. -/
theorem dataWordsNeedStarted : Obligations.DataWordsNeedStarted := by
  intro i s hi
  obtain ⟨n, ld, x, xs, hexec⟩ := exec_dataWord hi s
  refine ⟨fun hs => ?_, fun hs => ?_⟩
  · rw [dataHits_unstarted hs] at hexec
    exact abortsWith_of_abort nofun hexec
  · rw [dataHits_eq _ _ _ _ _ _ hs] at hexec
    refine ⟨_, _, hexec, nofun, fun hnone => ?_⟩
    exact validate_flag_of_badChip (by rw [hnone]; rfl)

/-- Settles O36: the hits are the validator's on the cluster's addresses, one for each, with all fields but the address shared. -/
theorem clusterOrder : Obligations.ClusterOrder := by
  intro ld a hm s hs
  refine ⟨_, _, exec_dataLong ld a hm s hs, ?_, ?_, ?_, fun x hx y hy => ?_, fun x hx => ?_, fun c hc hlegal => ?_⟩
  · exact validate_length.trans (clusterAddresses_length a hm)
  · rw [validate_length, clusterAddresses_length]
    exact Nat.le_add_right 1 _
  · exact validate_length.trans_le (clusterAddresses_length_le a hm)
  · obtain ⟨hxc, hxr, hxd⟩ := validate_shared hx
    obtain ⟨hyc, hyr, hyd⟩ := validate_shared hy
    exact ⟨hxc.trans hyc.symm, hxr.trans hyr.symm, hxd.trans hyd.symm⟩
  · obtain ⟨-, hregion, -⟩ := validate_shared hx
    exact hregion
  · rw [hc]
    refine ⟨?_, fun x hx => ?_⟩
    · rw [validate_addresses (badChip_some hlegal), cluster_numbers]
    · obtain ⟨hchip, -, -⟩ := validate_shared hx
      exact hchip.trans (storedChip_some hlegal)

end Sys2Proof.Machine
end
section
/-! # Header words

The proofs of O2, O4 and O6 (30_encoding.md R91 to R96, 40_transport_codec.md R129 and R132): a header word is its four bytes,
its fields are read back from it, and what the decoder accepts is the header word of its own fields. -/

namespace Sys2Proof.Machine

/-- A header instruction is the header word of an op kind. -/
theorem exists_instr_of_header {i : Instr} (hi : i.space = some .header) : ∃ k n t c, i = OpKind.instr k n t c := by
  cases i with
  | read n t c => exact ⟨.read, n, t, c, rfl⟩
  | write n t c => exact ⟨.write, n, t, c, rfl⟩
  | niRead n t c => exact ⟨.niRead, n, t, c, rfl⟩
  | niWrite n t c => exact ⟨.niWrite, n, t, c, rfl⟩
  | rmwBits n t c => exact ⟨.rmwBits, n, t, c, rfl⟩
  | rmwSum n t c => exact ⟨.rmwSum, n, t, c, rfl⟩
  | idleTxn n t c => exact ⟨.idle, n, t, c, rfl⟩
  | _ => cases hi

@[simp] theorem space_instr (k : OpKind) (n : BitVec 12) (t : Byte) (c : BitVec 4) : (k.instr n t c).space = some .header := by
  cases k <;> rfl

@[simp] theorem encode_instr (k : OpKind) (n : BitVec 12) (t : Byte) (c : BitVec 4) :
    encode (k.instr n t c) = some (beBytes (headerWord k n t c)) := by
  cases k <;> rfl

/-- The reserved codes of R93 are the codes of no kind. -/
theorem ofCode_eq_none_iff (b : BitVec 4) : OpKind.ofCode b = none ↔ 6 ≤ b.toNat ∧ b.toNat ≤ 14 := by
  revert b; decide

/-- The other codes are codes of kinds. -/
theorem exists_code_of_not_reserved {b : BitVec 4} (h : b.toNat < 6 ∨ b.toNat = 15) : ∃ k : OpKind, b = k.code := by
  cases hk : OpKind.ofCode b with
  | none => have := (ofCode_eq_none_iff b).mp hk; omega
  | some k => exact ⟨k, ofCode_eq_some hk⟩

/-- Four bytes are the big-endian bytes of their BE32. -/
theorem beBytes_be32 (b0 b1 b2 b3 : Byte) : beBytes (be32 b0 b1 b2 b3) = [b0, b1, b2, b3] := by
  have h0 := b0.isLt; have h1 := b1.isLt; have h2 := b2.isLt; have h3 := b3.isLt
  simp only [beBytes, List.cons.injEq, and_true]
  refine ⟨?_, ?_, ?_, ?_⟩ <;> apply BitVec.eq_of_toNat_eq <;>
    rw [BitVec.extractLsb'_toNat, Nat.shiftRight_eq_div_pow, be32_toNat] <;> omega

/-- What the header decoder does with the four bytes of a word. -/
theorem decodeHeaderBytes_beBytes (w : Word) (rest : List Byte) :
    decodeHeaderBytes (beBytes w ++ rest) = (decodeHeaderWord w).map (·, rest) := by
  simp only [beBytes, List.cons_append, List.nil_append, decodeHeaderBytes, be32_beBytes]
  cases decodeHeaderWord w <;> rfl

/-- A word of the table decodes to its instruction and leaves the bytes after it. -/
theorem decode_header_of_ok {w : Word} {i : Instr} (h : decodeHeaderWord w = .ok i) (rest : List Byte) :
    decode .header (beBytes w ++ rest) = .ok (i, rest) := by
  simp only [decode, decodeHeaderBytes_beBytes, h]
  rfl

/-- A word that is none of the table is rejected for its own reason. -/
theorem decode_header_of_error {w : Word} {e : HeaderReject} (h : decodeHeaderWord w = .error e) (rest : List Byte) :
    decode .header (beBytes w ++ rest) = .error (.header e) := by
  simp only [decode, decodeHeaderBytes_beBytes, h]
  rfl

/-- Fewer than four bytes are no word. -/
theorem decode_header_short {bs : List Byte} (h : bs.length < 4) : decode .header bs = .error (.header (.shortWord bs.length)) := by
  match bs with
  | [] | [_] | [_, _] | [_, _, _] => rfl
  | _ :: _ :: _ :: _ :: _ => simp at h; omega

/-- What the header decoder accepts begins with the four bytes of a word of the table. -/
theorem decode_header_inv {bs rest : List Byte} {i : Instr} (h : decode .header bs = .ok (i, rest)) :
    ∃ w, bs = beBytes w ++ rest ∧ decodeHeaderWord w = .ok i := by
  by_cases hlen : bs.length < 4
  · rw [decode_header_short hlen] at h; cases h
  match bs with
  | [] | [_] | [_, _] | [_, _, _] => simp at hlen
  | b0 :: b1 :: b2 :: b3 :: tl =>
    rw [show b0 :: b1 :: b2 :: b3 :: tl = beBytes (be32 b0 b1 b2 b3) ++ tl by rw [beBytes_be32]; rfl] at h ⊢
    cases hw : decodeHeaderWord (be32 b0 b1 b2 b3) with
    | error e => rw [decode_header_of_error hw] at h; cases h
    | ok j => rw [decode_header_of_ok hw] at h; cases h; exact ⟨_, rfl, hw⟩

/-- A word of version 2 and of a kind of the table is the instruction of its fields. -/
theorem decodeHeaderWord_ok {w : Word} {k : OpKind} (hv : (unpackHeader w).version = Config.protoVersion)
    (hk : (unpackHeader w).opKind = k.code) :
    decodeHeaderWord w = .ok (k.instr (unpackHeader w).wordCount (unpackHeader w).txnId (unpackHeader w).infoCode) := by
  simp [decodeHeaderWord, hv, hk, ofCode_code]

/-- A word that stands for an instruction is the header word of that instruction's fields. -/
theorem decodeHeaderWord_inv {w : Word} {i : Instr} (h : decodeHeaderWord w = .ok i) :
    ∃ k n t c, i = OpKind.instr k n t c ∧ w = headerWord k n t c := by
  simp only [decodeHeaderWord] at h
  split at h
  · cases h
  next hv =>
    split at h
    · cases h
    next k hk => cases h; exact ⟨k, _, _, _, rfl, (headerWord_fields w k (not_not.mp hv) hk).symm⟩

/-- The header word of a kind and fields stands for their instruction. -/
theorem decodeHeaderWord_headerWord (k : OpKind) (n : BitVec 12) (t : Byte) (c : BitVec 4) :
    decodeHeaderWord (headerWord k n t c) = .ok (k.instr n t c) := by
  have h := decodeHeaderWord_ok (w := headerWord k n t c) (k := k)
  rw [unpack_headerWord] at h
  exact h rfl rfl

/-- Settles O2: the encoding of a header instruction is the bytes of its header word, which stands for the instruction. -/
theorem headerWordsRoundTrip : Obligations.HeaderWordsRoundTrip := by
  intro i bs rest hi he
  obtain ⟨k, n, t, c, rfl⟩ := exists_instr_of_header hi
  rw [encode_instr, Option.some.injEq] at he
  rw [← he]
  exact decode_header_of_ok (decodeHeaderWord_headerWord k n t c) rest

/-- Settles O4: an accepted word is the header word of its fields, and the two checks of the decoder are the version's and the
op kind's. -/
theorem headerDecodeExact : Obligations.HeaderDecodeExact := by
  simp only [Obligations.HeaderDecodeExact, bigEndian_eq]
  refine ⟨fun bs rest i h => ?_, fun bs hlen => decode_header_short hlen, fun w rest hv => ?_, fun w rest hv h6 h14 => ?_,
    fun w rest hv hk => ?_⟩
  · obtain ⟨w, hbs, hw⟩ := decode_header_inv h
    obtain ⟨k, n, t, c, rfl, rfl⟩ := decodeHeaderWord_inv hw
    exact ⟨space_instr k n t c, _, hbs, encode_instr k n t c⟩
  · have hver : (unpackHeader w).version = BitVec.ofNat 4 (versionOf w) := by
      rw [versionOf, ← (unpackHeader_toNat w).1, BitVec.ofNat_toNat, BitVec.setWidth_eq]
    have hbad : (unpackHeader w).version ≠ Config.protoVersion := mt (unpack_version_iff w).mp hv
    exact decode_header_of_error (by rw [← hver]; simp [decodeHeaderWord, hbad]) rest
  · obtain ⟨-, -, -, hkind, -⟩ := unpackHeader_toNat w
    have hop : (unpackHeader w).opKind = BitVec.ofNat 4 (kindOf w) := by
      rw [kindOf, ← hkind, BitVec.ofNat_toNat, BitVec.setWidth_eq]
    have hnone : OpKind.ofCode (unpackHeader w).opKind = none := (ofCode_eq_none_iff _).mpr (by rw [hkind]; exact ⟨h6, h14⟩)
    have hgood := (unpack_version_iff w).mpr hv
    exact decode_header_of_error (by rw [← hop]; simp [decodeHeaderWord, hgood, hnone]) rest
  · obtain ⟨-, -, -, hkind, -⟩ := unpackHeader_toNat w
    obtain ⟨k, hcode⟩ := exists_code_of_not_reserved (b := (unpackHeader w).opKind) (by rw [hkind]; exact hk)
    exact ⟨_, decode_header_of_ok (decodeHeaderWord_ok ((unpack_version_iff w).mpr hv) hcode) rest⟩

/-- UNPACK undoes PACK. -/
theorem unpackHeader_packHeader (h : HeaderFields) : unpackHeader (packHeader h) = h := by
  have hnum := packHeader_toNat h
  obtain ⟨hv, hn, ht, hk, hc⟩ := unpackHeader_toNat (packHeader h)
  have := h.wordCount.isLt; have := h.txnId.isLt; have := h.opKind.isLt; have := h.infoCode.isLt
  rw [HeaderFields.mk.injEq]
  refine ⟨?_, ?_, ?_, ?_, ?_⟩ <;> apply BitVec.eq_of_toNat_eq <;> omega

/-- PACK undoes UNPACK. -/
theorem packHeader_unpackHeader (w : Word) : packHeader (unpackHeader w) = w := by
  have hnum := packHeader_toNat (unpackHeader w)
  obtain ⟨hv, hn, ht, hk, hc⟩ := unpackHeader_toNat w
  apply BitVec.eq_of_toNat_eq
  omega

/-- ENCODE_HEADER builds a word only from operands in range, and it is the request header of them. -/
theorem encodedHeader_inv {n t : Nat} {op : BitVec 4} {w : Word} (h : encodedHeader n op t = .ok w) :
    n ≤ 0xFFF ∧ t ≤ 0xFF ∧ ∃ k : OpKind, op = k.code ∧ w = requestHeader k (BitVec.ofNat 12 n) (BitVec.ofNat 8 t) := by
  simp only [encodedHeader] at h
  split at h
  · cases h
  next hn =>
    split at h
    · cases h
    next k hk =>
      split at h
      · cases h
      next ht => cases h; exact ⟨Nat.le_of_not_lt hn, Nat.le_of_not_lt ht, k, ofCode_eq_some hk, rfl⟩

/-- Settles O6: PACK and UNPACK are each other's inverse, and the fields of a request header are the operands it was built of. -/
theorem packUnpack : Obligations.PackUnpack := by
  refine ⟨fun h => ⟨packHeader_toNat h, unpackHeader_packHeader h⟩, packHeader_unpackHeader, fun k n t w hw => ?_⟩
  obtain ⟨hn, ht, j, hj, rfl⟩ := encodedHeader_inv hw
  cases code_injective hj
  rw [requestHeader, unpack_headerWord]
  exact ⟨rfl, Nat.mod_eq_of_lt (by omega), Nat.mod_eq_of_lt (by omega), rfl, rfl⟩

end Sys2Proof.Machine
end

section
/-! # ENCODE_HEADER

The proofs of O9 and O10 (40_transport_codec.md R130): the three range checks in the rule's order, then the request header. -/

namespace Sys2Proof.Machine

/-- The checks and the word of ENCODE_HEADER are its answer. -/
theorem exec_encodeHeader_ok {n t : Nat} {op : BitVec 4} {w : Word} (h : encodedHeader n op t = .ok w) (s : State) :
    exec (.encodeHeader n op t) s = .next (answered s (.ok (.header w))) := by
  simp only [exec, execEncodeHeader, h]
  rfl

theorem exec_encodeHeader_error {n t : Nat} {op : BitVec 4} {e : Error} (h : encodedHeader n op t = .error e) (s : State) :
    exec (.encodeHeader n op t) s = .next (answered s (.error e)) := by
  simp only [exec, execEncodeHeader, h]
  rfl

/-- A word count of twelve bits passes the first check. -/
theorem not_gt_maxWordCount {n : Nat} (h : n ≤ 0xFFF) : ¬ n > Config.maxWordCount := Nat.not_lt.mpr h

/-- A word count over MAX_WORD_COUNT is refused first. -/
theorem encodedHeader_bad_count {n : Nat} (h : 0xFFF < n) (op : BitVec 4) (t : Nat) :
    encodedHeader n op t = .error (.invalidOperation n) := if_pos h

/-- A reserved op kind is refused next. -/
theorem encodedHeader_bad_kind {n : Nat} {op : BitVec 4} (hn : n ≤ 0xFFF) (hop : OpKind.ofCode op = none) (t : Nat) :
    encodedHeader n op t = .error (.invalidOperation op.toNat) := by
  rw [encodedHeader, if_neg (not_gt_maxWordCount hn), hop]

/-- An id over a byte is refused last. -/
theorem encodedHeader_bad_id {n t : Nat} (k : OpKind) (hn : n ≤ 0xFFF) (ht : 0xFF < t) :
    encodedHeader n k.code t = .error (.invalidOperation t) := by
  rw [encodedHeader, if_neg (not_gt_maxWordCount hn), ofCode_code]
  exact if_pos ht

/-- Operands in range give the request header. -/
theorem encodedHeader_good {n t : Nat} (k : OpKind) (hn : n ≤ 0xFFF) (ht : t ≤ 0xFF) :
    encodedHeader n k.code t = .ok (requestHeader k (BitVec.ofNat 12 n) (BitVec.ofNat 8 t)) := by
  rw [encodedHeader, if_neg (not_gt_maxWordCount hn), ofCode_code]
  exact if_neg (Nat.not_lt.mpr ht)

/-- A header word as a number. -/
theorem headerWord_toNat (k : OpKind) (n : BitVec 12) (t : Byte) (c : BitVec 4) :
    (headerWord k n t c).toNat = headerNumber k n.toNat t.toNat c.toNat := packHeader_toNat _

/-- The request header of operands in range as a number. -/
theorem requestHeader_toNat {n t : Nat} (k : OpKind) (hn : n ≤ 0xFFF) (ht : t ≤ 0xFF) :
    (requestHeader k (BitVec.ofNat 12 n) (BitVec.ofNat 8 t)).toNat = headerNumber k n t 15 := by
  rw [requestHeader, headerWord_toNat, BitVec.toNat_ofNat, BitVec.toNat_ofNat, Nat.mod_eq_of_lt (by omega),
    Nat.mod_eq_of_lt (by omega)]
  rfl

/-- Settles O9: operands in range pass every check, and the request header is the number of R91. -/
theorem encodeHeaderBuildsWord : Obligations.EncodeHeaderBuildsWord :=
  fun k _ _ s hn ht => ⟨_, exec_encodeHeader_ok (encodedHeader_good k hn ht) s, requestHeader_toNat k hn ht⟩

/-- Settles O10: each operand is checked once those before it have passed. -/
theorem encodeHeaderRejects : Obligations.EncodeHeaderRejects := by
  intro n op t s
  refine ⟨fun hn => ?_, fun hn h6 h14 => ?_, fun hn hop ht => ?_⟩
  · exact exec_encodeHeader_error (encodedHeader_bad_count hn op t) s
  · exact exec_encodeHeader_error (encodedHeader_bad_kind hn ((ofCode_eq_none_iff op).mpr ⟨h6, h14⟩) t) s
  · obtain ⟨k, rfl⟩ := exists_code_of_not_reserved hop
    exact exec_encodeHeader_error (encodedHeader_bad_id k hn ht) s

end Sys2Proof.Machine
end

section
/-! # Chip words

The proofs of O1, O3, O7 and O37 (30_encoding.md R112 to R121): the first byte of each encoding lies in the row of its type, and
the fields are read back from the bytes they were put into. -/

namespace Sys2Proof.Machine

/-! ## UNKNOWN bytes -/

/-- The instruction is the UNKNOWN word of byte `b0` in one of the six rows of R121. -/
def UnknownWord (i : Instr) (b0 : Byte) : Prop :=
  i = .unknown80_9F b0 ∨ i = .unknownF2_F3 b0 ∨ i = .unknownF4_F7 b0 ∨ i = .unknownF8_FB b0 ∨ i = .unknownFC_FD b0 ∨
    i = .unknownFE b0

/-- A row's match and mask pair is a test of the bits from bit `n` up. -/
theorem fits_iff (n : Nat) (b0 pat : Byte) :
    Byte.fits b0 (BitVec.allOnes 8 <<< n) pat = true ↔ b0.toNat / 2 ^ n * 2 ^ n = pat.toNat := by
  rw [Byte.fits, beq_iff_eq]
  exact and_highMask_eq_iff n b0 pat

theorem fits80_9F (b0 : Byte) : Byte.fits b0 0xE0#8 0x80#8 = true ↔ 0x80 ≤ b0.toNat ∧ b0.toNat ≤ 0x9F :=
  (fits_iff 5 b0 0x80#8).trans (by simp only [BitVec.toNat_ofNat]; omega)

theorem fitsF2_F3 (b0 : Byte) : Byte.fits b0 0xFE#8 0xF2#8 = true ↔ 0xF2 ≤ b0.toNat ∧ b0.toNat ≤ 0xF3 :=
  (fits_iff 1 b0 0xF2#8).trans (by simp only [BitVec.toNat_ofNat]; omega)

theorem fitsF4_F7 (b0 : Byte) : Byte.fits b0 0xFC#8 0xF4#8 = true ↔ 0xF4 ≤ b0.toNat ∧ b0.toNat ≤ 0xF7 :=
  (fits_iff 2 b0 0xF4#8).trans (by simp only [BitVec.toNat_ofNat]; omega)

theorem fitsF8_FB (b0 : Byte) : Byte.fits b0 0xFC#8 0xF8#8 = true ↔ 0xF8 ≤ b0.toNat ∧ b0.toNat ≤ 0xFB :=
  (fits_iff 2 b0 0xF8#8).trans (by simp only [BitVec.toNat_ofNat]; omega)

theorem fitsFC_FD (b0 : Byte) : Byte.fits b0 0xFE#8 0xFC#8 = true ↔ 0xFC ≤ b0.toNat ∧ b0.toNat ≤ 0xFD :=
  (fits_iff 1 b0 0xFC#8).trans (by simp only [BitVec.toNat_ofNat]; omega)

theorem fitsFE (b0 : Byte) : Byte.fits b0 0xFF#8 0xFE#8 = true ↔ b0.toNat = 0xFE :=
  (fits_iff 0 b0 0xFE#8).trans (by simp only [BitVec.toNat_ofNat]; omega)

/-- A byte in its row's range is UNKNOWN, and the decoder finds the row. -/
theorem unknownInstr_of_wf {i : Instr} {b0 : Byte} (hi : UnknownWord i b0) (hwf : i.wf = true) :
    classify b0 = .unknown ∧ unknownInstr b0 = i := by
  rw [classify_eq_iff]
  rcases hi with rfl | rfl | rfl | rfl | rfl | rfl <;>
    simp only [Instr.wf, fits80_9F, fitsF2_F3, fitsF4_F7, fitsF8_FB, fitsFC_FD, fitsFE] at hwf <;>
    simp only [rowRange, unknownInstr, fits80_9F, fitsF2_F3, fitsF4_F7, fitsF8_FB, fitsFC_FD] <;>
    exact ⟨by omega, by grind⟩

/-- The row the decoder finds for an UNKNOWN byte has the byte in its range. -/
theorem unknownInstr_wf {b0 : Byte} (h : classify b0 = .unknown) : (unknownInstr b0).wf = true := by
  have hrow : rowRange .unknown b0.toNat := (classify_eq_iff b0 _).mp h
  simp only [rowRange] at hrow
  simp only [unknownInstr, fits80_9F, fitsF2_F3, fitsF4_F7, fitsF8_FB, fitsFC_FD]
  split_ifs <;> simp only [Instr.wf, fits80_9F, fitsF2_F3, fitsF4_F7, fitsF8_FB, fitsFC_FD, fitsFE] <;> omega

theorem unknownWord_unknownInstr (b0 : Byte) : UnknownWord (unknownInstr b0) b0 := by
  unfold unknownInstr UnknownWord
  split_ifs <;> simp

/-- An UNKNOWN word is its byte, in the chip space. -/
theorem UnknownWord.encode {i : Instr} {b0 : Byte} (hi : UnknownWord i b0) : Sys2Proof.encode i = some [b0] ∧ i.space = some .chip := by
  rcases hi with rfl | rfl | rfl | rfl | rfl | rfl <;> exact ⟨rfl, rfl⟩

/-- An UNKNOWN word decodes to itself. -/
theorem UnknownWord.decode {i : Instr} {b0 : Byte} (hi : UnknownWord i b0) (hwf : i.wf = true) (rest : List Byte) :
    Sys2Proof.decode .chip (b0 :: rest) = .ok (i, rest) := by
  obtain ⟨hclass, hinstr⟩ := unknownInstr_of_wf hi hwf
  rw [decodeChip_oneByte hclass rfl, chipInstr, hinstr]

/-- An UNKNOWN word runs the rule of R241. -/
theorem UnknownWord.exec {i : Instr} {b0 : Byte} (hi : UnknownWord i b0) (s : State) :
    Machine.exec i s = .next (runWord 1 (wordUnknown b0 s.decoder) s) := by
  rcases hi with rfl | rfl | rfl | rfl | rfl | rfl <;> rfl

/-- Settles O37: the range of each row is its match and mask pair's, and the rule of every UNKNOWN word is the abort. -/
theorem unknownWordAborts : Obligations.UnknownWordAborts := by
  refine ⟨fun b0 rest => ⟨fun hlo hhi => ?_, fun hlo hhi => ?_, fun hlo hhi => ?_, fun hlo hhi => ?_, fun hlo hhi => ?_,
    fun heq => ?_⟩, fun b0 i s hi => abortsWith_of_abort nofun (UnknownWord.exec hi s)⟩
  · exact UnknownWord.decode (.inl rfl) ((fits80_9F b0).mpr ⟨hlo, hhi⟩) rest
  · exact UnknownWord.decode (.inr (.inl rfl)) ((fitsF2_F3 b0).mpr ⟨hlo, hhi⟩) rest
  · exact UnknownWord.decode (.inr (.inr (.inl rfl))) ((fitsF4_F7 b0).mpr ⟨hlo, hhi⟩) rest
  · exact UnknownWord.decode (.inr (.inr (.inr (.inl rfl)))) ((fitsF8_FB b0).mpr ⟨hlo, hhi⟩) rest
  · exact UnknownWord.decode (.inr (.inr (.inr (.inr (.inl rfl))))) ((fitsFC_FD b0).mpr ⟨hlo, hhi⟩) rest
  · exact UnknownWord.decode (.inr (.inr (.inr (.inr (.inr rfl))))) ((fitsFE b0).mpr heq) rest

/-! ## First bytes and fields -/

/-- The nibble under the type bits of a CHIP_HEADER, a CHIP_TRAILER and an EMPTY_FRAME. -/
theorem chipHeader_byte (c : BitVec 4) : classify (0xA0#8 ||| c.setWidth 8) = .chipHeader ∧ chipIdField (0xA0#8 ||| c.setWidth 8) = c := by
  revert c; decide

theorem chipTrailer_byte (f : BitVec 4) :
    classify (0xB0#8 ||| f.setWidth 8) = .chipTrailer ∧ trailerFlagsField (0xB0#8 ||| f.setWidth 8) = f := by
  revert f; decide

theorem emptyFrame_byte (c : BitVec 4) : classify (0xE0#8 ||| c.setWidth 8) = .emptyFrame ∧ chipIdField (0xE0#8 ||| c.setWidth 8) = c := by
  revert c; decide

/-- The five bits under the type bits of a REGION_HEADER. -/
theorem regionHeader_byte (r : BitVec 5) : classify (0xC0#8 ||| r.setWidth 8) = .regionHeader ∧ regionField (0xC0#8 ||| r.setWidth 8) = r := by
  revert r; decide

/-- The fields of a data word are read back from its first two bytes, whatever the type bits above them are. -/
theorem dataFields_of_toNat {b0 : Byte} {ld : BitVec 4} {a : BitVec 10} {k : Nat}
    (h : b0.toNat = k * 64 + ld.toNat * 4 + (a.extractLsb' 8 2).toNat) :
    localDcolField b0 (a.setWidth 8) = ld ∧ addressField b0 (a.setWidth 8) = a := by
  have := ld.isLt; have := a.isLt
  rw [BitVec.extractLsb'_toNat, Nat.shiftRight_eq_div_pow] at h
  constructor <;> apply BitVec.eq_of_toNat_eq
  · rw [localDcolField_toNat]; omega
  · rw [addressField_toNat, BitVec.toNat_setWidth]; omega

/-- The hit map is read back from its byte. -/
theorem hitmapField_setWidth (hm : BitVec 7) : hitmapField (hm.setWidth 8) = hm := by
  revert hm; decide

/-- A DATA_SHORT's bytes. -/
theorem dataShort_bytes (ld : BitVec 4) (a : BitVec 10) : ∃ b0 : Byte, dataBytes 0x40#8 ld a = [b0, a.setWidth 8] ∧
    classify b0 = .dataShort ∧ localDcolField b0 (a.setWidth 8) = ld ∧ addressField b0 (a.setWidth 8) = a := by
  have h := dataShort_first ld (a.extractLsb' 8 2)
  have := ld.isLt; have := (a.extractLsb' 8 2).isLt
  exact ⟨_, dataBytes_first _ ld a, classify_dataShort (by omega) (by omega), dataFields_of_toNat (k := 1) h⟩

/-- A DATA_LONG's first two bytes. -/
theorem dataLong_bytes (ld : BitVec 4) (a : BitVec 10) : ∃ b0 : Byte, dataBytes 0x00#8 ld a = [b0, a.setWidth 8] ∧
    classify b0 = .dataLong ∧ localDcolField b0 (a.setWidth 8) = ld ∧ addressField b0 (a.setWidth 8) = a := by
  have h := dataLong_first ld (a.extractLsb' 8 2)
  have := ld.isLt; have := (a.extractLsb' 8 2).isLt
  exact ⟨_, dataBytes_first _ ld a, classify_dataLong (by omega), dataFields_of_toNat (k := 0) (by omega)⟩

/-! ## Decoding an encoding -/

/-- A two-byte word decodes to the instruction of its type. -/
theorem decodeChip_twoBytes {b0 : Byte} {t : WordType} (ht : classify b0 = t) (hlen : t.length = 2) (b1 : Byte) (rest : List Byte) :
    decode .chip (b0 :: b1 :: rest) = .ok (chipInstr t b0 b1 (rest.getD 0 0), rest) := by
  rw [decodeChip_word ht (by rw [hlen, List.length_cons]; omega), hlen]
  rfl

/-- A three-byte word decodes to the instruction of its type. -/
theorem decodeChip_threeBytes {b0 : Byte} {t : WordType} (ht : classify b0 = t) (hlen : t.length = 3) (b1 b2 : Byte) (rest : List Byte) :
    decode .chip (b0 :: b1 :: b2 :: rest) = .ok (chipInstr t b0 b1 b2, rest) := by
  rw [decodeChip_word ht (by rw [hlen, List.length_cons, List.length_cons]; omega), hlen]
  rfl

/-- Settles O1: word type by word type, the encoding's first byte is of the type and the fields are read back. -/
theorem chipWordsRoundTrip : Obligations.ChipWordsRoundTrip := by
  intro i bs rest hwf hspace he
  cases i <;> simp only [Instr.space, reduceCtorEq, Option.some.injEq] at hspace <;>
    rw [encode, Option.some.injEq] at he <;> subst he
  case idle => exact decodeChip_oneByte (t := .idle) rfl rfl rest
  case busyOn => exact decodeChip_oneByte (t := .busyOn) rfl rfl rest
  case busyOff => exact decodeChip_oneByte (t := .busyOff) rfl rfl rest
  case chipHeader c bc =>
    obtain ⟨hclass, hchip⟩ := chipHeader_byte c
    exact (decodeChip_twoBytes hclass rfl bc rest).trans (by rw [chipInstr, hchip])
  case chipTrailer f =>
    obtain ⟨hclass, hflags⟩ := chipTrailer_byte f
    exact (decodeChip_oneByte hclass rfl rest).trans (by rw [chipInstr, hflags])
  case emptyFrame c bc =>
    obtain ⟨hclass, hchip⟩ := emptyFrame_byte c
    exact (decodeChip_twoBytes hclass rfl bc rest).trans (by rw [chipInstr, hchip])
  case regionHeader r =>
    obtain ⟨hclass, hregion⟩ := regionHeader_byte r
    exact (decodeChip_oneByte hclass rfl rest).trans (by rw [chipInstr, hregion])
  case dataShort ld a =>
    obtain ⟨b0, hbytes, hclass, hld, ha⟩ := dataShort_bytes ld a
    rw [hbytes]
    exact (decodeChip_twoBytes hclass rfl _ rest).trans (by rw [chipInstr, hld, ha])
  case dataLong ld a hm =>
    obtain ⟨b0, hbytes, hclass, hld, ha⟩ := dataLong_bytes ld a
    rw [hbytes]
    exact (decodeChip_threeBytes hclass rfl _ _ rest).trans (by rw [chipInstr, hld, ha, hitmapField_setWidth])
  case unknown80_9F b0 => exact UnknownWord.decode (.inl rfl) hwf rest
  case unknownF2_F3 b0 => exact UnknownWord.decode (.inr (.inl rfl)) hwf rest
  case unknownF4_F7 b0 => exact UnknownWord.decode (.inr (.inr (.inl rfl))) hwf rest
  case unknownF8_FB b0 => exact UnknownWord.decode (.inr (.inr (.inr (.inl rfl)))) hwf rest
  case unknownFC_FD b0 => exact UnknownWord.decode (.inr (.inr (.inr (.inr (.inl rfl))))) hwf rest
  case unknownFE b0 => exact UnknownWord.decode (.inr (.inr (.inr (.inr (.inr rfl))))) hwf rest

/-! ## Encoding what was decoded -/

/-- Type bits and field make up the byte they were read from. -/
theorem chipHeader_of_field {b0 : Byte} (h : classify b0 = .chipHeader) : 0xA0#8 ||| (chipIdField b0).setWidth 8 = b0 := by
  revert h; revert b0; decide

theorem chipTrailer_of_field {b0 : Byte} (h : classify b0 = .chipTrailer) : 0xB0#8 ||| (trailerFlagsField b0).setWidth 8 = b0 := by
  revert h; revert b0; decide

theorem emptyFrame_of_field {b0 : Byte} (h : classify b0 = .emptyFrame) : 0xE0#8 ||| (chipIdField b0).setWidth 8 = b0 := by
  revert h; revert b0; decide

theorem regionHeader_of_field {b0 : Byte} (h : classify b0 = .regionHeader) : 0xC0#8 ||| (regionField b0).setWidth 8 = b0 := by
  revert h; revert b0; decide

/-- Bit 7 of the third byte is the one bit of a word that no field keeps (R117). -/
theorem hitmapField_byte (b2 : Byte) : (hitmapField b2).setWidth 8 = b2 &&& 0x7F#8 := by
  revert b2; decide

/-- The second byte of a data word is the low byte of its address. -/
theorem addressField_low (b0 b1 : Byte) : (addressField b0 b1).setWidth 8 = b1 := by
  have := b1.isLt
  apply BitVec.eq_of_toNat_eq
  rw [BitVec.toNat_setWidth, addressField_toNat]
  omega

/-- The two high bits of the address are the low bits of the first byte. -/
theorem addressField_high (b0 b1 : Byte) : ((addressField b0 b1).extractLsb' 8 2).toNat = b0.toNat % 4 := by
  have := b1.isLt
  rw [BitVec.extractLsb'_toNat, Nat.shiftRight_eq_div_pow, addressField_toNat]
  omega

/-- The fields of a DATA_SHORT make up its two bytes. -/
theorem dataShort_of_fields {b0 : Byte} (h : classify b0 = .dataShort) (b1 : Byte) :
    dataBytes 0x40#8 (localDcolField b0 b1) (addressField b0 b1) = [b0, b1] := by
  have hrow : rowRange .dataShort b0.toNat := (classify_eq_iff b0 _).mp h
  simp only [rowRange] at hrow
  rw [dataBytes_first, addressField_low]
  congr 1
  apply BitVec.eq_of_toNat_eq
  rw [dataShort_first, localDcolField_toNat, addressField_high]
  omega

/-- The fields of a DATA_LONG make up its first two bytes. -/
theorem dataLong_of_fields {b0 : Byte} (h : classify b0 = .dataLong) (b1 : Byte) :
    dataBytes 0x00#8 (localDcolField b0 b1) (addressField b0 b1) = [b0, b1] := by
  have hrow : rowRange .dataLong b0.toNat := (classify_eq_iff b0 _).mp h
  simp only [rowRange] at hrow
  rw [dataBytes_first, addressField_low]
  congr 1
  apply BitVec.eq_of_toNat_eq
  rw [dataLong_first, localDcolField_toNat, addressField_high]
  omega

/-- The instruction of a whole word is well formed and a chip word. -/
theorem chipInstr_wf {b0 : Byte} {t : WordType} (ht : classify b0 = t) (b1 b2 : Byte) :
    (chipInstr t b0 b1 b2).wf = true ∧ (chipInstr t b0 b1 b2).space = some .chip := by
  cases t with
  | unknown => exact ⟨unknownInstr_wf ht, (unknownWord_unknownInstr b0).encode.2⟩
  | _ => exact ⟨rfl, rfl⟩

/-- The instruction of a whole DATA_LONG is encoded as its bytes but for bit 7 of the third. -/
theorem encode_chipInstr_dataLong {b0 : Byte} (ht : classify b0 = .dataLong) (b1 b2 : Byte) :
    encode (chipInstr .dataLong b0 b1 b2) = some [b0, b1, b2 &&& 0x7F#8] := by
  rw [chipInstr, encode, dataLong_of_fields ht, hitmapField_byte]
  rfl

/-- The instruction of any other whole word is encoded as the word's bytes. -/
theorem encode_chipInstr {b0 : Byte} {t : WordType} (ht : classify b0 = t) (hlong : t ≠ .dataLong) (b1 b2 : Byte) :
    encode (chipInstr t b0 b1 b2) = some ([b0, b1, b2].take t.length) := by
  have hrow : rowRange t b0.toNat := (classify_eq_iff b0 t).mp ht
  cases t with
  | idle | busyOn | busyOff => exact congrArg (fun b => some [b]) (BitVec.eq_of_toNat_eq hrow.symm)
  | chipHeader => rw [chipInstr, encode, chipHeader_of_field ht]; rfl
  | chipTrailer => rw [chipInstr, encode, chipTrailer_of_field ht]; rfl
  | emptyFrame => rw [chipInstr, encode, emptyFrame_of_field ht]; rfl
  | regionHeader => rw [chipInstr, encode, regionHeader_of_field ht]; rfl
  | dataShort => rw [chipInstr, encode, dataShort_of_fields ht]; rfl
  | dataLong => exact absurd rfl hlong
  | unknown => exact (unknownWord_unknownInstr b0).encode.1

/-- A word cut off by the end of the bytes. -/
theorem decodeChip_cutOff {b0 : Byte} {tl : List Byte} (h : tl.length + 1 < wordBytes b0.toNat) :
    decode .chip (b0 :: tl) = .error (.chip (.outOfData b0)) := by
  rw [← classify_length] at h
  simp only [decode, decodeChipBytes]
  rw [if_pos h]

/-- A word has one to three bytes. -/
theorem wordBytes_bounds (n : Nat) : 1 ≤ wordBytes n ∧ wordBytes n ≤ 3 := by
  unfold wordBytes
  split_ifs <;> decide

/-- A whole word, with the bytes after it. -/
theorem decodeChip_whole {b0 : Byte} {tl : List Byte} (h : wordBytes b0.toNat ≤ tl.length + 1) :
    decode .chip (b0 :: tl) =
      .ok (chipInstr (classify b0) b0 (tl.getD 0 0) (tl.getD 1 0), (b0 :: tl).drop (wordBytes b0.toNat)) := by
  obtain ⟨n, hn⟩ := Nat.exists_eq_add_of_le' (wordBytes_bounds b0.toNat).1
  rw [decodeChip_word rfl (by rw [classify_length]; exact h), classify_length, hn]
  rfl

/-- The bytes of a whole word and the bytes after it are all bytes. -/
theorem take_word_append_drop (b0 : Byte) (tl : List Byte) {n : Nat} (hlo : 1 ≤ n) (hhi : n ≤ 3) (hn : n ≤ tl.length + 1) :
    b0 :: tl = [b0, tl.getD 0 0, tl.getD 1 0].take n ++ (b0 :: tl).drop n := by
  match n, tl with
  | 1, _ => rfl
  | 2, _ :: _ => rfl
  | 3, _ :: _ :: _ => rfl
  | 2, [] | 3, [] | 3, [_] => simp at hn

/-- What the chip decoder accepts is a whole word and the bytes after it. -/
theorem decodeChip_inv {bs rest : List Byte} {i : Instr} (h : decode .chip bs = .ok (i, rest)) :
    ∃ b0 b1 b2, i = chipInstr (classify b0) b0 b1 b2 ∧ bs = [b0, b1, b2].take (classify b0).length ++ rest := by
  cases bs with
  | nil => cases h
  | cons b0 tl =>
    by_cases hcut : tl.length + 1 < wordBytes b0.toNat
    · rw [decodeChip_cutOff hcut] at h; cases h
    have hwhole := Nat.le_of_not_lt hcut
    rw [decodeChip_whole hwhole] at h
    cases h
    obtain ⟨hlo, hhi⟩ := wordBytes_bounds b0.toNat
    exact ⟨b0, _, _, rfl, by rw [classify_length]; exact take_word_append_drop b0 tl hlo hhi hwhole⟩

/-- Settles O3: an accepted word is encoded back as its bytes, only a DATA_LONG's third byte losing bit 7; what is rejected is an
empty list and a word cut off. -/
theorem chipDecodeExact : Obligations.ChipDecodeExact := by
  refine ⟨fun bs rest i h => ?_, rfl, fun b0 tl => decodeChip_cutOff, fun b0 tl hl => ⟨_, decodeChip_whole hl⟩⟩
  obtain ⟨b0, b1, b2, rfl, rfl⟩ := decodeChip_inv h
  obtain ⟨hwf, hspace⟩ := chipInstr_wf (b0 := b0) rfl b1 b2
  refine ⟨hwf, hspace, ?_⟩
  by_cases hlong : classify b0 = .dataLong
  · have hrow : rowRange .dataLong b0.toNat := (classify_eq_iff b0 _).mp hlong
    rw [hlong]
    exact .inr ⟨b0, b1, b2, Nat.lt_succ_of_le hrow, rfl, encode_chipInstr_dataLong hlong b1 b2⟩
  · have htake (w : List Byte) : (w ++ rest).take ((w ++ rest).length - rest.length) = w := by simp
    rw [htake]
    exact .inl ⟨encode_chipInstr rfl hlong b1 b2, rfl⟩

/-- Settles O7: each word is whole, and its fields are computed from its bytes. -/
theorem specWordsDecode : Obligations.SpecWordsDecode := by
  refine ⟨?_, ?_, ?_, ?_, ?_, ?_, ?_, ?_⟩
  · exact decode_header_of_ok (w := 0x2001050F#32) rfl []
  · exact decodeChip_twoBytes (t := .chipHeader) rfl rfl _ _
  · exact decodeChip_twoBytes (t := .emptyFrame) rfl rfl _ _
  · exact decodeChip_oneByte (t := .regionHeader) rfl rfl _
  · exact decodeChip_twoBytes (t := .dataShort) rfl rfl _ _
  · exact decodeChip_threeBytes (t := .dataLong) rfl rfl _ _ _
  · exact decodeChip_oneByte (t := .chipTrailer) rfl rfl _
  · exact UnknownWord.decode (.inl rfl) rfl _

end Sys2Proof.Machine
end

section
/-! # The decoder's invariants

The proofs of O44 and O45 (10_state.md R41, R49, R54; 43_bitstream_decoder.md R246; 44_hit_quality_validator.md R268, R270). A step
leaves the decoder and HIT alone, or puts a whole decode there, or runs one word; so it is enough that every word keeps them. -/

namespace Sys2Proof.Machine

/-! ## What a step does to the decoder -/

/-- Everything a step can do to HIT, the DecoderState and the payload. -/
theorem step_decoding {s t : State} (h : step s = .next t) :
    (t.hits = s.hits ∧ t.decoder = s.decoder ∧ t.payload = s.payload) ∨
    (∃ p bi ri, t.hits = s.hits ++ (decodeStream p bi ri).hits ∧ t.decoder = (decodeStream p bi ri).decoder ∧ t.payload = p) ∨
    (∃ d hs, streamWord s.payload s.boardIndex s.rcvIndex s.decoder = .advance d hs ∧
      t.hits = s.hits ++ hs ∧ t.decoder = d ∧ t.payload = s.payload) := by
  rcases step_cases h with ⟨_, _, rfl⟩ | ⟨c, rest, _, _, hc, _, hx⟩ | ⟨d, hs, _, _, hw, rfl⟩ | ⟨v, _, rfl⟩ |
    ⟨r, data, code, _, _, _, rfl⟩ | ⟨e, _, rfl⟩ | ⟨_, _, rfl⟩
  · exact .inl ⟨rfl, rfl, rfl⟩
  · obtain ⟨-, hhits, -⟩ := flush_grow { s with cmd := rest, caller := c.caller }
    obtain ⟨hdec, hpay, -⟩ := flush_decoder { s with cmd := rest, caller := c.caller }
    rcases command_cases hc hx with ⟨r, rfl⟩ | ⟨r, rfl⟩ | ⟨q, _, _, _, _, _, _, _, ⟨_, rfl⟩ | rfl⟩ | ⟨r, p, bi, ri, rfl⟩ |
      ⟨r, e, rfl⟩ | ⟨r, e, p, bi, ri, rfl⟩ | rfl
    · exact .inl ⟨rfl, rfl, rfl⟩
    · exact .inl ⟨hhits, hdec, hpay⟩
    · exact .inl ⟨rfl, rfl, rfl⟩
    · exact .inl ⟨hhits, hdec, hpay⟩
    · exact .inr (.inl ⟨p, bi, ri, rfl, rfl, rfl⟩)
    · exact .inl ⟨rfl, rfl, rfl⟩
    · exact .inr (.inl ⟨p, bi, ri, rfl, rfl, rfl⟩)
    · exact .inl ⟨rfl, rfl, rfl⟩
  · exact .inr (.inr ⟨d, hs, hw, rfl, rfl, rfl⟩)
  · exact .inl ⟨rfl, rfl, rfl⟩
  · exact .inl ⟨rfl, rfl, rfl⟩
  · exact .inl ⟨rfl, rfl, rfl⟩
  · rw [endFlush_none_eq]
    cases (acceptReply (replyWords s.inbuf) s).resume <;> exact .inl ⟨rfl, rfl, rfl⟩

/-! ## What a word does -/

/-- The hits of a data word in a started event are the ones the rules demand. -/
theorem dataHits_ruled {bi ri : Nat} {ld : BitVec 4} {x : BitVec 11} {xs : List (BitVec 11)} {d e : DecoderState} {hs : List PixelHit}
    (h : dataHits bi ri ld (x :: xs) d = .advance e hs) :
    d.started = true ∧ RuledHits bi ri ld d ((x :: xs).map BitVec.toNat) hs e := by
  cases hst : d.started with
  | false => rw [dataHits_unstarted hst] at h; cases h
  | true =>
    rw [dataHits_eq _ _ _ _ _ _ hst] at h
    cases h
    exact ⟨rfl, RuledHits_validate bi ri ld (x :: xs) d⟩

/-- Everything the rule of a word that goes on can do (43_bitstream_decoder.md R223 to R237). -/
theorem applyWord_cases {t : WordType} {b0 b1 b2 : Byte} {bi ri : Nat} {d e : DecoderState} {hs : List PixelHit}
    (h : applyWord t b0 b1 b2 bi ri d = .advance e hs) :
    (e = d ∧ hs = []) ∨
    (∃ c bc, e = { d with started := true, finished := false, chip := some c, bunch := some bc, newEvent := true } ∧ hs = []) ∨
    (∃ c bc, e = { d with started := true, finished := true, chip := some c, bunch := some bc } ∧ hs = []) ∨
    (∃ f, d.started = true ∧ e = { d with trlFlags := some f, finished := true, chip := none } ∧ hs = []) ∨
    (∃ r, d.started = true ∧ e = { d with region := some r } ∧ hs = []) ∨
    (∃ ld xs, d.started = true ∧ (∀ x ∈ xs, x ≤ 1030) ∧ RuledHits bi ri ld d xs hs e) := by
  cases t with
  | idle | busyOn | busyOff => cases h; exact .inl ⟨rfl, rfl⟩
  | chipHeader => cases h; exact .inr (.inl ⟨_, _, rfl, rfl⟩)
  | emptyFrame => cases h; exact .inr (.inr (.inl ⟨_, _, rfl, rfl⟩))
  | chipTrailer =>
    simp only [applyWord, wordChipTrailer] at h
    split_ifs at h with hst hfin
    cases h
    exact .inr (.inr (.inr (.inl ⟨_, by simpa using hst, rfl, rfl⟩)))
  | regionHeader =>
    simp only [applyWord, wordRegionHeader] at h
    split_ifs at h with hst
    cases h
    exact .inr (.inr (.inr (.inr (.inl ⟨_, by simpa using hst, rfl, rfl⟩))))
  | dataShort =>
    obtain ⟨hst, hruled⟩ := dataHits_ruled h
    have hbound : ∀ x ∈ ([(addressField b0 b1).setWidth 11].map BitVec.toNat), x ≤ 1030 := by
      have := (addressField b0 b1).isLt
      simp; omega
    exact .inr (.inr (.inr (.inr (.inr ⟨_, _, hst, hbound, hruled⟩))))
  | dataLong =>
    obtain ⟨hst, hruled⟩ := dataHits_ruled h
    have hbound : ∀ x ∈ (clusterAddresses (addressField b0 b1) (hitmapField b2)).map BitVec.toNat, x ≤ 1030 :=
      List.forall_mem_map.mpr (cluster_bound _ _)
    exact .inr (.inr (.inr (.inr (.inr ⟨_, _, hst, hbound, hruled⟩))))
  | unknown => cases h

/-! ## Hits -/

/-- The hit the rules demand for an address a data word can name is within the validator's bounds. -/
theorem RuledHit.inv {bi ri : Nat} {d : DecoderState} {ld : BitVec 4} {x : Nat} {h : PixelHit} (hr : RuledHit bi ri d ld x h)
    (hx : x ≤ 1030) : HitInv h := by
  have hdcol : h.region.isSome = h.dcol.isSome := by
    cases hreg : d.region with
    | none => rw [hr.region, hreg, hr.noDcol hreg]; rfl
    | some r =>
      obtain ⟨c, hc, -⟩ := hr.dcol r hreg
      rw [hr.region, hreg, hc]
      rfl
  by_cases hill : IllegalChip d
  · obtain ⟨hchip, haddr, hflag⟩ := hr.illegal hill
    constructor <;> simp_all
  obtain ⟨c, hc, hc15⟩ : ∃ c, d.chip = some c ∧ c ≠ 15#4 := by
    cases hchip : d.chip with
    | none => exact absurd (.inl hchip) hill
    | some c => exact ⟨c, rfl, fun h15 => hill (.inr (h15 ▸ hchip))⟩
  obtain ⟨hchip, haddr⟩ := hr.legal c hc hc15
  by_cases hreg : d.region = none
  · have hflag := hr.noRegion hill hreg
    have hnone : h.region = none := hr.region.trans hreg
    constructor <;> simp_all
  have hsome : h.region.isSome = true := by rw [hr.region, Option.isSome_iff_ne_none]; exact hreg
  by_cases hfar : 1023 < x
  · have hflag := hr.farAddress hill hreg hfar
    constructor <;> simp_all
  have hnear : x ≤ 1023 := Nat.le_of_not_lt hfar
  by_cases hstuck : StuckAgainst d h
  · have hflag := hr.stuck hill hreg hnear hstuck
    constructor <;> simp_all
  · have hflag := hr.clean hill hreg hnear hstuck
    constructor <;> simp_all

/-- So are the hits of a whole data word. -/
theorem RuledHits.inv {bi ri : Nat} {ld : BitVec 4} {xs : List Nat} {hs : List PixelHit} {d e : DecoderState}
    (hr : RuledHits bi ri ld d xs hs e) (hx : ∀ x ∈ xs, x ≤ 1030) : ∀ h ∈ hs, HitInv h := by
  induction xs generalizing d hs with
  | nil =>
    obtain ⟨rfl, -⟩ := hr
    nofun
  | cons x xs ih =>
    obtain ⟨h, rest, mid, rfl, hhit, -, hrest⟩ := hr
    obtain ⟨hx0, hxs⟩ := List.forall_mem_cons.mp hx
    exact List.forall_mem_cons.mpr ⟨hhit.inv hx0, ih hrest hxs⟩

/-- Every hit of one pass of the loop is within the bounds. -/
theorem streamWord_hitInv {p : List Byte} {bi ri : Nat} {d d' : DecoderState} {hs : List PixelHit}
    (h : streamWord p bi ri d = .advance d' hs) : ∀ x ∈ hs, HitInv x := by
  obtain ⟨t, b0, b1, b2, e, happly, -⟩ := streamWord_apply p bi ri d d' hs h
  rcases applyWord_cases happly with ⟨-, rfl⟩ | ⟨_, _, -, rfl⟩ | ⟨_, _, -, rfl⟩ | ⟨_, -, -, rfl⟩ | ⟨_, -, -, rfl⟩ |
    ⟨ld, xs, -, hbound, hruled⟩
  · nofun
  · nofun
  · nofun
  · nofun
  · nofun
  · exact hruled.inv hbound

/-- Every hit of a whole decode is within the bounds. -/
theorem decodeStream_hitInv (p : List Byte) (bi ri : Nat) : ∀ h ∈ (decodeStream p bi ri).hits, HitInv h :=
  (streamLoop_keeps p bi ri (fun _ => True) HitInv (fun _ _ _ _ hw => ⟨trivial, streamWord_hitInv hw⟩) _ _ _ trivial (List.forall_mem_nil _)).2

/-- Settles O44: what a step adds to HIT are hits of a decode or of one word. -/
theorem stepKeepsHitInv : Obligations.StepKeepsHitInv := by
  intro s t hs h
  rcases step_decoding h with ⟨hhits, -⟩ | ⟨p, bi, ri, hhits, -⟩ | ⟨d, hs', hw, hhits, -⟩ <;> rw [hhits]
  · exact hs
  · exact List.forall_mem_append.mpr ⟨hs, decodeStream_hitInv p bi ri⟩
  · exact List.forall_mem_append.mpr ⟨hs, streamWord_hitInv hw⟩

/-! ## The DecoderState -/

/-- The invariant of the DecoderState without CURSOR. -/
def DecoderOk (d : DecoderState) : Prop :=
  (d.finished = true → d.started = true) ∧
  (d.started = false → d.region = none ∧ d.prev = none ∧ d.corrupt = false ∧ d.trlFlags = none ∧ d.bunch = none) ∧
  (0 < d.prioErrors → d.corrupt = true)

theorem decoderInv_iff (s : State) : DecoderInv s ↔ s.decoder.cursor ≤ s.payload.length ∧ DecoderOk s.decoder :=
  ⟨fun ⟨hcur, hfin, hbefore, hcount⟩ => ⟨hcur, hfin, hbefore, hcount⟩, fun ⟨hcur, hfin, hbefore, hcount⟩ => ⟨hcur, hfin, hbefore, hcount⟩⟩

theorem decoderOk_initial : DecoderOk DecoderState.initial := ⟨nofun, fun _ => ⟨rfl, rfl, rfl, rfl, rfl⟩, nofun⟩

/-- In a started event only the last clause is left to keep. -/
theorem decoderOk_of_started {d : DecoderState} (hst : d.started = true) (hcount : 0 < d.prioErrors → d.corrupt = true) : DecoderOk d :=
  ⟨fun _ => hst, fun h => by simp [hst] at h, hcount⟩

/-- A hit leaves STARTED, and a detection it counts makes the event corrupt (44_hit_quality_validator.md R268). -/
theorem RuledAfter.ok {d d' : DecoderState} {h : PixelHit} (ha : RuledAfter d h d') (hst : d.started = true)
    (hcount : 0 < d.prioErrors → d.corrupt = true) : d'.started = true ∧ (0 < d'.prioErrors → d'.corrupt = true) := by
  refine ⟨(congrArg DecoderState.started ha.others).trans hst, fun hpos => ha.corrupt.mpr ?_⟩
  by_cases hstuck : StuckAgainst d h
  · exact .inr (.inr hstuck)
  · exact .inl (hcount (ha.notCounted hstuck ▸ hpos))

/-- The hits of a data word keep the invariant. -/
theorem RuledHits.ok {bi ri : Nat} {ld : BitVec 4} {xs : List Nat} {hs : List PixelHit} {d e : DecoderState}
    (hr : RuledHits bi ri ld d xs hs e) (hst : d.started = true) (hcount : 0 < d.prioErrors → d.corrupt = true) : DecoderOk e := by
  induction xs generalizing d hs with
  | nil =>
    obtain ⟨-, rfl⟩ := hr
    exact decoderOk_of_started hst hcount
  | cons x xs ih =>
    obtain ⟨h, rest, mid, -, -, hafter, hrest⟩ := hr
    obtain ⟨hst', hcount'⟩ := hafter.ok hst hcount
    exact ih hrest hst' hcount'

/-- One pass of the loop keeps the invariant. -/
theorem streamWord_decoderOk {p : List Byte} {bi ri : Nat} {d d' : DecoderState} {hs : List PixelHit} (hd : DecoderOk d)
    (h : streamWord p bi ri d = .advance d' hs) : DecoderOk d' := by
  obtain ⟨t, b0, b1, b2, e, happly, heq⟩ := streamWord_apply p bi ri d d' hs h
  suffices he : DecoderOk e by rw [heq]; exact he
  have hcount := hd.2.2
  rcases applyWord_cases happly with ⟨rfl, -⟩ | ⟨_, _, rfl, -⟩ | ⟨_, _, rfl, -⟩ | ⟨_, hst, rfl, -⟩ | ⟨_, hst, rfl, -⟩ |
    ⟨ld, xs, hst, -, hruled⟩
  · exact hd
  · exact decoderOk_of_started rfl hcount
  · exact decoderOk_of_started rfl hcount
  · exact decoderOk_of_started hst hcount
  · exact decoderOk_of_started hst hcount
  · exact hruled.ok hst hcount

/-- A whole decode ends with the invariant. -/
theorem decodeStream_decoderOk (p : List Byte) (bi ri : Nat) :
    (decodeStream p bi ri).decoder.cursor ≤ p.length ∧ DecoderOk (decodeStream p bi ri).decoder :=
  (streamLoop_keeps p bi ri (fun d => d.cursor ≤ p.length ∧ DecoderOk d) (fun _ => True)
    (fun _ _ _ hd hw => ⟨⟨(streamWord_cursor _ _ _ _ _ _ hw).2, streamWord_decoderOk hd.2 hw⟩, fun _ _ => trivial⟩) _ _ _
    ⟨Nat.zero_le _, decoderOk_initial⟩ (List.forall_mem_nil _)).1

/-- Settles O45: what a step puts into the decoder is the end of a decode or the state after one word. -/
theorem stepKeepsDecoderInv : Obligations.StepKeepsDecoderInv := by
  intro s t hs h
  rw [decoderInv_iff] at hs ⊢
  rcases step_decoding h with ⟨-, hdec, hpay⟩ | ⟨p, bi, ri, -, hdec, hpay⟩ | ⟨d, hs', hw, -, hdec, hpay⟩ <;> rw [hdec, hpay]
  · exact hs
  · exact decodeStream_decoderOk p bi ri
  · exact ⟨(streamWord_cursor _ _ _ _ _ _ hw).2, streamWord_decoderOk hs.2 hw⟩

end Sys2Proof.Machine
end

section
/-! # The engine's invariants

The proofs of O46, O16 and O47 (10_state.md R26 to R28; 41_transport_engine.md R143, R161). A step leaves the engine alone, or
empties the batch, or appends an operation that fits, or resolves one record; each of the four keeps the invariant. -/

namespace Sys2Proof.Machine

/-! ## What the invariant is about -/

/-- What EngineInv asks of an operation a QUEUE goes on with: the right write words, the count of R102, and room in an empty
packet. -/
def QueueOpOk (p : Params) (q : QueueOp) : Prop :=
  q.wdata.length = wdataWords q.opKind q.wordCount.toNat ∧ (usesCount q.opKind = false → q.wordCount = recordCount q.opKind 0) ∧
    tooLarge p q = false

/-- What EngineInv asks of a record of the batch. -/
def RecordOk (r : TxnRecord) : Prop :=
  r.wdata.length = wdataWords r.opKind r.wordCount.toNat ∧ (usesCount r.opKind = false → r.wordCount = recordCount r.opKind 0)

theorem EngineInv.resumeOk {s : State} (h : EngineInv s) {q : QueueOp} (hq : s.resume = some q) : QueueOpOk s.params q :=
  ⟨h.resumeData q hq, h.resumeCounts q hq, h.resumeFits q hq⟩

theorem EngineInv.recordOk {s : State} (h : EngineInv s) {r : TxnRecord} (hr : r ∈ s.batch) : RecordOk r :=
  ⟨h.writeData r hr, h.fixedCounts r hr⟩

/-- The fields EngineInv reads. -/
def engineView (s : State) : Params × Memory × Slots × List TxnRecord × Nat × Nat × Option QueueOp :=
  (s.params, s.outbuf, s.slots, s.batch, s.outLen, s.inLen, s.resume)

/-- Nothing else matters to it. -/
theorem EngineInv.of_view {s t : State} (h : EngineInv s) (hv : engineView t = engineView s) : EngineInv t := by
  simp only [engineView, Prod.mk.injEq] at hv
  obtain ⟨hp, hob, hsl, hb, hout, hin, hres⟩ := hv
  constructor <;> simp only [hp, hob, hsl, hb, hout, hin, hres]
  exacts [h.outbufCanonical, h.slotsCanonical, h.outLenIs, h.inLenIs, h.outLenFits, h.inLenFits, h.outbufHolds, h.writeData,
    h.fixedCounts, h.resumeData, h.resumeCounts, h.resumeFits]

/-! ## Emptying the batch -/

/-- A state with an empty batch needs canonical byte spaces and a good operation to go on with. -/
theorem engineInv_of_empty {t : State} (hb : t.batch = []) (hout : t.outLen = 0) (hin : t.inLen = 0) (hob : Memory.wf t.outbuf)
    (hsl : Slots.wf t.slots) (hres : ∀ q, t.resume = some q → QueueOpOk t.params q) : EngineInv t where
  outbufCanonical := hob
  slotsCanonical := hsl
  outLenIs := by rw [hb, hout]; rfl
  inLenIs := by rw [hb, hin]; rfl
  outLenFits := by rw [hout]; exact Nat.zero_le _
  inLenFits := by rw [hin]; exact Nat.zero_le _
  outbufHolds := by rw [hb, hout]; rfl
  writeData := by rw [hb]; exact List.forall_mem_nil _
  fixedCounts := by rw [hb]; exact List.forall_mem_nil _
  resumeData q hq := (hres q hq).1
  resumeCounts q hq := (hres q hq).2.1
  resumeFits q hq := (hres q hq).2.2

/-- FLUSH of a pending batch leaves no length. -/
theorem flush_lengths {s : State} (hb : s.batch ≠ []) : (flush s).state.outLen = 0 ∧ (flush s).state.inLen = 0 := by
  unfold flush
  rw [if_neg (by simpa using hb)]
  cases received s with
  | timeout => exact ⟨rfl, rfl⟩
  | datagram bs =>
    simp only [flushReply]
    split_ifs
    · exact ⟨rfl, rfl⟩
    · exact ⟨rfl, rfl⟩
    · split <;> exact ⟨rfl, rfl⟩

/-- FLUSH of an empty batch does nothing. -/
theorem flush_of_empty {s : State} (hb : s.batch = []) : flush s = ⟨s, none⟩ := by simp [flush, hb]

/-- FLUSH leaves OUTBUF, and the operation to go on with. -/
theorem flush_outbuf_resume (s : State) : (flush s).state.outbuf = s.outbuf ∧ (flush s).state.resume = s.resume := by
  constructor <;> rw [flush_frame s]

@[simp] theorem flush_params (s : State) : (flush s).state.params = s.params := (flush_grow s).1

/-- FLUSH keeps the invariant. -/
theorem EngineInv.flush {s : State} (h : EngineInv s) : EngineInv (flush s).state := by
  by_cases hb : s.batch = []
  · rw [flush_of_empty hb]; exact h
  · obtain ⟨hob, hres⟩ := flush_outbuf_resume s
    obtain ⟨hout, hin⟩ := flush_lengths hb
    refine engineInv_of_empty (flush_batch s) hout hin (by rw [hob]; exact h.outbufCanonical) (flush_wf s h.slotsCanonical) ?_
    rw [hres, flush_params]
    exact fun q hq => h.resumeOk hq

/-! ## Appending an operation -/

/-- Under the invariant the append starts from OUT_LEN and IN_LEN, which are 0 for an empty batch. -/
theorem EngineInv.openLengths {s : State} (h : EngineInv s) : openOutLen s = s.outLen ∧ openInLen s = s.inLen := by
  have hout := h.outLenIs
  have hin := h.inLenIs
  cases hb : s.batch with
  | nil => simp_all [openOutLen, openInLen, Config.pktHdrWords]
  | cons r rs => simp [openOutLen, openInLen, hb]

/-- The check of R142 on numbers. -/
theorem tooLarge_iff (p : Params) (q : QueueOp) : tooLarge p q = true ↔ p.packetBudget < 4 * q.req ∨ p.packetBudget < 4 * q.rsp := by
  simp [tooLarge, Config.pktHdrWords]

/-- The check of R143 on numbers. -/
theorem wouldOverflow_iff (s : State) (q : QueueOp) : wouldOverflow s q = true ↔
    s.batch ≠ [] ∧ (s.params.packetBudget < s.outLen + 4 * q.req ∨ s.params.packetBudget < s.inLen + 4 * q.rsp) := by
  simp [wouldOverflow]

/-- An operation that is neither too large nor would overflow the batch fits behind it. -/
theorem EngineInv.fits {s : State} (h : EngineInv s) {q : QueueOp} (hl : tooLarge s.params q = false) (ho : wouldOverflow s q = false) :
    s.outLen + 4 * q.req ≤ s.params.packetBudget ∧ s.inLen + 4 * q.rsp ≤ s.params.packetBudget := by
  have hout := h.outLenIs
  have hin := h.inLenIs
  rw [Bool.eq_false_iff, Ne, tooLarge_iff] at hl
  rw [Bool.eq_false_iff, Ne, wouldOverflow_iff, not_and] at ho
  by_cases hb : s.batch = []
  · simp only [hb, List.map_nil, List.sum_nil] at hout hin
    omega
  · have := ho hb
    omega

/-- The record of a good operation is good. -/
theorem QueueOpOk.record {p : Params} {q : QueueOp} (h : QueueOpOk p q) (id : Byte) : RecordOk (q.record id) := ⟨h.1, h.2.1⟩

/-- The packet with one more request at its end. -/
theorem readBytes_append_request {m : Memory} {n : Nat} {bs req : List Byte} (hm : Memory.wf m) (hold : Memory.readBytes m 0 n = bs) :
    Memory.readBytes (Memory.writeBytes m n req) 0 (n + req.length) = bs ++ req := by
  rw [Memory.readBytes_add, Nat.zero_add, Memory.readBytes_writeBytes_below _ _ _ _ _ (Nat.le_of_eq (Nat.zero_add n)), hold,
    Memory.readBytes_writeBytes_same _ _ _ hm]

/-- The append of an operation that fits keeps the invariant. -/
theorem EngineInv.acceptOp {s : State} (h : EngineInv s) {q : QueueOp} (hq : QueueOpOk s.params q) (ho : wouldOverflow s q = false) :
    EngineInv (acceptOp q s) := by
  suffices happ : EngineInv (appendOp q s) from happ.of_view rfl
  obtain ⟨hopenOut, hopenIn⟩ := h.openLengths
  obtain ⟨hfitsOut, hfitsIn⟩ := h.fits hq.2.2 ho
  have hrec := hq.record (assignedId s)
  have hlen : (requestBytes (q.record (assignedId s))).length = 4 * (q.record (assignedId s)).req := requestBytes_length _ hrec.1
  constructor <;> simp only [appendOp_batch, appendOp_outLen, appendOp_inLen, appendOp_outbuf, appendOp_slots, appendOp_params,
    appendOp_resume, hopenOut, hopenIn, List.map_append, List.sum_append, List.flatMap_append, List.map_cons, List.map_nil,
    List.sum_cons, List.sum_nil, List.flatMap_cons, List.flatMap_nil, List.append_nil, Nat.add_zero, List.forall_mem_append,
    List.forall_mem_singleton]
  · exact Memory.writeBytes_wf _ _ _ h.outbufCanonical
  · exact h.slotsCanonical
  · rw [← h.outLenIs]
  · rw [← h.inLenIs]
  · exact hfitsOut
  · exact hfitsIn
  · rw [← hlen]
    exact readBytes_append_request h.outbufCanonical h.outbufHolds
  · exact ⟨h.writeData, hrec.1⟩
  · exact ⟨h.fixedCounts, hrec.2⟩
  · exact h.resumeData
  · exact h.resumeCounts
  · exact h.resumeFits

/-- The operand check lets good operations through. -/
theorem queueOpOk_of_check {p : Params} {op : BitVec 4} {n : Nat} {addr : Word} {wdata : List Word} {slot : Option Nat} {q : QueueOp}
    (hc : checkOperands op n addr wdata slot = .ok q) (hl : tooLarge p q = false) : QueueOpOk p q :=
  ⟨(checkOperands_inv hc).1, (checkOperands_inv hc).2, hl⟩

/-! ## Commands -/

/-- Every host command keeps the invariant. -/
theorem EngineInv.command {i : Instr} {s t : State} (h : EngineInv s) (hi : i.isCommand = true) (hx : exec i s = .next t) :
    EngineInv t := by
  rcases command_cases hi hx with ⟨r, rfl⟩ | ⟨r, rfl⟩ | ⟨q, _, _, _, _, _, hc, hl, ⟨ho, rfl⟩ | rfl⟩ | ⟨r, p, bi, ri, rfl⟩ |
    ⟨r, e, rfl⟩ | ⟨r, e, p, bi, ri, rfl⟩ | rfl
  · exact h.of_view rfl
  · exact h.flush.of_view rfl
  · exact h.acceptOp (queueOpOk_of_check hc hl) ho
  · exact h.flush.acceptOp (queueOpOk_of_check hc (by rw [flush_params]; exact hl)) (no_overflow_empty _ q (flush_batch s))
  · exact h.of_view rfl
  · exact h.of_view rfl
  · exact h.of_view rfl
  · exact engineInv_of_empty rfl rfl rfl ⟨.nil, List.forall_mem_nil _⟩ h.slotsCanonical nofun

/-! ## The walk over a reply -/

/-- Resolving a record keeps the invariant: its request is the same. -/
theorem EngineInv.resolve {s : State} (h : EngineInv s) {i : Nat} {r : TxnRecord} (hr : s.batch[i]? = some r) (code : BitVec 4)
    (data : List Word) (idx pos : Nat) :
    EngineInv { s with
      batch := s.batch.set i { r with infoCode := some code, state := .resolved }
      slots := Slots.store s.slots r.slot data
      recIdx := idx
      wordPos := pos } := by
  have hold := h.recordOk (List.mem_of_getElem? hr)
  have hmap {β : Type} (f : TxnRecord → β) (hf : f { r with infoCode := some code, state := .resolved } = f r) :
      (s.batch.set i { r with infoCode := some code, state := .resolved }).map f = s.batch.map f := map_set_same f _ _ _ _ hr hf
  have hall : ∀ x ∈ s.batch.set i { r with infoCode := some code, state := .resolved }, RecordOk x := by
    intro x hx
    rcases List.mem_or_eq_of_mem_set hx with hx | rfl
    · exact h.recordOk hx
    · exact hold
  constructor <;> dsimp only
  · exact h.outbufCanonical
  · exact Slots.store_wf _ _ _ h.slotsCanonical
  · rw [hmap (fun x => 4 * x.req) rfl]; exact h.outLenIs
  · rw [hmap (fun x => 4 * x.rsp) rfl]; exact h.inLenIs
  · exact h.outLenFits
  · exact h.inLenFits
  · rw [List.flatMap_def, hmap requestBytes rfl, ← List.flatMap_def]; exact h.outbufHolds
  · exact fun x hx => (hall x hx).1
  · exact fun x hx => (hall x hx).2
  · exact h.resumeData
  · exact h.resumeCounts
  · exact h.resumeFits

/-- The end of a walk keeps the invariant, also where a QUEUE goes on with its operation. -/
theorem EngineInv.accept {s : State} (h : EngineInv s) (ws : List Word) : EngineInv (endFlush none (acceptReply ws s)) := by
  rw [endFlush_none_eq, acceptReply_resume]
  cases hq : s.resume with
  | none => exact engineInv_of_empty rfl rfl rfl h.outbufCanonical h.slotsCanonical nofun
  | some q =>
    have hempty : EngineInv { acceptReply ws s with activity := .command, resume := none } :=
      engineInv_of_empty rfl rfl rfl h.outbufCanonical h.slotsCanonical nofun
    exact hempty.acceptOp (h.resumeOk hq) (no_overflow_empty _ q rfl)

/-- Settles O46: every case of a step keeps the invariant. -/
theorem stepKeepsEngineInv : Obligations.StepKeepsEngineInv := by
  intro s t h hstep
  rcases step_cases hstep with ⟨_, _, rfl⟩ | ⟨c, rest, _, _, hc, _, hx⟩ | ⟨d, hs, _, _, _, rfl⟩ | ⟨v, _, rfl⟩ |
    ⟨r, data, code, _, hr, _, rfl⟩ | ⟨e, _, rfl⟩ | ⟨_, _, rfl⟩
  · exact h
  · have hfetched : EngineInv { s with cmd := rest, caller := c.caller } := h.of_view rfl
    exact hfetched.command hc hx
  · exact h.of_view rfl
  · exact h.of_view rfl
  · exact h.resolve hr code data _ _
  · exact engineInv_of_empty rfl rfl rfl h.outbufCanonical h.slotsCanonical nofun
  · exact h.accept _

/-! ## The first id -/

/-- An empty batch has no first record. -/
theorem firstIdDistinct_of_empty {s : State} (hb : s.batch = []) : FirstIdDistinct s := by
  intro _ r hr
  rw [hb] at hr
  cases hr

/-- The bump of R146 keeps a new batch's first id off LAST_ID. -/
theorem assignedId_ne_lastId {s : State} (hb : s.batch = []) (hv : s.lastValid = true) : assignedId s ≠ s.lastId := by
  unfold assignedId
  split_ifs with h
  · obtain ⟨-, -, heq⟩ := h
    rw [← heq]
    bv_omega
  · exact fun heq => h ⟨by rw [hb]; rfl, hv, heq⟩

/-- An append keeps the first id distinct. -/
theorem FirstIdDistinct.acceptOp {s : State} (h : FirstIdDistinct s) (q : QueueOp) : FirstIdDistinct (acceptOp q s) := by
  intro hv r hr
  have hr : (s.batch ++ [q.record (assignedId s)]).head? = some r := hr
  cases hb : s.batch with
  | nil =>
    rw [hb] at hr
    cases hr
    exact assignedId_ne_lastId hb hv
  | cons r0 rs =>
    rw [hb] at hr
    exact h hv r (by rw [hb]; exact hr)

/-- Every host command keeps the first id distinct. -/
theorem FirstIdDistinct.command {i : Instr} {s t : State} (h : FirstIdDistinct s) (hi : i.isCommand = true) (hx : exec i s = .next t) :
    FirstIdDistinct t := by
  have hflush : FirstIdDistinct (flush s).state := firstIdDistinct_of_empty (flush_batch s)
  rcases command_cases hi hx with ⟨r, rfl⟩ | ⟨r, rfl⟩ | ⟨q, _, _, _, _, _, _, _, ⟨_, rfl⟩ | rfl⟩ | ⟨r, p, bi, ri, rfl⟩ |
    ⟨r, e, rfl⟩ | ⟨r, e, p, bi, ri, rfl⟩ | rfl
  · exact h
  · exact hflush
  · exact h.acceptOp q
  · exact hflush.acceptOp q
  · exact h
  · exact h
  · exact h
  · exact firstIdDistinct_of_empty rfl

/-- Resolving a record leaves the first id. -/
theorem head?_txnId_set {l : List TxnRecord} {i : Nat} {r r' : TxnRecord} (hr : l[i]? = some r) (hid : r'.txnId = r.txnId) :
    (l.set i r').head?.map TxnRecord.txnId = l.head?.map TxnRecord.txnId := by
  rw [← List.head?_map, ← List.head?_map, map_set_same TxnRecord.txnId l i r r' hr hid]

/-- Settles O16: the batch is left, emptied, appended to with the bump of R146, or one of its records is resolved. -/
theorem stepKeepsFirstIdDistinct : Obligations.StepKeepsFirstIdDistinct := by
  intro s t h hstep
  rcases step_cases hstep with ⟨_, _, rfl⟩ | ⟨c, rest, _, _, hc, _, hx⟩ | ⟨d, hs, _, _, _, rfl⟩ | ⟨v, _, rfl⟩ |
    ⟨r, data, code, _, hr, _, rfl⟩ | ⟨e, _, rfl⟩ | ⟨_, _, rfl⟩
  · exact h
  · have hfetched : FirstIdDistinct { s with cmd := rest, caller := c.caller } := h
    exact hfetched.command hc hx
  · exact h
  · exact h
  · intro hv x hx
    have hid := head?_txnId_set hr (r' := { r with infoCode := some code, state := .resolved }) rfl
    rw [show (s.batch.set s.recIdx { r with infoCode := some code, state := .resolved }).head? = some x from hx] at hid
    obtain ⟨y, hy, hyid⟩ := Option.map_eq_some_iff.mp hid.symm
    exact hyid ▸ h hv y hy
  · exact firstIdDistinct_of_empty rfl
  · rw [endFlush_none_eq]
    cases (acceptReply (replyWords s.inbuf) s).resume with
    | none => exact firstIdDistinct_of_empty rfl
    | some q => exact FirstIdDistinct.acceptOp (firstIdDistinct_of_empty rfl) q

/-! ## Reset -/

/-- Settles O47: after reset there is no batch and no hit, and the decoder is at the values a decode starts from. -/
theorem resetMeetsInvariants : Obligations.ResetMeetsInvariants := by
  have hall (p : Params) : EngineInv (State.resetFor p) ∧ FirstIdDistinct (State.resetFor p) ∧ DecoderInv (State.resetFor p) ∧
      ∀ h ∈ (State.resetFor p).hits, HitInv h :=
    ⟨engineInv_of_empty rfl rfl rfl ⟨.nil, List.forall_mem_nil _⟩ ⟨.nil, List.forall_mem_nil _⟩ nofun, firstIdDistinct_of_empty rfl,
      (decoderInv_iff _).mpr ⟨Nat.le_refl 0, decoderOk_initial⟩, List.forall_mem_nil _⟩
  exact ⟨hall, hall _⟩

end Sys2Proof.Machine
end

section
/-! # QUEUE

The proofs of O12 to O15 (41_transport_engine.md R141 to R148): the operand check, the check against an empty packet, and the
flush when the operation would overflow the batch are the branches of the command, each with one lemma. -/

namespace Sys2Proof.Machine

/-! ## The branches of the command -/

/-- The operation QUEUE makes of good operands. -/
abbrev goodOp (k : OpKind) (n : Nat) (addr : Word) (wdata : List Word) (slot : Option Nat) : QueueOp :=
  ⟨k, recordCount k n, addr, wdata, slot⟩

/-- Operands that fail the check of R141. -/
theorem exec_queue_badOperands {op : BitVec 4} {n : Nat} {addr : Word} {wdata : List Word} {slot : Option Nat} {e : Error}
    (h : checkOperands op n addr wdata slot = .error e) (s : State) :
    exec (.queue op n addr wdata slot) s = .next (answered s (.error e)) := by
  simp only [exec, execQueue, h]
  rfl

section
variable {k : OpKind} {n : Nat} {addr : Word} {wdata : List Word} {slot : Option Nat} {s : State}

/-- An operation that fits no packet (R142). -/
theorem exec_queue_tooLarge (hg : GoodOperands k n wdata) (hl : tooLarge s.params (goodOp k n addr wdata slot) = true) :
    exec (.queue k.code n addr wdata slot) s = .next (answered s (.error
      (.capacityExceeded (4 * (goodOp k n addr wdata slot).req) (4 * (goodOp k n addr wdata slot).rsp)))) := by
  simp only [exec, execQueue, checkOperands_good hg, hl, if_true]
  rfl

/-- An operation that fits (R146 to R148). -/
theorem exec_queue_accept (hg : GoodOperands k n wdata) (hl : tooLarge s.params (goodOp k n addr wdata slot) = false)
    (ho : wouldOverflow s (goodOp k n addr wdata slot) = false) :
    exec (.queue k.code n addr wdata slot) s = .next (acceptOp (goodOp k n addr wdata slot) s) := by
  simp only [exec, execQueue, checkOperands_good hg, hl, ho, Bool.false_eq_true, if_false]

/-- An operation that would overflow the batch, when the flush fails (R145). -/
theorem exec_queue_flushError (hg : GoodOperands k n wdata) (hl : tooLarge s.params (goodOp k n addr wdata slot) = false)
    (ho : wouldOverflow s (goodOp k n addr wdata slot) = true) {e : Error} (he : (flush s).error = some e) :
    exec (.queue k.code n addr wdata slot) s = .next (answered (flush s).state (.error e)) := by
  simp only [exec, execQueue, checkOperands_good hg, hl, ho, Bool.false_eq_true, if_false, if_true]
  cases hf : flush s with
  | mk t oe =>
    rw [hf] at he
    cases he
    rfl

/-- The same when the flush succeeds (R144). -/
theorem exec_queue_flushOk (hg : GoodOperands k n wdata) (hl : tooLarge s.params (goodOp k n addr wdata slot) = false)
    (ho : wouldOverflow s (goodOp k n addr wdata slot) = true) (he : (flush s).error = none) :
    exec (.queue k.code n addr wdata slot) s = .next (acceptOp (goodOp k n addr wdata slot) (flush s).state) := by
  simp only [exec, execQueue, checkOperands_good hg, hl, ho, Bool.false_eq_true, if_false, if_true]
  cases hf : flush s with
  | mk t oe =>
    rw [hf] at he
    cases he
    rfl

/-! ## Sizes -/

/-- The packet sizes of an operation with good operands. -/
theorem goodOp_req (hg : GoodOperands k n wdata) : 4 * (goodOp k n addr wdata slot).req = requestSize k n := req_good (good_bound hg)

theorem goodOp_rsp (hg : GoodOperands k n wdata) : 4 * (goodOp k n addr wdata slot).rsp = replySize k n := rsp_good (good_bound hg)

theorem tooLarge_goodOp (hg : GoodOperands k n wdata) (p : Params) : tooLarge p (goodOp k n addr wdata slot) = true ↔
    p.packetBudget < requestSize k n ∨ p.packetBudget < replySize k n := by
  rw [tooLarge_iff, goodOp_req hg, goodOp_rsp hg]

theorem not_tooLarge_goodOp (hg : GoodOperands k n wdata) {p : Params} (hreq : requestSize k n ≤ p.packetBudget)
    (hrsp : replySize k n ≤ p.packetBudget) : tooLarge p (goodOp k n addr wdata slot) = false := by
  rw [Bool.eq_false_iff, Ne, tooLarge_goodOp hg]
  omega

theorem wouldOverflow_goodOp (hg : GoodOperands k n wdata) : wouldOverflow s (goodOp k n addr wdata slot) = true ↔
    s.batch ≠ [] ∧ (s.params.packetBudget < s.outLen + requestSize k n ∨ s.params.packetBudget < s.inLen + replySize k n) := by
  rw [wouldOverflow_iff, goodOp_req hg, goodOp_rsp hg]

/-! ## The append -/

/-- An append to an empty batch starts at offset 0. -/
theorem openOutLen_eq (s : State) : openOutLen s = if s.batch = [] then 0 else s.outLen := by
  simp [openOutLen, Config.pktHdrWords]

theorem openInLen_eq (s : State) : openInLen s = if s.batch = [] then 0 else s.inLen := by
  simp [openInLen, Config.pktHdrWords]

theorem record_goodOp (id : Byte) : (goodOp k n addr wdata slot).record id = queuedRecord k n id addr wdata slot := by
  simp only [QueueOp.record, queuedRecord, recordCount_eq]

/-- The packet sizes and the bytes of its record. -/
theorem queuedRecord_req (hg : GoodOperands k n wdata) (id : Byte) :
    4 * (queuedRecord k n id addr wdata slot).req = requestSize k n := by
  rw [← record_goodOp]
  exact req_good (good_bound hg)

theorem queuedRecord_rsp (hg : GoodOperands k n wdata) (id : Byte) :
    4 * (queuedRecord k n id addr wdata slot).rsp = replySize k n := by
  rw [← record_goodOp]
  exact rsp_good (good_bound hg)

theorem queuedRecord_bytes (hg : GoodOperands k n wdata) (id : Byte) :
    requestBytes (queuedRecord k n id addr wdata slot) = (requestPacket k n id addr wdata).flatMap bigEndian := by
  rw [← record_goodOp]
  exact requestBytes_eq id hg

/-- The append of an operation with good operands, in the statements' terms. -/
theorem acceptOp_goodOp (hg : GoodOperands k n wdata) : acceptOp (goodOp k n addr wdata slot) s = answered
    { s with
      nextId := nextTxnId s + 1#8
      batch := s.batch ++ [queuedRecord k n (nextTxnId s) addr wdata slot]
      outLen := (if s.batch = [] then 0 else s.outLen) + requestSize k n
      inLen := (if s.batch = [] then 0 else s.inLen) + replySize k n
      outbuf := Memory.writeBytes s.outbuf (if s.batch = [] then 0 else s.outLen)
        ((requestPacket k n (nextTxnId s) addr wdata).flatMap bigEndian) } (.ok (.txnId (nextTxnId s))) := by
  simp only [acceptOp, appendOp, assignedId_eq, openOutLen_eq, openInLen_eq, record_goodOp, queuedRecord_req hg, queuedRecord_rsp hg,
    queuedRecord_bytes hg]
  rfl

end

/-- Settles O12: the command appends, and the append writes the request's bytes from the batch's length on. -/
theorem queueAppendsRecord : Obligations.QueueAppendsRecord := by
  intro k n addr wdata slot s hg hwf hreq hrsp hfits out inn bytes
  have hl := not_tooLarge_goodOp (addr := addr) (slot := slot) hg hreq hrsp
  have ho : wouldOverflow s (goodOp k n addr wdata slot) = false := by
    rw [Bool.eq_false_iff, Ne, wouldOverflow_goodOp hg]
    rintro ⟨hb, hover⟩
    have := hfits hb
    omega
  have hlen : bytes.length = requestSize k n := requestPacket_length _ hg
  refine ⟨Memory.writeBytes s.outbuf out bytes, ?_, hlen, Memory.writeBytes_wf _ _ _ hwf, fun j hj => ?_, fun a ha => ?_⟩
  · rw [exec_queue_accept hg hl ho, acceptOp_goodOp hg]
  · rw [← hlen] at hj
    rw [Memory.read_writeBytes_at _ _ _ _ hwf hj, List.getElem?_eq_getElem hj]
  · rw [← hlen] at ha
    exact Memory.read_writeBytes_other _ _ _ _ ha

/-! ## Bad operands -/

/-- The kinds that use the caller's word count are those with codes 0 to 3 (30_encoding.md R102). -/
theorem usesCount_iff_code (k : OpKind) : usesCount k = true ↔ k.code.toNat ≤ 3 := by cases k <;> decide

/-- Good operands are a word count in range where it is used, and the right number of write words. -/
theorem goodOperands_iff (k : OpKind) (n : Nat) (wdata : List Word) :
    GoodOperands k n wdata ↔ (usesCount k = true → n ≤ 0xFFF) ∧ wdata.length = wdataWords k n := by
  cases k <;> simp [GoodOperands, usesCount, wdataWords]

section
variable (addr : Word) (wdata : List Word) (slot : Option Nat)

/-- The three checks of R141. -/
theorem checkOperands_badKind {op : BitVec 4} (h : OpKind.ofCode op = none) (n : Nat) :
    checkOperands op n addr wdata slot = .error (.invalidOperation op.toNat) := by rw [checkOperands, h]

theorem checkOperands_badCount {k : OpKind} {n : Nat} (hk : usesCount k = true) (hn : 0xFFF < n) :
    checkOperands k.code n addr wdata slot = .error (.invalidOperation n) := by
  rw [checkOperands, ofCode_code]
  exact if_pos ⟨hk, hn⟩

theorem checkOperands_badData {k : OpKind} {n : Nat} (hn : usesCount k = true → n ≤ 0xFFF) (hw : wdata.length ≠ wdataWords k n) :
    checkOperands k.code n addr wdata slot = .error (.invalidOperation wdata.length) := by
  rw [checkOperands, ofCode_code]
  have hcount : ¬ (usesCount k = true ∧ n > Config.maxWordCount) := fun h => not_gt_maxWordCount (hn h.1) h.2
  simp only [if_neg hcount, if_pos hw]

end

/-- Settles O13: each of the three checks comes once those before it have passed. -/
theorem queueInvalidOperation : Obligations.QueueInvalidOperation := by
  intro op n addr wdata slot s
  refine ⟨fun h6 h14 => ?_, fun h3 hn => ?_, ?_⟩
  · have hnone := (ofCode_eq_none_iff op).mpr ⟨h6, h14⟩
    exact exec_queue_badOperands (checkOperands_badKind addr wdata slot hnone n) s
  · obtain ⟨k, rfl⟩ := exists_code_of_not_reserved (b := op) (by omega)
    exact exec_queue_badOperands (checkOperands_badCount addr wdata slot ((usesCount_iff_code k).mpr h3) hn) s
  · rintro k rfl hn hbad
    rw [← usesCount_iff_code] at hn
    have hw : wdata.length ≠ wdataWords k n := fun hw => hbad ((goodOperands_iff k n wdata).mpr ⟨hn, hw⟩)
    exact exec_queue_badOperands (checkOperands_badData addr wdata slot hn hw) s

/-- Settles O14: an operation over the budget on its own is refused before the batch is looked at. -/
theorem queueCapacityExceeded : Obligations.QueueCapacityExceeded := by
  intro k n addr wdata slot s hg hbig
  rw [exec_queue_tooLarge hg ((tooLarge_goodOp hg _).mpr hbig), goodOp_req hg, goodOp_rsp hg]

/-- Settles O15: EXECUTE is the flush that QUEUE runs first, and after it nothing overflows. -/
theorem queueFlushesFirst : Obligations.QueueFlushesFirst := by
  intro k n addr wdata slot s hg hreq hrsp hb hover
  have hl := not_tooLarge_goodOp (addr := addr) (slot := slot) hg hreq hrsp
  have ho := (wouldOverflow_goodOp (addr := addr) (slot := slot) hg).mpr ⟨hb, hover⟩
  refine ⟨_, _, execute_flush s, flush_batch s, flush_rsp s, ?_⟩
  cases he : (flush s).error with
  | some e => exact .inr ⟨e, rfl, exec_queue_flushError hg hl ho he⟩
  | none =>
    have hagain := exec_queue_accept (s := (flush s).state) (addr := addr) (slot := slot) hg (by rw [flush_params]; exact hl)
      (no_overflow_empty _ _ (flush_batch s))
    exact .inl ⟨rfl, (exec_queue_flushOk hg hl ho he).trans hagain.symm⟩

end Sys2Proof.Machine
end

section
/-! # What an instruction leaves alone

The proofs of O58 and O59 (10_state.md R33, R34; 70_reset_and_hazards.md R322, R324, R336). Said once for each of the four kinds of
instruction: a reply header touches the walk, a chip word the decoder, a decoder command the decoder and the ports, an engine
command the engine. -/

namespace Sys2Proof.Machine

/-! ## Reply headers -/

/-- A reply header touches the batch, the slots, the walk and, at an error, the response. -/
theorem resolveHeader_frame (w : Word) (s : State) : resolveHeader w s = { s with
    batch := (resolveHeader w s).batch
    outLen := (resolveHeader w s).outLen
    inLen := (resolveHeader w s).inLen
    recIdx := (resolveHeader w s).recIdx
    wordPos := (resolveHeader w s).wordPos
    resume := (resolveHeader w s).resume
    rsp := (resolveHeader w s).rsp
    slots := (resolveHeader w s).slots
    activity := (resolveHeader w s).activity } := by
  unfold resolveHeader
  split
  · rfl
  · split
    · rw [failRecord_eq]; rfl
    · rfl

/-- A header word runs as a reply header. -/
theorem exec_instr (k : OpKind) (n : BitVec 12) (t : Byte) (c : BitVec 4) (s : State) :
    exec (k.instr n t c) s = .next (resolveHeader (headerWord k n t c) s) := by
  cases k <;> rfl

/-- A header word that goes on has run as a reply header. -/
theorem header_cases {i : Instr} {s t : State} (hi : i.space = some .header) (h : exec i s = .next t) : ∃ w, t = resolveHeader w s := by
  obtain ⟨k, n, x, c, rfl⟩ := exists_instr_of_header hi
  rw [exec_instr] at h
  cases h
  exact ⟨_, rfl⟩

/-! ## Chip words -/

/-- The rule never ends a decode with SUCCESS. -/
def NeverSucceeds (r : WordResult) : Prop := ∀ v, r = .abort v → v ≠ .success

theorem neverSucceeds_advance (d : DecoderState) (hs : List PixelHit) : NeverSucceeds (.advance d hs) := nofun

theorem neverSucceeds_abort {v : Verdict} (hv : v ≠ .success) : NeverSucceeds (.abort v) := by
  rintro _ ⟨⟩
  exact hv

theorem neverSucceeds_dataHits (bi ri : Nat) (ld : BitVec 4) (xs : List (BitVec 11)) (d : DecoderState) :
    NeverSucceeds (dataHits bi ri ld xs d) := by
  unfold dataHits
  split_ifs
  · exact neverSucceeds_abort nofun
  · exact neverSucceeds_advance _ _

theorem neverSucceeds_chipTrailer (f : BitVec 4) (d : DecoderState) : NeverSucceeds (wordChipTrailer f d) := by
  unfold wordChipTrailer
  split_ifs
  · exact neverSucceeds_abort nofun
  · exact neverSucceeds_abort nofun
  · exact neverSucceeds_advance _ _

theorem neverSucceeds_regionHeader (r : BitVec 5) (d : DecoderState) : NeverSucceeds (wordRegionHeader r d) := by
  unfold wordRegionHeader
  split_ifs
  · exact neverSucceeds_abort nofun
  · exact neverSucceeds_advance _ _

/-- A chip word runs its rule, which never ends the decode with SUCCESS. -/
theorem exec_chip {i : Instr} (hi : i.space = some .chip) (s : State) :
    ∃ n r, exec i s = .next (runWord n r s) ∧ NeverSucceeds r := by
  cases i with
  | idle | busyOn | busyOff | chipHeader | emptyFrame => exact ⟨_, _, rfl, neverSucceeds_advance _ _⟩
  | chipTrailer f => exact ⟨_, _, rfl, neverSucceeds_chipTrailer f _⟩
  | regionHeader r => exact ⟨_, _, rfl, neverSucceeds_regionHeader r _⟩
  | dataShort | dataLong => exact ⟨_, _, rfl, neverSucceeds_dataHits _ _ _ _ _⟩
  | unknown80_9F | unknownF2_F3 | unknownF4_F7 | unknownF8_FB | unknownFC_FD | unknownFE =>
    exact ⟨_, _, rfl, neverSucceeds_abort nofun⟩
  | _ => cases hi

/-- A chip word that goes on has written the decoder and HIT, or has ended the decode. -/
theorem chip_cases {i : Instr} {s t : State} (hi : i.space = some .chip) (h : exec i s = .next t) :
    (∃ d hs, t = { s with decoder := d, hits := s.hits ++ hs }) ∨ ∃ v, v ≠ .success ∧ t = decodeEnded s v := by
  obtain ⟨n, r, hx, hr⟩ := exec_chip hi s
  rw [hx] at h
  cases h
  cases r with
  | advance d hs => exact .inl ⟨_, hs, rfl⟩
  | abort v => exact .inr ⟨v, hr v rfl, endStream_eq v s⟩

/-! ## Commands -/

/-- Everything a command of the codec or of the decoders that goes on can have done. -/
theorem decoderCommand_cases {i : Instr} {s t : State} (hi : i.isCommand = true) (he : i ≠ .execute) (hr : i ≠ .reset)
    (hq : ∀ op n addr wdata slot, i ≠ .queue op n addr wdata slot) (h : exec i s = .next t) :
    (∃ r, t = respond r s) ∨ (∃ r p bi ri, t = respond r (runDecode p bi ri s)) ∨ (∃ r e, t = respond r (sendEvt e s)) ∨
      (∃ r e p bi ri, t = respond r (sendEvt e (runDecode p bi ri s))) := by
  cases i with
  | queue op n addr wdata slot => exact absurd rfl (hq op n addr wdata slot)
  | execute => exact absurd rfl he
  | reset => exact absurd rfl hr
  | encodeHeader n op x =>
    simp only [exec, execEncodeHeader] at h
    split at h <;> cases h <;> exact .inl ⟨_, rfl⟩
  | decodeHeader w => cases h; exact .inl ⟨_, rfl⟩
  | decodeFrameNet buf => exact .inl (frame_cases h)
  | decodeFrameUsb buf fw ht => exact .inl (frame_cases h)
  | decodeChipStream p bi ri => cases h; exact .inr (.inl ⟨_, p, bi, ri, rfl⟩)
  | decodeEvent fam buf bi ri =>
    rcases event_cases h with ⟨e, info, h⟩ | ⟨info, lo, hi, _, h⟩
    · exact .inr (.inr (.inl ⟨_, _, h⟩))
    · exact .inr (.inr (.inr ⟨_, _, _, _, _, h⟩))
  | _ => cases hi

/-- The decoder's registers and output ports. -/
def decoderView (s : State) : DecoderState × List Byte × Nat × Nat × Option FrameInfo × List PixelHit × List Evt :=
  (s.decoder, s.payload, s.boardIndex, s.rcvIndex, s.event, s.hits, s.evts)

theorem decoderView_flush (s : State) : decoderView (flush s).state = decoderView s := by
  obtain ⟨hdec, hpay, hbi, hri, hev⟩ := flush_decoder s
  obtain ⟨-, hhits, -, hevts, -⟩ := flush_grow s
  simp only [decoderView, hdec, hpay, hbi, hri, hev, hhits, hevts]

/-- An engine command leaves the decoder, HIT and EVT. -/
theorem engineCommand_decoderView {i : Instr} {s t : State}
    (hi : i = .execute ∨ i = .reset ∨ ∃ op n addr wdata slot, i = .queue op n addr wdata slot) (h : exec i s = .next t) :
    decoderView t = decoderView s := by
  rcases hi with rfl | rfl | ⟨op, n, addr, wdata, slot, rfl⟩
  · rw [execute_flush] at h
    cases h
    exact decoderView_flush s
  · cases h
    rfl
  · rcases queue_cases h with ⟨e, rfl⟩ | ⟨e, _, _, rfl⟩ | ⟨q, _, _, ⟨_, rfl⟩ | ⟨_, _, rfl⟩⟩
    · rfl
    · exact decoderView_flush s
    · rfl
    · exact decoderView_flush s

/-- Settles O58: the four kinds of instruction, each by what it can have done. -/
theorem unitsShareNoState : Obligations.UnitsShareNoState := by
  refine ⟨fun i s t hi he hr hq h => ?_, fun i s t hi h => ?_, fun i s t hi h => ?_, fun i s t => chip_cases⟩
  · rcases decoderCommand_cases hi he hr hq h with ⟨r, rfl⟩ | ⟨r, p, bi, ri, rfl⟩ | ⟨r, e, rfl⟩ | ⟨r, e, p, bi, ri, rfl⟩ <;>
      exact ⟨rfl, rfl, rfl, rfl, rfl, rfl, rfl, rfl, rfl, rfl, rfl⟩
  · simpa only [decoderView, Prod.mk.injEq] using engineCommand_decoderView hi h
  · obtain ⟨w, rfl⟩ := header_cases hi h
    rw [resolveHeader_frame]
    exact ⟨rfl, rfl, rfl, rfl, rfl, rfl, rfl, rfl, rfl, rfl, rfl, rfl, rfl, rfl⟩

/-! ## The output ports -/

/-- The parameters and the caller stay, each output port only grows, and what is new on RSP goes to the caller. -/
structure Grows (s t : State) : Prop where
  params : t.params = s.params
  hits : s.hits <+: t.hits
  rsp : s.rsp <+: t.rsp
  evts : s.evts <+: t.evts
  tx : s.tx <+: t.tx
  answers : ∀ m ∈ t.rsp, m ∈ s.rsp ∨ m.caller = t.caller
  caller : t.caller = s.caller

/-- An operation that leaves RSP alone. -/
theorem grows_of_rsp_eq {s t : State} (hp : t.params = s.params) (hh : s.hits <+: t.hits) (hr : t.rsp = s.rsp) (he : s.evts <+: t.evts)
    (hx : s.tx <+: t.tx) (hc : t.caller = s.caller) : Grows s t :=
  ⟨hp, hh, hr ▸ List.prefix_refl _, he, hx, fun _ hm => .inl (hr ▸ hm), hc⟩

theorem Grows.trans {s t u : State} (h : Grows s t) (h' : Grows t u) : Grows s u where
  params := h'.params.trans h.params
  hits := h.hits.trans h'.hits
  rsp := h.rsp.trans h'.rsp
  evts := h.evts.trans h'.evts
  tx := h.tx.trans h'.tx
  answers m hm := (h'.answers m hm).elim (fun hm => (h.answers m hm).imp_right (·.trans h'.caller.symm)) .inr
  caller := h'.caller.trans h.caller

/-- A response is the one thing that adds to RSP. -/
theorem grows_respond (r : Response) (s : State) : Grows s (respond r s) where
  params := rfl
  hits := List.prefix_refl _
  rsp := List.prefix_append _ _
  evts := List.prefix_refl _
  tx := List.prefix_refl _
  answers m hm := (List.mem_append.mp hm).imp_right fun h => by rw [List.mem_singleton.mp h]; rfl
  caller := rfl

theorem grows_sendEvt (e : Evt) (s : State) : Grows s (sendEvt e s) :=
  grows_of_rsp_eq rfl (List.prefix_refl _) rfl (List.prefix_append _ _) (List.prefix_refl _) rfl

theorem grows_runDecode (p : List Byte) (bi ri : Nat) (s : State) : Grows s (runDecode p bi ri s) :=
  grows_of_rsp_eq rfl (List.prefix_append _ _) rfl (List.prefix_refl _) (List.prefix_refl _) rfl

theorem grows_flush (s : State) : Grows s (flush s).state := by
  obtain ⟨hp, hhits, hrsp, hevts, htx⟩ := flush_grow s
  exact grows_of_rsp_eq hp (hhits ▸ List.prefix_refl _) hrsp (hevts ▸ List.prefix_refl _) htx (flush_caller s)

/-- An operation on the engine's registers alone. -/
theorem grows_of_ports_eq {s t : State} (hp : t.params = s.params) (hh : t.hits = s.hits) (hr : t.rsp = s.rsp) (he : t.evts = s.evts)
    (hx : t.tx = s.tx) (hc : t.caller = s.caller) : Grows s t :=
  grows_of_rsp_eq hp (hh ▸ List.prefix_refl _) hr (he ▸ List.prefix_refl _) (hx ▸ List.prefix_refl _) hc

theorem grows_acceptOp (q : QueueOp) (s : State) : Grows s (acceptOp q s) :=
  (grows_of_ports_eq (s := s) (t := appendOp q s) rfl rfl rfl rfl rfl rfl).trans (grows_respond _ _)

theorem grows_command {i : Instr} {s t : State} (hi : i.isCommand = true) (h : exec i s = .next t) : Grows s t := by
  rcases command_cases hi h with ⟨r, rfl⟩ | ⟨r, rfl⟩ | ⟨q, _, _, _, _, _, _, _, ⟨_, rfl⟩ | rfl⟩ | ⟨r, p, bi, ri, rfl⟩ |
    ⟨r, e, rfl⟩ | ⟨r, e, p, bi, ri, rfl⟩ | rfl
  · exact grows_respond r s
  · exact (grows_flush s).trans (grows_respond r _)
  · exact grows_acceptOp q s
  · exact (grows_flush s).trans (grows_acceptOp q _)
  · exact (grows_runDecode p bi ri s).trans (grows_respond r _)
  · exact (grows_sendEvt e s).trans (grows_respond r _)
  · exact (grows_runDecode p bi ri s).trans ((grows_sendEvt e _).trans (grows_respond r _))
  · exact (grows_of_ports_eq (s := s) (t := resetEngine s) rfl rfl rfl rfl rfl rfl).trans (grows_respond _ _)

/-- The end of a decode is an event, if there is one, and a response. -/
theorem grows_decodeEnded (s : State) (v : Verdict) : Grows s (decodeEnded s v) := by
  rw [← endStream_eq, endStream]
  have hidle : Grows s { s with activity := .command, event := none } := grows_of_ports_eq rfl rfl rfl rfl rfl rfl
  cases s.event with
  | none => exact hidle.trans (grows_respond _ _)
  | some info => exact hidle.trans ((grows_sendEvt _ _).trans (grows_respond _ _))

/-- The end of a walk that failed is a response. -/
theorem grows_walkFailed (s : State) (e : Error) : Grows s (walkFailed s e) :=
  (grows_of_ports_eq (s := s) (t := { dropBatch s with resume := none, activity := .command }) rfl rfl rfl rfl rfl rfl).trans
    (grows_respond (.error e) _)

/-- The end of a walk that accepted is a response, or the append a QUEUE goes on with. -/
theorem grows_endFlush (ws : List Word) (s : State) : Grows s (endFlush none (acceptReply ws s)) := by
  have haccept : Grows s { acceptReply ws s with activity := .command, resume := none } := grows_of_ports_eq rfl rfl rfl rfl rfl rfl
  rw [endFlush_none_eq]
  cases (acceptReply ws s).resume with
  | none => exact haccept.trans (grows_respond _ _)
  | some q => exact haccept.trans (grows_acceptOp q _)

/-- Settles O59: every case of a step only grows the ports, and only the fetch of a command changes the caller. -/
theorem outputsOnlyGrow : Obligations.OutputsOnlyGrow := by
  intro s t h
  have hgoal (hg : Grows s t) : t.params = s.params ∧ s.hits <+: t.hits ∧ s.rsp <+: t.rsp ∧ s.evts <+: t.evts ∧ s.tx <+: t.tx ∧
      (∀ m ∈ t.rsp, m ∈ s.rsp ∨ m.caller = t.caller) ∧ (t.caller = s.caller ∨ t.caller < s.params.nHosts) :=
    ⟨hg.params, hg.hits, hg.rsp, hg.evts, hg.tx, hg.answers, .inl hg.caller⟩
  rcases step_cases h with ⟨_, _, rfl⟩ | ⟨c, rest, _, _, hc, hn, hx⟩ | ⟨d, hs, _, _, _, rfl⟩ | ⟨v, _, rfl⟩ |
    ⟨r, data, code, _, _, _, rfl⟩ | ⟨e, _, rfl⟩ | ⟨_, _, rfl⟩
  · exact hgoal (grows_of_ports_eq rfl rfl rfl rfl rfl rfl)
  · have hg := grows_command hc hx
    exact ⟨hg.params, hg.hits, hg.rsp, hg.evts, hg.tx, hg.answers, .inr (by rw [hg.caller]; exact hn)⟩
  · exact hgoal (grows_of_rsp_eq rfl (List.prefix_append _ _) rfl (List.prefix_refl _) (List.prefix_refl _) rfl)
  · exact hgoal (grows_decodeEnded s v)
  · exact hgoal (grows_of_ports_eq rfl rfl rfl rfl rfl rfl)
  · exact hgoal (grows_walkFailed s e)
  · exact hgoal (grows_endFlush _ s)

end Sys2Proof.Machine
end

section
/-! # EXECUTE

The proofs of O11 and O17 to O23 (41_transport_engine.md R149 to R163). FLUSH ends in one of four ways: nothing pending, no usable
reply, a duplicate, or the walk over the batch; the walk goes through right replies and stops at the first that is wrong. -/

namespace Sys2Proof.Machine

/-! ## FLUSH without a walk -/

/-- A datagram in INBUF, the batch dropped. -/
theorem dropBatch_received (s : State) (bs : List Byte) :
    dropBatch { afterReceive (sendBatch s) with inbuf := bs } = executed s bs s.slots s.lastId s.lastValid := by
  rw [afterReceive_sendBatch]
  rfl

/-- A timeout drops the batch (R158). -/
theorem flush_timeout {s : State} (hb : s.batch ≠ []) (hrx : received s = .timeout) :
    flush s = ⟨executed s s.inbuf s.slots s.lastId s.lastValid, some .transportTimeout⟩ := by
  rw [flush, if_neg (by simpa using hb), hrx, afterReceive_sendBatch]
  rfl

/-- A datagram is checked against the batch. -/
theorem flush_datagram {s : State} {bs : List Byte} (hb : s.batch ≠ []) (hrx : received s = .datagram bs) :
    flush s = flushReply bs (afterReceive (sendBatch s)) := by
  rw [flush, if_neg (by simpa using hb), hrx]

/-- The length check of R150. -/
theorem badLength_iff (bs : List Byte) : badLength bs = true ↔ bs.length % 4 ≠ 0 ∨ bs.length < 4 := by
  simp [badLength, Config.pktHdrWords]

/-- A datagram that is no packet drops the batch (R150). -/
theorem flush_badLength {s : State} {bs : List Byte} (hb : s.batch ≠ []) (hrx : received s = .datagram bs)
    (hlen : bs.length % 4 ≠ 0 ∨ bs.length < 4) :
    flush s = ⟨executed s bs s.slots s.lastId s.lastValid, some (.shortReply bs.length)⟩ := by
  rw [flush_datagram hb hrx, flushReply]
  dsimp only
  rw [if_pos ((badLength_iff bs).mpr hlen), dropBatch_received]

/-- A duplicate drops the batch without an error (R151). -/
theorem flush_duplicate {s : State} {w : Word} {more : List Word} {bs : List Byte} (hb : s.batch ≠ [])
    (hrx : received s = .datagram bs) (hbs : bs = (w :: more).flatMap bigEndian) (hv : s.lastValid = true)
    (hid : idOf w = s.lastId.toNat) : flush s = ⟨executed s bs s.slots s.lastId s.lastValid, none⟩ := by
  have hlen : ¬ badLength bs = true := by
    rw [badLength_iff, hbs, bigEndian_eq, length_flatMap_beBytes, List.length_cons]
    omega
  have hdup : isDuplicate (replyWords bs) { afterReceive (sendBatch s) with inbuf := bs } = true := by
    rw [hbs, bigEndian_eq, replyWords_flatMap, isDuplicate_iff]
    simpa using ⟨hv, hid⟩
  rw [flush_datagram hb hrx, flushReply]
  dsimp only
  rw [if_neg hlen, if_pos hdup, dropBatch_received]

/-- EXECUTE when its FLUSH fails. -/
theorem execute_of_flush_error {s t : State} {e : Error} (h : flush s = ⟨t, some e⟩) :
    exec .execute s = .next (answered t (.error e)) := by
  rw [execute_flush, h]

/-- EXECUTE when its FLUSH succeeds. -/
theorem execute_of_flush_ok {s t : State} (h : flush s = ⟨t, none⟩) : exec .execute s = .next (answered t (.ok .unit)) := by
  rw [execute_flush, h]

/-- Settles O17: an empty batch is not flushed, and a timeout or a datagram that is no packet ends the flush at once. -/
theorem executeWithoutReply : Obligations.ExecuteWithoutReply :=
  ⟨fun _ hb => execute_of_flush_ok (flush_of_empty hb), fun _ hb hrx => execute_of_flush_error (flush_timeout hb hrx),
    fun _ _ hb hrx hlen => execute_of_flush_error (flush_badLength hb hrx hlen)⟩

/-- Settles O18: the duplicate check comes before the walk. -/
theorem executeDuplicate : Obligations.ExecuteDuplicate :=
  fun _ _ _ _ hb hrx hbs hv hid => execute_of_flush_ok (flush_duplicate hb hrx hbs hv hid)

/-! ## The walk over right replies -/

/-- A batch of right replies is stored and accepted (R155, R157). -/
theorem checkBatch_all_good {s : State} {pairs : List (TxnRecord × List Word)} (hb : s.batch = pairs.map Prod.fst)
    (hd : RightData pairs) (extra : List Word) :
    checkBatch (goodReplies pairs ++ extra) 0 s.batch s.slots = (storedAll pairs s.slots, none) := by
  have hwalk := checkBatch_good pairs [] extra [] s.slots hd
  rw [List.append_nil] at hwalk
  rw [hb]
  exact hwalk

/-- The first id of a reply that begins with right replies. -/
theorem firstId_goodReplies (p : TxnRecord × List Word) (pairs : List (TxnRecord × List Word)) (extra : List Word) :
    firstId (goodReplies (p :: pairs) ++ extra) = p.1.txnId := by
  rw [goodReplies_head]
  simp [firstId, Config.pktHdrWords, unpack_headerWord]

/-- A reply that begins with the right header of the first record is no duplicate unless that record has LAST_ID. -/
theorem fresh_goodReplies {s : State} {p : TxnRecord × List Word} (h : s.lastValid = true → p.1.txnId ≠ s.lastId)
    (pairs : List (TxnRecord × List Word)) (extra : List Word) : Fresh s (goodReplies (p :: pairs) ++ extra) := by
  intro hv w tl hw hid
  have hfirst := firstId_goodReplies p pairs extra
  rw [hw] at hfirst
  rw [← unpack_id_iff] at hid
  exact h hv (hfirst.symm.trans hid)

/-- Storing keeps the slots canonical. -/
theorem storedAll_wf (pairs : List (TxnRecord × List Word)) {sl : Slots} (h : Slots.wf sl) : Slots.wf (storedAll pairs sl) := by
  induction pairs generalizing sl with
  | nil => exact h
  | cons p pairs ih => exact ih (Slots.store_wf _ _ _ h)

/-- Records that store nothing into a slot leave it. -/
theorem read_storedAll_other {pairs : List (TxnRecord × List Word)} {name : Nat}
    (h : ∀ x ∈ pairs, x.1.slot = some name → x.2 = []) (sl : Slots) : Slots.read (storedAll pairs sl) name = Slots.read sl name := by
  induction pairs generalizing sl with
  | nil => rfl
  | cons p pairs ih =>
    obtain ⟨hp, hrest⟩ := List.forall_mem_cons.mp h
    exact (ih hrest _).trans (read_store_other _ _ _ _ hp)

/-- The last record with data for a slot decides what the slot holds. -/
theorem read_storedAll_last {before after : List (TxnRecord × List Word)} {q : TxnRecord × List Word} {name : Nat} {sl : Slots}
    (hwf : Slots.wf sl) (hslot : q.1.slot = some name) (hdata : q.2 ≠ []) (hafter : ∀ x ∈ after, x.1.slot = some name → x.2 = []) :
    Slots.read (storedAll (before ++ q :: after) sl) name = q.2 := by
  have hsplit : storedAll (before ++ q :: after) sl = storedAll after (Slots.store (storedAll before sl) q.1.slot q.2) := by
    simp [storedAll]
  rw [hsplit, read_storedAll_other hafter, Slots.read_store _ _ _ _ (storedAll_wf before hwf), if_pos ⟨hslot, hdata⟩]

/-- Settles O19: the walk stores every reply and accepts, and a slot holds the last data stored into it. -/
theorem executeAcceptsBatch : Obligations.ExecuteAcceptsBatch := by
  intro s p pairs extra bs hb hd hrx hbs hid
  refine ⟨?_, fun hwf before after q name hsplit hslot hdata hafter => ?_⟩
  · have hpending : s.batch ≠ [] := by rw [hb]; nofun
    rw [execute_datagram s _ bs hpending hrx hbs (by rw [goodReplies_head]; nofun) (fresh_goodReplies hid pairs extra),
      checkBatch_all_good hb hd, firstId_goodReplies]
  · rw [hsplit]
    exact read_storedAll_last hwf hslot hdata hafter

/-! ## The walk that stops -/

/-- EXECUTE stops at the first record whose reply is wrong, with the replies before it stored (R152 to R156). -/
theorem execute_stops {s : State} {pairs : List (TxnRecord × List Word)} {r : TxnRecord} {later : List TxnRecord} {w : Word}
    {more : List Word} {bs : List Byte} {e : Error} (hb : s.batch = pairs.map Prod.fst ++ r :: later) (hd : RightData pairs)
    (hrx : received s = .datagram bs) (hbs : bs = (goodReplies pairs ++ w :: more).flatMap bigEndian)
    (hf : Fresh s (goodReplies pairs ++ w :: more))
    (he : recordReplyAt w (goodReplies pairs ++ w :: more) (goodReplies pairs).length r = .error e) :
    exec .execute s = .next (answered (executed s bs (storedAll pairs s.slots) s.lastId s.lastValid) (.error e)) := by
  have hpending : s.batch ≠ [] := by rw [hb]; simp
  have hreply : recordReply (goodReplies pairs ++ w :: more) (goodReplies pairs).length r = .error e := by
    simp only [recordReply, List.getElem?_append_right (Nat.le_refl _), Nat.sub_self, List.getElem?_cons_zero, he]
  rw [execute_datagram s _ bs hpending hrx hbs (by simp) hf, checkBatch_run s pairs r later _ hb hd, hreply]

/-- A header that fails a check is the record's error. -/
theorem recordReplyAt_error {w : Word} {r : TxnRecord} {e : Error} (h : EarlyFault w r e ∨ LateFault w r e) (ws : List Word) (p : Nat) :
    recordReplyAt w ws p r = .error e := by
  rw [recordReplyAt, (headerError_some w r e).mpr h]

/-- A right header without all its data is a short reply (R155). -/
theorem recordReplyAt_short {w : Word} {r : TxnRecord} (h : RightHeader w r) {ws : List Word} {p : Nat}
    (hlen : ws.length < p + 1 + replyData r) : recordReplyAt w ws p r = .error (.shortReply (4 * (p + 1 + replyData r))) := by
  rw [recordReplyAt, (headerError_none w r).mpr h, data_eq]
  exact if_pos hlen

/-- EXECUTE stops at a record the reply has no header for (R152). -/
theorem execute_missingHeader {s : State} {pairs : List (TxnRecord × List Word)} {r : TxnRecord} {later : List TxnRecord} {bs : List Byte}
    (hb : s.batch = pairs.map Prod.fst ++ r :: later) (hd : RightData pairs) (hrx : received s = .datagram bs)
    (hbs : bs = (goodReplies pairs).flatMap bigEndian) (hf : Fresh s (goodReplies pairs)) :
    exec .execute s = .next (answered (executed s bs (storedAll pairs s.slots) s.lastId s.lastValid)
      (.error (.shortReply (4 * (goodReplies pairs).length)))) := by
  have hpending : s.batch ≠ [] := by rw [hb]; simp
  cases pairs with
  | nil =>
    subst hbs
    exact execute_of_flush_error (flush_badLength hpending hrx (.inr (by decide)))
  | cons p pairs =>
    have hreply : recordReply (goodReplies (p :: pairs)) (goodReplies (p :: pairs)).length r =
        .error (.shortReply (4 * (goodReplies (p :: pairs)).length)) := by
      rw [recordReply, List.getElem?_eq_none (Nat.le_refl _)]
    have hrun := checkBatch_run s (p :: pairs) r later [] hb hd
    rw [List.append_nil, hreply] at hrun
    rw [execute_datagram s _ bs hpending hrx hbs (by rw [goodReplies_head]; nofun) hf, hrun]

/-- Settles O20: the record's header is missing, or is the first to fail one of the three early checks. -/
theorem executeChecksVersionIdKind : Obligations.ExecuteChecksVersionIdKind :=
  fun _ _ _ _ _ hb hd hrx => ⟨fun hbs hf => execute_missingHeader hb hd hrx hbs hf,
    fun _ _ _ hbs hf he => execute_stops hb hd hrx hbs hf (recordReplyAt_error (.inl he) _ _)⟩

/-- Settles O21: the header fails a late check, or passes them all and its data is cut off. -/
theorem executeChecksCodeCountData : Obligations.ExecuteChecksCodeCountData := by
  intro s pairs r later w more bs hb hd hrx hbs hf
  refine ⟨fun e he => execute_stops hb hd hrx hbs hf (recordReplyAt_error (.inr he) _ _), fun hright hshort => ?_⟩
  exact execute_stops hb hd hrx hbs hf (recordReplyAt_short hright (by simp; omega))

/-! ## Versions -/

/-- Every header word has version 2. -/
theorem versionOf_headerWord (k : OpKind) (n : BitVec 12) (t : Byte) (c : BitVec 4) : versionOf (headerWord k n t c) = 2 := by
  rw [← unpack_version_iff, unpack_headerWord]

/-- A request's first word is its header. -/
theorem requestBytes_head (r : TxnRecord) : ∃ tl, requestBytes r = beBytes (requestHeader r.opKind r.wordCount r.txnId) ++ tl := by
  unfold requestBytes requestWords
  cases r.opKind <;> exact ⟨_, rfl⟩

/-- ENCODE_HEADER answers with a word only where its checks let it build one. -/
theorem exec_encodeHeader_inv {n t : Nat} {op : BitVec 4} {s : State} {w : Word}
    (h : exec (.encodeHeader n op t) s = .next (answered s (.ok (.header w)))) : encodedHeader n op t = .ok w := by
  cases hw : encodedHeader n op t with
  | ok w' =>
    rw [exec_encodeHeader_ok hw] at h
    cases answered_inj (Host.Outcome.next.inj h)
    rfl
  | error e =>
    rw [exec_encodeHeader_error hw] at h
    cases answered_inj (Host.Outcome.next.inj h)

/-- Settles O11: the header words the block builds have version 2, and the version is the first check of a reply header. -/
theorem headerVersionIsTwo : Obligations.HeaderVersionIsTwo := by
  refine ⟨fun n op t s w h => ?_, fun r => ?_, fun s pairs r later w more bs hb hd hrx hbs hf hv => ?_⟩
  · obtain ⟨-, -, k, -, rfl⟩ := encodedHeader_inv (exec_encodeHeader_inv h)
    exact versionOf_headerWord _ _ _ _
  · obtain ⟨tl, htl⟩ := requestBytes_head r
    exact ⟨_, tl, by rw [bigEndian_eq]; exact htl, versionOf_headerWord _ _ _ _⟩
  · exact execute_stops hb hd hrx hbs hf (recordReplyAt_error (.inl (.inl ⟨hv, rfl⟩)) _ _)

/-! ## One datagram, and the empty batch -/

/-- The engine's ports and the draw counter. -/
def portView (s : State) : List (List Byte) × List Delivery × Nat := (s.tx, s.rx, s.draws)

/-- A reply header, a chip word and a command other than QUEUE and EXECUTE send and receive nothing. -/
theorem portView_other {i : Instr} {s t : State} (he : i ≠ .execute) (hr : i ≠ .reset)
    (hq : ∀ op n addr wdata slot, i ≠ .queue op n addr wdata slot) (h : exec i s = .next t) : portView t = portView s := by
  obtain ⟨hcmd, hspace, -⟩ := Laws.encodedBytes i
  cases hi : i.space with
  | none =>
    rcases decoderCommand_cases (hcmd.mpr (hspace.mp hi)) he hr hq h with ⟨r, rfl⟩ | ⟨r, p, bi, ri, rfl⟩ | ⟨r, e, rfl⟩ |
      ⟨r, e, p, bi, ri, rfl⟩ <;> rfl
  | some space =>
    cases space with
    | header =>
      obtain ⟨w, rfl⟩ := header_cases hi h
      rw [resolveHeader_frame]
      rfl
    | chip => rcases chip_cases hi h with ⟨d, hs, rfl⟩ | ⟨v, -, rfl⟩ <;> rfl

/-- Settles O22: only FLUSH sends and receives, once, and only a QUEUE and an EXECUTE run it, at most once. -/
theorem flushSendsOneDatagram : Obligations.FlushSendsOneDatagram := by
  refine ⟨fun s hb => ⟨_, execute_flush s, ?_⟩, fun s hb => ⟨_, execute_flush s, ?_⟩, fun op n addr wdata slot s => ?_,
    fun i s t he hq h => ?_⟩
  · rcases flush_tx s with ⟨hempty, -⟩ | ⟨-, hports⟩
    · exact absurd hempty hb
    · exact hports
  · rw [flush_of_empty hb]
    exact ⟨rfl, rfl, rfl⟩
  · obtain ⟨t, ht⟩ := queue_goesOn op n addr wdata slot s
    have hflush := (flush_tx s).imp_left (fun h => h.2)
    refine ⟨t, ht, ?_⟩
    rcases queue_cases ht with ⟨e, rfl⟩ | ⟨e, -, -, rfl⟩ | ⟨q, -, -, ⟨-, rfl⟩ | ⟨-, -, rfl⟩⟩
    · exact .inl ⟨rfl, rfl, rfl⟩
    · exact hflush
    · exact .inl ⟨rfl, rfl, rfl⟩
    · exact hflush
  · by_cases hr : i = .reset
    · subst hr
      cases h
      exact ⟨rfl, rfl, fun hne => absurd rfl hne⟩
    · have hports := portView_other he hr hq h
      simp only [portView, Prod.mk.injEq] at hports
      exact ⟨hports.1, hports.2.1, fun _ => hports.2.2⟩

/-- After FLUSH both lengths are 0, since those of an empty batch already were. -/
theorem EngineInv.flush_lengths {s : State} (h : EngineInv s) : (Machine.flush s).state.outLen = 0 ∧ (Machine.flush s).state.inLen = 0 := by
  have hout := h.flush.outLenIs
  have hin := h.flush.inLenIs
  rw [flush_batch] at hout hin
  exact ⟨hout, hin⟩

/-- Settles O23: EXECUTE is FLUSH and its answer, and FLUSH changes what is listed and nothing else. -/
theorem executeEmptiesBatch : Obligations.ExecuteEmptiesBatch := by
  intro s h
  obtain ⟨hout, hin⟩ := h.flush_lengths
  refine ⟨(flush s).state, _, execute_flush s, ?_, ?_, flush_slots s⟩
  · cases he : (flush s).error with
    | none => exact .inl rfl
    | some e => exact .inr ⟨e, rfl, flush_error_last s e he⟩
  · have hframe := flush_frame s
    rw [hout, hin] at hframe
    exact hframe

end Sys2Proof.Machine
end

section
/-! # A reply word by word

The proofs of O24 to O26 (41_transport_engine.md R152 to R157): one reply header resolves its record or drops the batch, and the
walk over the records, one step each, ends where the check of the whole batch ends. -/

namespace Sys2Proof.Machine

/-! ## One reply header -/

/-- With no record left the word is ignored (R157). -/
theorem resolveHeader_none {s : State} (h : s.batch[s.recIdx]? = none) (w : Word) : resolveHeader w s = s := by
  rw [resolveHeader, h]

/-- A wrong reply drops the batch (R156). -/
theorem resolveHeader_error {s : State} {r : TxnRecord} {w : Word} {e : Error} (hr : s.batch[s.recIdx]? = some r)
    (he : recordReplyAt w (replyWords s.inbuf) s.wordPos r = .error e) : resolveHeader w s = walkFailed s e := by
  simp only [resolveHeader, hr, he, failRecord_eq]

/-- A right reply resolves its record (R155). -/
theorem resolveHeader_ok {s : State} {r : TxnRecord} {w : Word} {data : List Word} (hr : s.batch[s.recIdx]? = some r)
    (hd : recordReplyAt w (replyWords s.inbuf) s.wordPos r = .ok data) : resolveHeader w s = { s with
      batch := s.batch.set s.recIdx { r with infoCode := some (unpackHeader w).infoCode, state := .resolved }
      slots := Slots.store s.slots r.slot data
      recIdx := s.recIdx + 1
      wordPos := s.wordPos + 1 + r.data } := by
  simp only [resolveHeader, hr, hd]

/-- Settles O24: the word is the right header of the record, and the data after it is the data stored. -/
theorem replyHeaderResolves : Obligations.ReplyHeaderResolves := by
  intro s r i before data after w hr hi hin hpos hdata
  have hinstr : i = r.opKind.instr r.wordCount r.txnId 0#4 := by
    rcases hi with ⟨rfl, hk⟩ | ⟨rfl, hk⟩ | ⟨rfl, hk⟩ | ⟨rfl, hk⟩ | ⟨rfl, hk⟩ | ⟨rfl, hk⟩ | ⟨rfl, hk⟩ <;> rw [hk] <;> rfl
  have hreply := recordReplyAt_good s r before data after w hin hpos hdata (rightHeader_good r)
  rw [hinstr, exec_instr, resolveHeader_ok hr hreply, unpack_headerWord, data_eq]
  cases r.slot <;> simp [Slots.store]

/-- Settles O25: no record, a failed check, and data that is cut off are the branches of the rule. -/
theorem replyHeaderFails : Obligations.ReplyHeaderFails := by
  intro s i w hspace henc
  rw [exec_header i w s hspace henc]
  refine ⟨fun hnone => ?_, fun r e hr he => ?_, fun r ws hr hright hin hshort => ?_⟩
  · rw [resolveHeader_none hnone]
  · rw [resolveHeader_error hr (recordReplyAt_error he _ _)]
  · have hwords : replyWords s.inbuf = ws := by rw [hin, bigEndian_eq, replyWords_flatMap]
    rw [resolveHeader_error hr (by rw [hwords]; exact recordReplyAt_short hright hshort)]

/-! ## The walk -/

/-- Where a walk over the reply `ws` that began in state `s` ends, by the result of the check of the whole batch: what the walk
itself writes, but for the slots, is dropped at its end. -/
def walkEnd (ws : List Word) (s : State) : Slots × Option Error → State
  | (sl, some e) => walkFailed { s with slots := sl } e
  | (sl, none) => endFlush none (acceptReply ws { s with slots := sl })

/-- The state after record `r`, whose turn it is, has passed with info code `code` and the data `data`. -/
def afterRecord (s : State) (r : TxnRecord) (code : BitVec 4) (data : List Word) : State :=
  { s with
    batch := s.batch.set s.recIdx { r with infoCode := some code, state := .resolved }
    slots := Slots.store s.slots r.slot data
    recIdx := s.recIdx + 1
    wordPos := s.wordPos + 1 + r.data }

/-- A step at a record by what its reply is. -/
theorem step_reply_error {s : State} {r : TxnRecord} {e : Error} (ha : s.activity = .reply) (hr : s.batch[s.recIdx]? = some r)
    (he : recordReply (replyWords s.inbuf) s.wordPos r = .error e) : step s = .next (walkFailed s e) := by
  rw [step_reply s r ha hr, he]

theorem step_reply_ok {s : State} {r : TxnRecord} {data : List Word} (ha : s.activity = .reply) (hr : s.batch[s.recIdx]? = some r)
    (hd : recordReply (replyWords s.inbuf) s.wordPos r = .ok data) : ∃ code, step s = .next (afterRecord s r code data) :=
  ⟨_, by rw [step_reply s r ha hr, hd]; rfl⟩

/-- What a record writes is dropped at the walk's end, but for the slots. -/
theorem walkEnd_afterRecord (ws : List Word) (s : State) (r : TxnRecord) (code : BitVec 4) (data : List Word)
    (result : Slots × Option Error) : walkEnd ws (afterRecord s r code data) result = walkEnd ws s result := by
  rcases result with ⟨sl, _ | e⟩ <;> rfl

/-- The walk over the records that are left takes one step for each of them at most, and one for the end. -/
theorem walk_ends (ws : List Word) (rs : List TxnRecord) : ∀ s : State, s.activity = .reply → s.batch.drop s.recIdx = rs →
    replyWords s.inbuf = ws →
    ∃ k, k ≤ rs.length + 1 ∧ runSteps k s = .next (walkEnd ws s (checkBatch ws s.wordPos rs s.slots)) := by
  induction rs with
  | nil =>
    intro s ha hdrop hws
    have hnone : s.batch[s.recIdx]? = none := List.getElem?_eq_none (List.drop_eq_nil_iff.mp hdrop)
    have hstep := step_reply_done s ha hnone
    rw [hws] at hstep
    exact ⟨1, Nat.le_refl 1, runSteps_succ hstep 0⟩
  | cons r rs ih =>
    intro s ha hdrop hws
    have hr : s.batch[s.recIdx]? = some r := by rw [← List.head?_drop, hdrop]; rfl
    have hrest : s.batch.drop (s.recIdx + 1) = rs := by rw [← List.tail_drop, hdrop]; rfl
    rw [checkBatch]
    cases hreply : recordReply ws s.wordPos r with
    | error e => exact ⟨1, by omega, runSteps_succ (step_reply_error ha hr (by rw [hws]; exact hreply)) 0⟩
    | ok data =>
      obtain ⟨code, hstep⟩ := step_reply_ok ha hr (by rw [hws]; exact hreply)
      have hdrop' : (afterRecord s r code data).batch.drop (afterRecord s r code data).recIdx = rs := by
        rw [afterRecord, List.drop_set_of_lt (Nat.lt_succ_self _), hrest]
      obtain ⟨k, hk, hrun⟩ := ih (afterRecord s r code data) ha hdrop' hws
      rw [walkEnd_afterRecord] at hrun
      exact ⟨k + 1, Nat.succ_le_succ hk, (runSteps_succ hstep k).trans hrun⟩

/-- Settles O26: the walk begins at the first record with the state FLUSH has after its receive. -/
theorem replyWalkIsExecute : Obligations.ReplyWalkIsExecute := by
  intro s w more bs hb ha hres hrx hbs hf
  have hws : replyWords bs = w :: more := by rw [hbs, bigEndian_eq, replyWords_flatMap]
  rw [execute_datagram s _ bs hb hrx hbs nofun hf]
  obtain ⟨k, hk, hrun⟩ := walk_ends (w :: more) s.batch { s with
    activity := .reply
    tx := s.tx ++ [Memory.readBytes s.outbuf 0 s.outLen]
    rx := s.rx.tail
    draws := drawsAfterReceive s
    inbuf := bs
    recIdx := 0
    wordPos := 0 } rfl rfl hws
  refine ⟨k, hk, hrun.trans ?_⟩
  dsimp only
  rcases checkBatch (w :: more) 0 s.batch s.slots with ⟨sl, _ | e⟩
  · simp only [walkEnd, endFlush_none_eq, acceptReply_resume, hres, answered, executed, respond, ha]
    rfl
  · simp only [walkEnd, walkFailed, answered, executed, hres, ha]

end Sys2Proof.Machine
end

section
/-! # RESET

The proofs of O27 and O28 (70_reset_and_hazards.md R320 to R324; 10_state.md R53, R54; 00_scope.md R8). -/

namespace Sys2Proof.Machine

/-- Settles O27: the free LAST_ID and the draw it costs are the two values left open. -/
theorem resetEffect : Obligations.ResetEffect := fun s => ⟨Config.freeLastId s.draws, s.draws + 1, rfl⟩

/-- There is one caller at least, whatever the run's constant is. -/
theorem nHosts_pos : 1 ≤ Config.nHosts := Nat.succ_le_succ (Nat.zero_le _)

/-- Settles O28: the values of `State.resetFor`, with the parameters of R8 for the state after reset. -/
theorem resetStateValues : Obligations.ResetStateValues :=
  ⟨fun _ => ⟨rfl, rfl, rfl, rfl⟩, rfl, nHosts_pos, rfl, rfl, rfl, rfl, rfl, rfl, rfl, rfl, rfl, rfl, rfl, rfl, rfl, rfl, rfl, rfl, rfl,
    rfl, rfl, rfl, rfl⟩

end Sys2Proof.Machine
end

section
/-! # Chip words that emit no hits

The proofs of O30 and O31 (43_bitstream_decoder.md R226 to R228). -/

namespace Sys2Proof.Machine

theorem exec_chipHeader (c : BitVec 4) (bc : BitVec 8) (s : State) :
    exec (.chipHeader c bc) s = .next (runWord 2 (wordChipHeader c bc s.decoder) s) := rfl

theorem exec_emptyFrame (c : BitVec 4) (bc : BitVec 8) (s : State) :
    exec (.emptyFrame c bc) s = .next (runWord 2 (wordEmptyFrame c bc s.decoder) s) := rfl

theorem exec_chipTrailer (f : BitVec 4) (s : State) :
    exec (.chipTrailer f) s = .next (runWord 1 (wordChipTrailer f s.decoder) s) := rfl

/-- Settles O30: neither word has a check. -/
theorem chipHeaderAndEmptyFrame : Obligations.ChipHeaderAndEmptyFrame := fun c bc s =>
  ⟨by rw [exec_chipHeader, wordChipHeader, runWord_advance_nil], by rw [exec_emptyFrame, wordEmptyFrame, runWord_advance_nil]⟩

/-- An aborting word ends the decode. -/
theorem runWord_abort (n : Nat) (v : Verdict) (s : State) : runWord n (.abort v) s = decodeEnded s v := endStream_eq v s

section
variable {d : DecoderState}

/-- The three cases of a CHIP_TRAILER. -/
theorem wordChipTrailer_unstarted (h : d.started = false) (f : BitVec 4) :
    wordChipTrailer f d = .abort (.trailerBeforeHeader d.cursor) := if_pos h

theorem wordChipTrailer_finished (hst : d.started = true) (hfin : d.finished = true) (f : BitVec 4) :
    wordChipTrailer f d = .abort (.trailerAfterFinished d.cursor) := by
  rw [wordChipTrailer, if_neg (by simp [hst]), if_pos hfin]

theorem wordChipTrailer_open (hst : d.started = true) (hfin : d.finished = false) (f : BitVec 4) :
    wordChipTrailer f d = .advance { d with trlFlags := some f, finished := true, chip := none } [] := by
  rw [wordChipTrailer, if_neg (by simp [hst]), if_neg (by simp [hfin])]

end

/-- Settles O31: STARTED and then FINISHED decide. -/
theorem chipTrailerCases : Obligations.ChipTrailerCases := by
  intro f s
  refine ⟨fun hst => ?_, fun hst hfin => ?_, fun hst hfin => ?_⟩
  · rw [exec_chipTrailer, wordChipTrailer_unstarted hst, runWord_abort]
  · rw [exec_chipTrailer, wordChipTrailer_finished hst hfin, runWord_abort]
  · rw [exec_chipTrailer, wordChipTrailer_open hst hfin, runWord_advance_nil]

end Sys2Proof.Machine
end

section
/-! # The hits of data words

The proofs of O34, O35, O42, O43 and O60 (43_bitstream_decoder.md R231 to R239; 44_hit_quality_validator.md R260 to R269). -/

namespace Sys2Proof.Machine

/-- A base address keeps its value in the eleven bits of a hit. -/
theorem toNat_setWidth_address (a : BitVec 10) : (a.setWidth 11).toNat = a.toNat := by
  have := a.isLt
  rw [BitVec.toNat_setWidth]
  omega

/-- Settles O34: the hit and the DecoderState are the validator's for the one address. -/
theorem dataShortEmitsRuledHit : Obligations.DataShortEmitsRuledHit := by
  intro ld a s hst
  refine ⟨_, _, ?_, RuledAfter_afterHit s.boardIndex s.rcvIndex s.decoder _ _ _ _, exec_dataShort ld a s hst⟩
  rw [← toNat_setWidth_address a]
  exact RuledHit_built _ _ _ _ _

/-- Settles O35: the hits and the DecoderState are the validator's for the cluster's addresses, one after the other. -/
theorem dataLongEmitsRuledHits : Obligations.DataLongEmitsRuledHits := by
  intro ld a hm s hst
  refine ⟨_, _, ?_, (exec_dataLong ld a hm s hst).trans (by dsimp only; rw [validate_cursor])⟩
  rw [← cluster_numbers]
  exact RuledHits_validate _ _ _ _ _

/-! ## The flag of a hit -/

section
variable {chip : Option (BitVec 4)} {region : Option (BitVec 5)} {dcol : Option (BitVec 9)} {x : BitVec 11}

/-- The bounds checks in their order, the first failing one giving the flag (R261 to R265). -/
theorem boundsFlag_badChip (hc : badChip chip = true) : boundsFlag chip region dcol x = .badChipId := if_pos hc

theorem boundsFlag_badRegion (hc : badChip chip = false) (hr : region = none) : boundsFlag chip region dcol x = .badRegionId := by
  simp [boundsFlag, hc, (badRegion_iff region).mpr hr]

theorem boundsFlag_badDcol (hc : badChip chip = false) (hr : region ≠ none) (hd : dcol = none) :
    boundsFlag chip region dcol x = .badDcolId := by
  have hr' := mt (badRegion_iff region).mp hr
  simp [boundsFlag, hc, hr', (badDcol_iff dcol).mpr hd]

theorem boundsFlag_inside (hc : badChip chip = false) (hr : region ≠ none) (hd : dcol ≠ none) :
    boundsFlag chip region dcol x = if 1023 < x.toNat then .badAddress else .ok := by
  have hr' := mt (badRegion_iff region).mp hr
  have hd' := mt (badDcol_iff dcol).mp hd
  simp [boundsFlag, hc, hr', hd', storedAddress, Config.maxAddress]

variable {bi ri : Nat} {d : DecoderState}

/-- A failed bounds check is the flag of the hit. -/
theorem builtHit_flag_of_bounds {f : QualityFlag} (hf : boundsFlag chip region dcol x = f) (hok : f ≠ .ok) :
    (builtHit bi ri chip region dcol x d).flag = f := by
  simp [builtHit, hf, hok]

/-- Within the bounds the stuck check is (R266). -/
theorem builtHit_flag_of_ok (hf : boundsFlag chip region dcol x = .ok) : (builtHit bi ri chip region dcol x d).flag =
    if stuckCondition d region dcol (storedAddress chip x) = true then .stuck else .ok := by
  simp [builtHit, hf]

end

/-- Settles O60: the bounds checks in their order, then the stuck check. -/
theorem flagPriority : Obligations.FlagPriority := by
  intro bi ri chip region dcol x d
  refine ⟨builtHit bi ri chip region dcol x d, afterHit chip region dcol x d, rfl, fun hbad => ?_, fun c hchip hc => ?_⟩
  · have hbad : badChip chip = true := by rcases hbad with rfl | rfl <;> rfl
    exact builtHit_flag_of_bounds (boundsFlag_badChip hbad) nofun
  have hlegal : badChip chip = false := by rw [hchip]; exact badChip_some hc
  have hstuck := stuck_iff' d bi ri chip region dcol x
  refine ⟨fun hr => ?_, fun hr hd => ?_, fun hr hd hfar => ?_, fun hr hd hnear hs => ?_, fun hr hd hnear hs => ?_⟩
  · exact builtHit_flag_of_bounds (boundsFlag_badRegion hlegal hr) nofun
  · exact builtHit_flag_of_bounds (boundsFlag_badDcol hlegal hr hd) nofun
  · exact builtHit_flag_of_bounds ((boundsFlag_inside hlegal hr hd).trans (if_pos hfar)) nofun
  · have hok := (boundsFlag_inside (x := x) hlegal hr hd).trans (if_neg (Nat.not_lt.mpr hnear))
    rw [builtHit_flag_of_ok hok, if_pos (hstuck.mpr hs)]
  · have hok := (boundsFlag_inside (x := x) hlegal hr hd).trans (if_neg (Nat.not_lt.mpr hnear))
    rw [builtHit_flag_of_ok hok, if_neg (mt hstuck.mp hs)]

/-! ## Stuck hits -/

/-- A hit counts at most one detection (R267). -/
theorem afterHit_prioErrors_le (chip : Option (BitVec 4)) (region : Option (BitVec 5)) (dcol : Option (BitVec 9)) (x : BitVec 11)
    (d : DecoderState) : (afterHit chip region dcol x d).prioErrors ≤ d.prioErrors + 1 := by
  simp only [afterHit]
  split_ifs <;> omega

/-- Settles O42: the addresses of a cluster rise, so that none after the first is stuck against the one before it. -/
theorem clusterNotStuckInside : Obligations.ClusterNotStuckInside := by
  intro ld a hm s c hst hchip hc
  have hlegal : badChip s.decoder.chip = false := by rw [hchip]; exact badChip_some hc
  obtain ⟨x, xs, hxs⟩ : ∃ x xs, clusterAddresses a hm = x :: xs := ⟨_, _, rfl⟩
  have hrise := cluster_mono a hm
  rw [hxs, List.map_cons, List.pairwise_cons] at hrise
  obtain ⟨hfirst, hrest⟩ := hrise
  have hprev : ∀ p, (afterHit s.decoder.chip s.decoder.region (globalDcol s.decoder.region ld) x s.decoder).prev = some p →
      ∀ y ∈ xs, p.address.toNat < y.toNat := by
    rintro p ⟨⟩ y hy
    simp only [storedAddress, hlegal, Bool.false_eq_true, if_false]
    exact hfirst _ (List.mem_map_of_mem hy)
  obtain ⟨hflags, hcount⟩ := rising_not_stuck s.boardIndex s.rcvIndex _ s.decoder.region (globalDcol s.decoder.region ld) hlegal xs _
    hprev hrest
  have hexec := exec_dataLong ld a hm s hst
  rw [hxs] at hexec
  exact ⟨_, _, _, hexec, rfl, hflags, hcount.trans_le (afterHit_prioErrors_le _ _ _ _ _)⟩

/-- With a legal chip and a region a DATA_SHORT gives a hit at its address that is stuck or clean. -/
theorem dataShort_legal {ld : BitVec 4} {a : BitVec 10} {c : BitVec 4} {r : BitVec 5} {s t : State}
    (hx : exec (.dataShort ld a) s = .next t) (hst : s.decoder.started = true) (hchip : s.decoder.chip = some c) (hc : c ≠ 15#4)
    (hreg : s.decoder.region = some r) :
    ∃ h d, t = { s with decoder := { d with cursor := s.decoder.cursor + 2 }, hits := s.hits ++ [h] } ∧ RuledAfter s.decoder h d ∧
      h.region = some r ∧ h.dcol = globalDcol (some r) ld ∧ h.address.toNat = a.toNat ∧
      (StuckAgainst s.decoder h → h.flag = .stuck) ∧ (¬ StuckAgainst s.decoder h → h.flag = .ok) := by
  have hill : ¬ IllegalChip s.decoder := by
    rw [← badChip_iff, hchip, badChip_some hc]
    nofun
  have hsome : s.decoder.region ≠ none := by rw [hreg]; nofun
  have hnear : a.toNat ≤ 1023 := Nat.le_of_lt_succ a.isLt
  obtain ⟨h, d, hruled, hafter, hexec⟩ := dataShortEmitsRuledHit ld a s hst
  rw [hx] at hexec
  refine ⟨h, d, Host.Outcome.next.inj hexec, hafter, hruled.region.trans hreg, ?_, (hruled.legal c hchip hc).2,
    hruled.stuck hill hsome hnear, hruled.clean hill hsome hnear⟩
  obtain ⟨dc, hdc, hnum⟩ := hruled.dcol r hreg
  obtain ⟨gc, hgc, hgnum⟩ := globalDcol_toNat r ld
  rw [hdc, hgc, BitVec.eq_of_toNat_eq (hnum.trans hgnum.symm)]

/-- The first hit after a CHIP_HEADER is compared with none (R266). -/
theorem not_stuckAgainst_of_newEvent {d : DecoderState} {h : PixelHit} (hn : d.newEvent = true) : ¬ StuckAgainst d h := by
  rintro ⟨hold, -⟩
  rw [hn] at hold
  cases hold

/-- A clean hit counts nothing and leaves CORRUPT. -/
theorem RuledAfter.of_clean {d d' : DecoderState} {h : PixelHit} (ha : RuledAfter d h d') (hns : ¬ StuckAgainst d h)
    (hok : h.flag = .ok) : d'.prioErrors = d.prioErrors ∧ d'.corrupt = d.corrupt := by
  refine ⟨ha.notCounted hns, ?_⟩
  rw [Bool.eq_iff_iff, ha.corrupt]
  simp [hns, hok]

/-- A stuck hit counts one detection and makes the event corrupt. -/
theorem RuledAfter.of_stuck {d d' : DecoderState} {h : PixelHit} (ha : RuledAfter d h d') (hs : StuckAgainst d h) :
    d'.prioErrors = d.prioErrors + 1 ∧ d'.corrupt = true :=
  ⟨ha.counted hs, ha.corrupt.mpr (.inr (.inr hs))⟩

/-- Settles O43: NEW_EVENT keeps the first hit from being compared, and the second is compared with the first. -/
theorem stuckDetection : Obligations.StuckDetection := by
  intro ld a b c bc r s t u v hc hreg ht hu hv
  obtain ⟨hheader, -⟩ := chipHeaderAndEmptyFrame c bc s
  rw [hheader] at ht
  cases ht
  obtain ⟨h, d, rfl, hafter, hregion, hdcol, haddr, -, hclean⟩ := dataShort_legal hu rfl rfl hc hreg
  have hok := hclean (not_stuckAgainst_of_newEvent rfl)
  have hchip : d.chip = some c := congrArg DecoderState.chip hafter.others
  have hstarted : d.started = true := congrArg DecoderState.started hafter.others
  have hsame : d.region = some r := (congrArg DecoderState.region hafter.others).trans hreg
  obtain ⟨g, e, rfl, hafter', hregion', hdcol', haddr', hstuck', hclean'⟩ := dataShort_legal hv hstarted hchip hc hsame
  have hagainst : StuckAgainst { d with cursor := s.decoder.cursor + 2 + 2 } g ↔ b.toNat ≤ a.toNat := by
    rw [← haddr, ← haddr']
    refine ⟨fun ⟨_, _, p, hp, _, _, hle⟩ => ?_, fun hle => ⟨hafter.newEvent, by rw [hregion']; nofun, _, hafter.prev, ?_, ?_, hle⟩⟩
    · cases hp.symm.trans hafter.prev
      exact hle
    · exact hregion.trans hregion'.symm
    · exact hdcol.trans hdcol'.symm
  obtain ⟨hprio, hcorrupt⟩ := hafter.of_clean (not_stuckAgainst_of_newEvent rfl) hok
  refine ⟨h, g, rfl, List.append_assoc _ _ _, hok, hprio, hcorrupt, fun hle => ?_, fun hlt => ?_⟩
  · have hs := hagainst.mpr hle
    obtain ⟨hprio', hcorrupt'⟩ := hafter'.of_stuck hs
    exact ⟨hstuck' hs, hprio'.trans (congrArg (· + 1) hprio), hcorrupt'⟩
  · have hs := mt hagainst.mp (Nat.not_le.mpr hlt)
    obtain ⟨hprio', hcorrupt'⟩ := hafter'.of_clean hs (hclean' hs)
    exact ⟨hclean' hs, hprio'.trans hprio, hcorrupt'.trans hcorrupt⟩

end Sys2Proof.Machine
end

section
/-! # Decoding a payload

The proofs of O38 to O41 (43_bitstream_decoder.md R221, R222, R240 to R244): a step of the word-by-word run is one pass of the
loop, so that the run ends where the loop ends. -/

namespace Sys2Proof.Machine

/-! ## The end of a decode -/

/-- What the payload holds at CURSOR, as the decoder of the chip space reads it. -/
theorem decodeChipBytes_of_ok {bs rest : List Byte} {i : Instr} (h : decode .chip bs = .ok (i, rest)) :
    decodeChipBytes bs = .ok (i, rest) := by
  simp only [decode] at h
  split at h
  · cases h
    assumption
  · cases h

theorem decodeChipBytes_of_error {bs : List Byte} {e : ChipReject} (h : decode .chip bs = .error (.chip e)) :
    decodeChipBytes bs = .error e := by
  simp only [decode] at h
  split at h
  · cases h
  · cases h
    assumption

/-- Settles O38: the length check comes before the word's rule. -/
theorem cutOffWordEndsDecode : Obligations.CutOffWordEndsDecode := by
  intro s b0 tl ha hdrop hcut
  rw [step_stream s ha, hdrop, decodeChipBytes_of_error (decodeChip_cutOff hcut)]

/-- The step at the payload's end. -/
theorem step_endOfPayload {s : State} (ha : s.activity = .stream) (hend : s.payload.length ≤ s.decoder.cursor) :
    step s = .next (decodeEnded s (endVerdict s.decoder)) := by
  rw [step_stream s ha, List.drop_of_length_le hend]
  rfl

/-- Settles O39: the end verdict by its three flags. -/
theorem endOfPayloadVerdict : Obligations.EndOfPayloadVerdict := by
  intro s ha hend
  rw [step_endOfPayload ha hend]
  refine ⟨fun hst hfin hcor => ?_, fun hst hfin => ?_, fun hst => ?_, fun hst hfin hcor => ?_⟩
  · simp [endVerdict, hst, hfin, hcor]
  · simp [endVerdict, hst, hfin]
  · simp [endVerdict, hst]
  · simp [endVerdict, hst, hfin, hcor]

/-! ## The whole decode -/

/-- A record of R243 is its verdict and the DecoderState. -/
theorem streamRecord_eq (v : Verdict) (d : DecoderState) : streamRecord v d = ⟨decide (v = .success), v, d.cursor, d.started, d.finished,
    d.corrupt, d.prioErrors, d.chip, d.bunch, d.trlFlags⟩ := rfl

/-- The response is OK exactly at SUCCESS. -/
theorem streamResponse_iff (record : StreamRecord) :
    (record.verdict = .success ∧ streamResponse record = .ok (.stream record)) ∨
      (record.verdict ≠ .success ∧ streamResponse record = .error (.chipStream record.verdict record)) := by
  by_cases h : record.verdict = .success
  · exact .inl ⟨h, if_pos h⟩
  · exact .inr ⟨h, if_neg h⟩

/-- Settles O40: the run of the payload does not mention the state it is put into. -/
theorem decodeStreamDependsOnOperands : Obligations.DecodeStreamDependsOnOperands := fun p bi ri =>
  ⟨(decodeStream p bi ri).hits, (decodeStream p bi ri).decoder, decodeRecord p bi ri, streamResponse (decodeRecord p bi ri),
    fun s => exec_decodeChipStream p bi ri s, streamRecord_eq _ _, streamResponse_iff _⟩

/-! ## The run word by word -/

/-- Where a run that began in state `s` ends, by what the loop leaves. -/
def runEnd (s : State) (run : StreamRun) : State :=
  decodeEnded { s with decoder := run.decoder, hits := s.hits ++ run.hits } run.verdict

/-- A run over no more words ends at once. -/
theorem runEnd_nil (s : State) (v : Verdict) : runEnd s ⟨s.decoder, [], v⟩ = decodeEnded s v := by
  simp [runEnd]

/-- The words of a payload that are left take one step for each of them at most, and one for the end. -/
theorem run_ends (fuel : Nat) : ∀ s : State, s.activity = .stream → s.payload.length ≤ s.decoder.cursor + fuel →
    ∃ k, k ≤ fuel + 1 ∧
      runSteps k s = .next (runEnd s (streamLoop s.payload s.boardIndex s.rcvIndex fuel s.decoder [])) := by
  induction fuel with
  | zero =>
    intro s ha hlen
    exact ⟨1, Nat.le_refl 1, (runSteps_succ (step_endOfPayload ha hlen) 0).trans (by rw [streamLoop, runEnd_nil]; rfl)⟩
  | succ fuel ih =>
    intro s ha hlen
    rw [streamLoop]
    by_cases hlt : s.decoder.cursor < s.payload.length
    · rw [if_pos hlt]
      have hstep := step_stream_word s ha hlt
      cases hword : streamWord s.payload s.boardIndex s.rcvIndex s.decoder with
      | abort v =>
        rw [hword] at hstep
        exact ⟨1, by omega, (runSteps_succ hstep 0).trans (by rw [runEnd_nil]; rfl)⟩
      | advance d new =>
        rw [hword] at hstep
        obtain ⟨hmove, -⟩ := streamWord_cursor _ _ _ _ _ _ hword
        obtain ⟨k, hk, hrun⟩ := ih { s with decoder := d, hits := s.hits ++ new } ha (by dsimp only; omega)
        refine ⟨k + 1, Nat.succ_le_succ hk, (runSteps_succ hstep k).trans (hrun.trans ?_)⟩
        have hprefix := streamLoop_prefix s.payload s.boardIndex s.rcvIndex fuel d new []
        rw [List.append_nil] at hprefix
        simp only [runEnd, List.nil_append, hprefix, List.append_assoc]
    · rw [if_neg hlt]
      have hend := step_endOfPayload ha (Nat.le_of_not_lt hlt)
      exact ⟨1, by omega, (runSteps_succ hend 0).trans (by rw [runEnd_nil]; rfl)⟩

/-- Settles O41: the run begins at the DecoderState the decode begins with. -/
theorem streamWalkIsDecode : Obligations.StreamWalkIsDecode := by
  intro p bi ri s ha hev
  obtain ⟨k, hk, hrun⟩ := run_ends p.length { s with
    activity := .stream
    payload := p
    boardIndex := bi
    rcvIndex := ri
    decoder := DecoderState.initial } rfl (Nat.le_add_left _ _)
  refine ⟨k, hk, hrun.trans ?_⟩
  rw [exec_decodeChipStream, runEnd, ← endStream_eq]
  simp only [endStream, hev]
  simp only [respond, runDecode, emitHits, ha, hev]
  rfl

end Sys2Proof.Machine
end

section
/-! # The step

The proof of O56 (20_memory.md R78; 41_transport_engine.md R152; 43_bitstream_decoder.md R221): what the next step runs, for each of
the three activities, and for a word that was placed. -/

namespace Sys2Proof.Machine

/-- A word that decodes from its bytes decodes as a word. -/
theorem decodeHeaderWord_of_decode {w : Word} {i : Instr} {rest rest' : List Byte} (h : decode .header (beBytes w ++ rest) = .ok (i, rest')) :
    decodeHeaderWord w = .ok i := by
  cases hw : decodeHeaderWord w with
  | error e => rw [decode_header_of_error hw] at h; cases h
  | ok j => rw [decode_header_of_ok hw] at h; cases h; rfl

/-- The step at a command (R78). -/
theorem step_command {s : State} {c : Cmd} {rest : List Cmd} (ha : s.activity = .command) (hc : s.cmd = c :: rest) :
    (c.instr.isCommand = true → c.caller < s.params.nHosts → step s = exec c.instr { s with cmd := rest, caller := c.caller }) ∧
    (c.instr.isCommand = true → s.params.nHosts ≤ c.caller → step s = .fault (.noSuchCaller c.caller)) ∧
    (c.instr.isCommand = false → step s = .fault (.notACommand c.instr)) := by
  refine ⟨fun hi hn => ?_, fun hi hn => ?_, fun hi => ?_⟩
  · simp only [step, fetch, ha, fetchCommand, hc, if_pos hi, if_pos hn]
  · simp only [step, fetch, ha, fetchCommand, hc, if_pos hi, if_neg (Nat.not_lt.mpr hn)]
  · simp [step, fetch, ha, fetchCommand, hc, hi]

/-- The step with no command issued. -/
theorem step_wait {s : State} (ha : s.activity = .command) (hc : s.cmd = []) : step s = .next s := by
  simp only [step, fetch, ha, fetchCommand, hc]

/-- The step at a whole chip word (R221). -/
theorem step_chipWord {s : State} {i : Instr} {rest : List Byte} (ha : s.activity = .stream)
    (hd : decode .chip (s.payload.drop s.decoder.cursor) = .ok (i, rest)) : step s = exec i s := by
  rw [step_stream s ha, decodeChipBytes_of_ok hd]

/-- The step at a reply header of the table (R152). -/
theorem step_replyHeader {s : State} {i : Instr} {r : TxnRecord} {w : Word} (ha : s.activity = .reply)
    (hr : s.batch[s.recIdx]? = some r) (hw : (replyWords s.inbuf)[s.wordPos]? = some w) (hd : decodeHeaderWord w = .ok i) :
    step s = exec i s := by
  simp only [step, fetch, ha, fetchReply, hr, hw, hd]

/-- The first word of a reply. -/
theorem replyWords_beBytes (w : Word) (rest : List Byte) : replyWords (beBytes w ++ rest) = w :: replyWords rest := by
  simp only [beBytes, List.cons_append, List.nil_append, replyWords, be32_beBytes]

/-- A placed header word finds a record that waits. -/
theorem placeHeader_record (w : Word) (s : State) : ∃ r, (placeHeader w s).batch[(placeHeader w s).recIdx]? = some r := by
  unfold placeHeader
  cases hr : s.batch[s.recIdx]? with
  | some r => exact ⟨r, hr⟩
  | none => exact ⟨recordOf w, by simp⟩

/-- A placed header word is run next. -/
theorem step_placeHeader {w : Word} {i : Instr} (hd : decodeHeaderWord w = .ok i) (s : State) :
    step (placeHeader w s) = exec i (placeHeader w s) := by
  obtain ⟨r, hr⟩ := placeHeader_record w s
  refine step_replyHeader rfl hr ?_ hd
  simp only [placeHeader, replyWords_beBytes]
  rfl

/-- A placed chip word is run next. -/
theorem step_placeChip {bytes rest : List Byte} {i : Instr} (hd : decode .chip bytes = .ok (i, rest)) (s : State) :
    step (placeChip bytes s) = exec i (placeChip bytes s) :=
  step_chipWord (s := placeChip bytes s) (rest := rest) rfl hd

/-- A table word that is an instruction decodes in the space of its width. -/
theorem decode_of_decodeTableWord {nbits w : Nat} {i : Instr} (h : decodeTableWord nbits w = some i) :
    ∃ rest, decode (tableSpace nbits) (tableBytes nbits w) = .ok (i, rest) := by
  unfold decodeTableWord at h
  split at h
  · next j rest hd => cases h; exact ⟨rest, hd⟩
  · cases h

/-- A table word placed by withFetchWord is run next. -/
theorem step_withFetchWord {nbits w : Nat} {i : Instr} (h : decodeTableWord nbits w = some i) (s : State) :
    step (s.withFetchWord nbits w) = exec i (s.withFetchWord nbits w) := by
  obtain ⟨rest, hd⟩ := decode_of_decodeTableWord h
  unfold State.withFetchWord placeWord
  cases hspace : tableSpace nbits with
  | header =>
    rw [tableBytes, hspace] at hd
    exact step_placeHeader (decodeHeaderWord_of_decode (rest := []) (by rw [List.append_nil]; exact hd)) s
  | chip =>
    rw [hspace] at hd
    exact step_placeChip hd s

/-- Settles O56: each activity fetches its own kind of word, and a placed word is such a word. -/
theorem stepRunsFetched : Obligations.StepRunsFetched := by
  refine ⟨fun s c rest ha hc => step_command ha hc, fun s ha hc => step_wait ha hc, fun s i rest ha hd => step_chipWord ha hd,
    fun s i r before after w ha hr hin hpos hd => ?_, fun s nbits w i h => step_withFetchWord h s⟩
  have hw : (replyWords s.inbuf)[s.wordPos]? = some w := by
    rw [hin, bigEndian_eq, replyWords_flatMap, ← hpos, List.getElem?_append_right (Nat.le_refl _), Nat.sub_self, List.getElem?_cons_zero]
  rw [bigEndian_eq, ← List.append_nil (beBytes w)] at hd
  exact step_replyHeader ha hr hw (decodeHeaderWord_of_decode hd)

end Sys2Proof.Machine
end

section
/-! # Frames

The proofs of O48 to O52, O54 and O55 (42_board_frame_parser.md R180 to R199; 43_bitstream_decoder.md R245). -/

namespace Sys2Proof.Machine

/-! ## Network frames -/

/-- DECODE_FRAME_NET by what its parse gives. -/
theorem exec_decodeFrameNet (buf : List Byte) (s : State) :
    exec (.decodeFrameNet buf) s = frameOutcome (parseNet s.params.netWordOrder buf) s := frame_exec .net buf s

section
variable {buf : List Byte}

/-- A network frame whose last byte is 0. -/
theorem parseNet_valid (order : ByteOrder) (hlen : 65 ≤ buf.length) (hz : byteNumber buf (buf.length - 1) = 0) :
    parseNet order buf = .ok (.net (netInfo order buf)) 64 (buf.length - 1) := by
  rw [parseNet_eq order buf hlen, if_pos hz]

/-- A network frame with an error in its last byte. -/
theorem parseNet_invalid (order : ByteOrder) (hlen : 65 ≤ buf.length) (hz : byteNumber buf (buf.length - 1) ≠ 0) :
    parseNet order buf =
      .error (.netTrailerError (netInfo order buf).trailerByte (netInfo order buf)) (some (.net (netInfo order buf))) := by
  rw [parseNet_eq order buf hlen, if_neg hz]

/-- A buffer without room for header and trailer. -/
theorem parseNet_truncated (order : ByteOrder) (hlen : buf.length < 65) : parseNet order buf = .error (.truncated buf.length) none :=
  if_pos ((net_len buf).mpr hlen)

end

/-- Settles O48: the last byte decides, and the info is the same either way. -/
theorem netFrameVerdict : Obligations.NetFrameVerdict := by
  intro buf s hlen
  refine ⟨netInfo s.params.netWordOrder buf, netInfo_flags _ buf, fun hz => ?_, fun hz => ?_⟩
  · rw [exec_decodeFrameNet, parseNet_valid _ hlen hz]
    rfl
  · rw [exec_decodeFrameNet, parseNet_invalid _ hlen hz]
    rfl

/-- Settles O49: the words of the info are read in the order of the parameter. -/
theorem netFrameWords : Obligations.NetFrameWords := by
  intro buf s
  refine ⟨fun hlen => ?_, fun hlen => ⟨netInfo s.params.netWordOrder buf, netInfo_words _ buf, ?_⟩⟩
  · rw [exec_decodeFrameNet, parseNet_truncated _ hlen]
    rfl
  · rw [exec_decodeFrameNet]
    by_cases hz : byteNumber buf (buf.length - 1) = 0
    · rw [parseNet_valid _ hlen hz]
      exact .inl rfl
    · rw [parseNet_invalid _ hlen hz]
      exact .inr rfl

/-! ## USB frames -/

/-- A USB frame with a longer header is decided by the header checks and then by the trailer check, over the info of R194 to
R198. -/
theorem parseUsb_long {s : State} {buf : List Byte} {fw ht n : Nat} (hw : UsbWords s fw ht n) (hn : n ≠ 3)
    (hlen : 4 * n + 8 ≤ buf.length) : ∃ info : UsbInfo, RuledUsbInfo n buf info ∧
      (∀ e, usbHeaderError buf info = some e → parseUsb s.params buf fw ht = .error e (some (.usb info))) ∧
      (usbHeaderError buf info = none → parseUsb s.params buf fw ht = usbTrailer n buf info) := by
  rcases hw with ⟨-, rfl⟩ | ⟨hl, rfl⟩ | ⟨hl, rfl⟩
  · exact absurd rfl hn
  · have hparse : parseUsb s.params buf fw ht = parseUsbAs s.params .five buf fw := by rw [parseUsb, hl]
    rw [hparse, parseUsbAs_five _ _ _ hlen]
    exact ⟨usbInfo false buf, usbInfo_ruled false buf, fun e he => by rw [he], fun he => by rw [he]⟩
  · have hparse : parseUsb s.params buf fw ht = parseUsbAs s.params .nine buf fw := by rw [parseUsb, hl]
    rw [hparse, parseUsbAs_nine _ _ _ hlen]
    exact ⟨usbInfo true buf, usbInfo_ruled true buf, fun e he => by rw [he], fun he => by rw [he]⟩

/-- With the marker the trailer check accepts. -/
theorem usbTrailer_good_marker (n : Nat) {buf : List Byte} (info : UsbInfo) (h : le32Number buf (buf.length - 4) = 0xBFBFBFBF) :
    usbTrailer n buf info = .ok (.usb info) (4 * n) (buf.length - 8) :=
  (usbTrailer_ok_iff _ _ _ _ _ _).mpr ⟨(usbT1_iff buf).mpr h, rfl, rfl, rfl⟩

/-- Settles O50: a good header passes the header checks, and the marker the trailer's. -/
theorem usbFrameAccepted : Obligations.UsbFrameAccepted := by
  intro buf fw ht n s hw hn hlen hgood hmark
  obtain ⟨info, hruled, -, htrailer⟩ := parseUsb_long hw hn hlen
  refine ⟨info, hruled, ?_⟩
  rw [exec_decodeFrameUsb, htrailer (headerError_usb_none buf info hgood), usbTrailer_good_marker n info hmark]
  rfl

/-- Settles O52: the header checks come before the trailer's. -/
theorem usbHeaderChecksInOrder : Obligations.UsbHeaderChecksInOrder := by
  intro buf fw ht n s hw hn hlen
  obtain ⟨info, hruled, hheader, -⟩ := parseUsb_long hw hn hlen
  refine ⟨info, hruled, fun e he => ?_⟩
  rw [exec_decodeFrameUsb, hheader e (headerError_usb_some buf info e he)]
  rfl

/-- A pair with a 3-word header, from the table. -/
theorem lookupHdr_three {s : State} {fw ht : Nat} (hw : UsbWords s fw ht 3) : lookupHdr s.params.usbHdrWords fw ht = some .three := by
  rcases hw with ⟨hl, -⟩ | ⟨-, hn⟩ | ⟨-, hn⟩
  · exact hl
  · cases hn
  · cases hn

/-- A 3-word header that is long enough is decided by the firmware version. -/
theorem parseUsb_three {s : State} {buf : List Byte} {fw ht : Nat} (hw : UsbWords s fw ht 3) (hlen : 20 ≤ buf.length) :
    parseUsb s.params buf fw ht =
      if fw ∈ s.params.legacy3Fw then usbTrailer 3 buf (usbInfo3 fw buf) else .refused (.legacy3Undefined fw) := by
  simp only [parseUsb, lookupHdr_three hw]
  exact parseUsbAs_three _ _ _ hlen

/-- Settles O51: a 3-word header has no header check, and its info is the free decode of its three words. -/
theorem usbLegacyFrameAccepted : Obligations.UsbLegacyFrameAccepted := by
  intro buf fw ht s hw hfw hlen hmark f
  rw [exec_decodeFrameUsb, parseUsb_three hw hlen, if_pos hfw, usbTrailer_good_marker 3 _ hmark]
  have hsize : usbT0 buf = BitVec.ofNat 32 (le32Number buf (buf.length - 8)) := le32At_eq _ _
  have hmarker : usbT1 buf = 0xBFBFBFBF#32 := (usbT1_iff buf).mpr hmark
  simp only [f, usbNumber_word, usbInfo3, hsize, hmarker]
  rfl

/-- A pair without a row in the table. -/
theorem lookupHdr_none {table : List UsbHdrRow} {fw ht : Nat} (h : ∀ row ∈ table, ¬ (row.fw = fw ∧ row.ht = ht)) :
    lookupHdr table fw ht = none := by
  induction table with
  | nil => rfl
  | cons row rest ih =>
    obtain ⟨hrow, hrest⟩ := List.forall_mem_cons.mp h
    rw [lookupHdr, if_neg hrow, ih hrest]

/-- A buffer without room for header and trailer, whatever the header's length. -/
theorem parseUsb_truncated {s : State} {buf : List Byte} {fw ht n : Nat} (hw : UsbWords s fw ht n) (hlen : buf.length < 4 * n + 8) :
    parseUsb s.params buf fw ht = .error (.truncated buf.length) none := by
  rcases hw with ⟨hl, rfl⟩ | ⟨hl, rfl⟩ | ⟨hl, rfl⟩ <;> simp only [parseUsb, hl] <;> exact if_pos hlen

/-- Settles O54: the table comes first, the length next, the firmware version of a 3-word header last. -/
theorem usbRefusalsAndTruncation : Obligations.UsbRefusalsAndTruncation := by
  intro buf fw ht s
  refine ⟨fun hnone => ?_, fun n hw hlen => ?_, fun hw hlen hfw => ?_⟩
  · rw [exec_decodeFrameUsb, parseUsb, lookupHdr_none hnone]
    rfl
  · rw [exec_decodeFrameUsb, parseUsb_truncated hw hlen]
    rfl
  · rw [exec_decodeFrameUsb, parseUsb_three hw hlen, if_neg hfw]
    rfl

/-! ## The event pipeline -/

/-- A frame command refuses exactly when its parse does. -/
theorem frameOutcome_refused {r : FrameResult} {s : State} {why : Refusal} (h : frameOutcome r s = .refused why) : r = .refused why := by
  cases r <;> cases h
  rfl

/-- A frame command answers an error only when its parse is that error. -/
theorem frameOutcome_error {r : FrameResult} {s : State} {e : Error} (h : frameOutcome r s = .next (answered s (.error e))) :
    ∃ info, r = .error e info := by
  cases r with
  | ok info lo hi => cases answered_inj (Host.Outcome.next.inj h)
  | error e' info => cases answered_inj (Host.Outcome.next.inj h); exact ⟨info, rfl⟩
  | refused why => cases h

section
variable {fam : BoardFamily} {buf : List Byte} {s : State}

/-- DECODE_EVENT by what its frame's parse gives. -/
theorem exec_decodeEvent_refused {why : Refusal} (h : parseFrame s.params fam buf = .refused why) (bi ri : Nat) :
    exec (.decodeEvent fam buf bi ri) s = .refused why := by
  simp only [exec, execDecodeEvent, h]

theorem exec_decodeEvent_error {e : Error} {info : Option FrameInfo} (h : parseFrame s.params fam buf = .error e info) (bi ri : Nat) :
    exec (.decodeEvent fam buf bi ri) s = .next (answered { s with evts := s.evts ++ [⟨false, some e, info, none⟩] } (.error e)) := by
  simp only [exec, execDecodeEvent, h]
  rfl

theorem exec_decodeEvent_ok {info : FrameInfo} {lo hi : Nat} (h : parseFrame s.params fam buf = .ok info lo hi) (bi ri : Nat) :
    exec (.decodeEvent fam buf bi ri) s = .next
      { respond (streamResponse (decodeRecord (payloadOf buf lo hi) bi ri)) (runDecode (payloadOf buf lo hi) bi ri s) with
        evts := s.evts ++ [⟨(decodeRecord (payloadOf buf lo hi) bi ri).success, none, some info,
          some (decodeRecord (payloadOf buf lo hi) bi ri)⟩] } := by
  simp only [exec, execDecodeEvent, h]
  rfl

/-- The frames each family accepts. -/
theorem parseFrame_accepted (h : (fam = .net ∧ 65 ≤ buf.length ∧ byteNumber buf (buf.length - 1) = 0) ∨
    (∃ fw ht n, fam = .usb fw ht ∧ UsbWords s fw ht n ∧ 4 * n + 8 ≤ buf.length ∧ (n = 3 → fw ∈ s.params.legacy3Fw) ∧
      (n ≠ 3 → GoodUsbHeader buf) ∧ le32Number buf (buf.length - 4) = 0xBFBFBFBF)) :
    ∃ info lo hi, parseFrame s.params fam buf = .ok info lo hi := by
  rcases h with ⟨rfl, hlen, hz⟩ | ⟨fw, ht, n, rfl, hw, hlen, h3, hgood, hmark⟩
  · exact ⟨_, _, _, parseNet_valid _ hlen hz⟩
  · obtain ⟨info, -, hparse⟩ := parseUsb_eq_usbTrailer hw hlen h3 hgood
    exact ⟨_, _, _, hparse.trans (usbTrailer_good_marker n info hmark)⟩

end

/-- The response of a decode, as one of two messages. -/
theorem streamResponse_message (caller : Nat) (record : StreamRecord) :
    Rsp.mk caller (streamResponse record) = ⟨caller, .ok (.stream record)⟩ ∨
      ∃ v, Rsp.mk caller (streamResponse record) = ⟨caller, .error (.chipStream v record)⟩ := by
  rcases streamResponse_iff record with ⟨-, hr⟩ | ⟨-, hr⟩ <;> rw [hr]
  · exact .inl rfl
  · exact .inr ⟨_, rfl⟩

/-- Settles O55: DECODE_EVENT and the frame command run the same parse, and its three results are their branches. -/
theorem decodeEventPipeline : Obligations.DecodeEventPipeline := by
  intro fam buf bi ri s
  rw [frame_exec]
  refine ⟨fun why h => ?_, fun e h => ?_, fun info lo hi h => ?_, fun h => ?_⟩
  · exact exec_decodeEvent_refused (frameOutcome_refused h) bi ri
  · obtain ⟨info, hparse⟩ := frameOutcome_error h
    have hinfo := frame_carried _ _ _ _ _ hparse
    rw [← hinfo]
    exact ⟨exec_decodeEvent_error hparse bi ri, frame_info _ _ _ _ _ hparse⟩
  · have hparse := (frameOutcome_ok_iff _ _ _ _ _).mp h
    refine ⟨_, decodeRecord (payloadOf buf lo hi) bi ri, exec_decodeChipStream _ bi ri s, ?_, exec_decodeEvent_ok hparse bi ri⟩
    rcases streamResponse_message s.caller (decodeRecord (payloadOf buf lo hi) bi ri) with hr | ⟨v, hr⟩
    · exact .inl (congrArg (fun m => s.rsp ++ [m]) hr)
    · exact .inr ⟨v, congrArg (fun m => s.rsp ++ [m]) hr⟩
  · obtain ⟨info, lo, hi, hparse⟩ := parseFrame_accepted h
    exact ⟨_, info, _, _, exec_decodeEvent_ok hparse bi ri, rfl, rfl⟩

end Sys2Proof.Machine
end
